-- ==== Sys2Proof/Word.lean ====
section
/-! DEFINITION. The data words of the codec: bits, bytes, symbols, the two instruction formats, the two buffer spaces. -/

namespace Sys2Proof

/-- A bit is 0 (`false`) or 1 (`true`) (00_scope.md R7). -/
abbrev Bit := Bool

/-- A bit string: a finite list of bits, position 0 first (00_scope.md R7). -/
abbrev Bits := List Bit

/-- An element of `BIN` (10_state.md R27). -/
abbrev Byte := BitVec 8

/-- A symbol: an unsigned value of `W_SYM` bits (00_scope.md R11). The width is a parameter (R5), so the bound `2^W_SYM` is kept where
symbols are stored and read, not in the type. -/
abbrev Symbol := Nat

/-- The two buffer spaces a host reaches (20_memory.md R50). -/
inductive Space where
  | txt
  | bin
deriving DecidableEq, Repr

/-- An instruction's word in one of the opcode table's two formats: a `CMD8` word is written to `CMD`
(30_encoding.md R70), a `STAGE4` word is the id in the stage sequencer (30_encoding.md R73). -/
inductive CodeWord where
  | cmd8 (opcode : BitVec 8)
  | stage4 (id : BitVec 4)
deriving DecidableEq, Repr

end Sys2Proof
end

