-- ==== Sys2Proof/Syntax.lean ====
section
/-! DEFINITION. The instructions: every row of spec/opcode_table.json, three commands and ten stages. -/

namespace Sys2Proof

/-- Commands (format `CMD8`, 30_encoding.md R71) and stages (format `STAGE4`, 30_encoding.md R73). No row has an operand field:
the operands of every row are implicit (30_encoding.md R81). -/
inductive Instr where
  | compress
  | decompress
  | clear
  | trim
  | freq
  | treeBuild
  | codeAssign
  | encode
  | pad
  | serialize
  | deserialize
  | unpad
  | decode
deriving DecidableEq, Repr

/-- The rows of format `CMD8`, which the host starts by a write to `CMD`; the others are stages (30_encoding.md R73). -/
def Instr.isCommand : Instr → Bool
  | .compress => true
  | .decompress => true
  | .clear => true
  | .trim => false
  | .freq => false
  | .treeBuild => false
  | .codeAssign => false
  | .encode => false
  | .pad => false
  | .serialize => false
  | .deserialize => false
  | .unpad => false
  | .decode => false

end Sys2Proof
end

