-- ==== Sys2Proof/Decode.lean ====
section
/-! DEFINITION. The decoder of both instruction formats, total, refusing by name, and the encoder beside it. -/

namespace Sys2Proof

/-- Why a word is no instruction: an `OPCODE` that 30_encoding.md R72 calls illegal, or a stage id that is never produced (R73). -/
inductive DecodeError where
  | illegalOpcode (v : BitVec 8)
  | illegalStage (id : BitVec 4)
deriving DecidableEq, Repr

/-- The opcode map (30_encoding.md R71); every other value is illegal (R72). -/
def decodeCmd (v : BitVec 8) : Except DecodeError Instr :=
  if v = 0x01 then .ok .compress
  else if v = 0x02 then .ok .decompress
  else if v = 0x03 then .ok .clear
  else .error (.illegalOpcode v)

/-- The stage identifiers (30_encoding.md R73); 0 means no stage and 11 to 15 are never produced. -/
def decodeStage (id : BitVec 4) : Except DecodeError Instr :=
  if id = 1 then .ok .trim
  else if id = 2 then .ok .freq
  else if id = 3 then .ok .treeBuild
  else if id = 4 then .ok .codeAssign
  else if id = 5 then .ok .encode
  else if id = 6 then .ok .pad
  else if id = 7 then .ok .serialize
  else if id = 8 then .ok .deserialize
  else if id = 9 then .ok .unpad
  else if id = 10 then .ok .decode
  else .error (.illegalStage id)

/-- Decoding of a word, by its format. -/
def decode : CodeWord → Except DecodeError Instr
  | .cmd8 v => decodeCmd v
  | .stage4 id => decodeStage id

/-- The word of an instruction, from the two tables of 30_encoding.md (R71, R73). -/
def encode : Instr → CodeWord
  | .compress => .cmd8 0x01
  | .decompress => .cmd8 0x02
  | .clear => .cmd8 0x03
  | .trim => .stage4 1
  | .freq => .stage4 2
  | .treeBuild => .stage4 3
  | .codeAssign => .stage4 4
  | .encode => .stage4 5
  | .pad => .stage4 6
  | .serialize => .stage4 7
  | .deserialize => .stage4 8
  | .unpad => .stage4 9
  | .decode => .stage4 10

/-- The id of a stage; 0, "no stage", for a command (30_encoding.md R73). -/
def stageId (i : Instr) : BitVec 4 :=
  match encode i with
  | .stage4 id => id
  | .cmd8 _ => 0

/-- The word an opcode-table row's bits stand for: `STAGE4` for up to 4 bits, `CMD8` for more. Where the bits are given in whole
bytes, a value that `CMD8` refuses and that fits 4 bits is read as a `STAGE4` id (DESIGN CHOICE, log 20). This reading serves
`decodeTableWord` alone: a write to `CMD` is always decoded by `decodeCmd`. -/
def tableWord (nbits w : Nat) : CodeWord :=
  if nbits ≤ 4 then .stage4 (BitVec.ofNat 4 w)
  else
    match decodeCmd (BitVec.ofNat 8 w) with
    | .ok _ => .cmd8 (BitVec.ofNat 8 w)
    | .error _ =>
      if 1 ≤ w % 256 ∧ w % 256 ≤ 10 then .stage4 (BitVec.ofNat 4 w) else .cmd8 (BitVec.ofNat 8 w)

/-- The instruction the decoder reads from a row's bits (see `tableWord`). -/
def decodeTableWord (nbits w : Nat) : Option Instr :=
  match decode (tableWord nbits w) with
  | .ok i => some i
  | .error _ => none

end Sys2Proof
end

