-- ==== Sys2Proof/Config.lean ====
section
/-! DEFINITION. The parameters of 00_scope.md R5, which the model takes as arguments, the widths and sizes derived from them, and the
free values the spec leaves open. -/

namespace Sys2Proof

/-- The parameters of one core (00_scope.md R5). They are fixed for a core, so no step changes them (log 1). -/
structure Config where
  /-- `W_SYM`, the width of a symbol in bits. -/
  wSym : Nat
  /-- `MAX_TXT`, the capacity of `TXT` in symbols. -/
  maxTxt : Nat
  /-- `MAX_BIN`, the capacity of `BIN` in bytes. -/
  maxBin : Nat
  /-- `WS`, the symbols `TRIM` treats as whitespace. -/
  ws : List Symbol
  /-- `DEGEN_CODE` is one bit long (43_code_generator.md R131); this is that bit. -/
  degenBit : Bit
  /-- `LEAF_ORDER`: every symbol value, in the order in which leaves enter the priority queue. -/
  leafOrder : List Symbol
deriving DecidableEq, Repr

/-- The default of `WS`: tab, line feed, vertical tab, form feed, carriage return, space (00_scope.md R5, decision D6, K1). -/
def Config.defaultWs : List Symbol := [0x09, 0x0A, 0x0B, 0x0C, 0x0D, 0x20]

/-- The decision for `LEAF_ORDER`: ascending symbol value (00_scope.md R5, decision D7). -/
def Config.ascending (wSym : Nat) : List Symbol := List.range (2 ^ wSym)

/-- The value column of 00_scope.md R5. DESIGN CHOICE (log 1): `MAX_TXT` and `MAX_BIN` are `OPEN`; 1000 is the capacity
95_test_vectors.md V-TRIM takes as its instance. Unsafe: only claims about `State.reset` itself rest on it. -/
def Config.chosen : Config where
  wSym := 8
  maxTxt := 1000
  maxBin := 1000
  ws := Config.defaultWs
  degenBit := false
  leafOrder := Config.ascending 8

/-! ## Derived sizes (00_scope.md R5) -/

/-- `NSYM = 2^W_SYM`, the number of symbol values. -/
def Config.nSym (c : Config) : Nat := 2 ^ c.wSym

/-- `MAX_NODE = 2*NSYM - 1`, the capacity of node memory. -/
def Config.maxNode (c : Config) : Nat := 2 * c.nSym - 1

/-- `MAX_CLEN = NSYM - 1`, the longest possible code. -/
def Config.maxCodeLen (c : Config) : Nat := c.nSym - 1

/-- `DEGEN_CODE`, the code of the only symbol of a one-symbol alphabet; `[0]` by decision D9. -/
def Config.degenCode (c : Config) : Bits := [c.degenBit]

/-! ## Widths (00_scope.md R5) -/

/-- The least `w` with `n < 2^w`. -/
def leastWidth (n : Nat) : Nat := if n = 0 then 0 else n.log2 + 1

/-- `W_CNT`, the width of a count and of a weight: the least `w` with `MAX_TXT < 2^w`. -/
def Config.wCnt (c : Config) : Nat := leastWidth c.maxTxt

/-- `W_TLEN`, the width of `TXT_LEN`: the same as `W_CNT`. -/
def Config.wTLen (c : Config) : Nat := c.wCnt

/-- `W_BLEN`, the width of `BIN_LEN`: the least `w` with `MAX_BIN < 2^w`. -/
def Config.wBLen (c : Config) : Nat := leastWidth c.maxBin

/-- `W_NODE`, the width of a node index: the least `w` with `MAX_NODE < 2^w`, which is `W_SYM + 1` and 9 for `W_SYM = 8` (log 3). -/
def Config.wNode (c : Config) : Nat := c.wSym + 1

/-- The width of an element of a buffer: `W_SYM` in `TXT`, 8 in `BIN` (10_state.md R26, R27). -/
def Config.elementWidth (c : Config) : Space → Nat
  | .txt => c.wSym
  | .bin => 8

/-- The capacity of a buffer (10_state.md R26, R27). -/
def Config.capacity (c : Config) : Space → Nat
  | .txt => c.maxTxt
  | .bin => c.maxBin

/-! ## Free values -/

/-- FREE VALUE (log 7): what element `index` of a buffer holds while its contents are unspecified (10_state.md R26, R27, R39), before
it is cut to the width of an element. `epoch` counts how often the buffer became unspecified, so that no two times share a value by
construction. -/
opaque Config.freeElement : Space → (epoch : Nat) → (index : Nat) → Nat

/-- FREE VALUE (log 8): what the `n`-th host read that the spec calls unspecified returns, before it is cut to the width of what
was read (20_memory.md R51). -/
opaque Config.freeRead : (n : Nat) → Nat

end Sys2Proof
end

