-- ==== Sys2Proof/Machine/HostAction.lean ====
section
/-! DEFINITION. What the outside world can do to the core, as plain data. -/

namespace Sys2Proof.Machine

/-- One action of the host (20_memory.md R51, 30_encoding.md R84, 70_reset_and_hazards.md R230). `State.host` holds the pending ones,
oldest first (log 5). -/
inductive HostAction where
  /-- Read control register `n`. -/
  | csrRead (n : Nat)
  /-- `csr[n] <- v`. -/
  | csrWrite (n : Nat) (v : Nat)
  /-- `MemRead(space, i, 1)`. -/
  | memRead (space : Space) (i : Nat)
  /-- `MemWrite(space, i, 1, v)`. -/
  | memWrite (space : Space) (i : Nat) (v : Nat)
  /-- Read `STATUS` until `DONE = 1` (30_encoding.md R84). -/
  | pollDone
  /-- The host does nothing for one step of the core. -/
  | idle
  /-- Apply the reset input (70_reset_and_hazards.md R231). -/
  | reset
deriving DecidableEq, Repr

end Sys2Proof.Machine
end

