-- ==== Sys2Proof/Machine/State.lean ====
section
/-! DEFINITION. The state of the core as plain data, its reset, and the reasons a step can stop. -/

namespace Sys2Proof.Machine

/-- Contents of a buffer (10_state.md R26, R27; log 9): the elements that hold a specified value, as (index, element) pairs with
strictly rising indices. An element that is not listed is unspecified; `epoch` says which unspecified value it reads as. -/
structure Memory (α : Type) where
  cells : List (Nat × α)
  epoch : Nat
deriving DecidableEq, Repr

/-- A HuffmanNode record (10_state.md R31): a leaf has a symbol and no children, an internal node two children and no symbol;
both have a weight. -/
inductive Node where
  | leaf (sym : Symbol) (weight : Nat)
  | internal (weight : Nat) (left right : Nat)
deriving DecidableEq, Repr

/-- The CodeTable (10_state.md R28): a map, listed by rising symbol value. -/
abbrev CodeTable := List (Symbol × Bits)

/-- The state (10_state.md R20 to R41; INVENTORY.md, State). -/
structure State where
  /-- The parameters (00_scope.md R5; log 1). -/
  cfg : Config
  /-- `STATUS` (R23). -/
  status : BitVec 16
  /-- `TXT_LEN` (R24). -/
  txtLen : Nat
  /-- `BIN_LEN` (R25). -/
  binLen : Nat
  /-- `TXT` (R26). -/
  txt : Memory Symbol
  /-- `BIN` (R27); its cells are `Host.Cell`s. -/
  bin : Memory Byte
  /-- `CODE` (R28); `RCT` is its inverse (R29). -/
  code : CodeTable
  /-- `NODE[0 .. NODE_CNT-1]`; its length is `NODE_CNT` (R31, R41; log 15). -/
  node : List Node
  /-- `ROOT` (R31, R41). -/
  root : Nat
  /-- The stage sequencer (R35). -/
  seq : BitVec 4
  /-- `FREQ` (R30): the count of each symbol value, `NSYM` of them. -/
  freq : List Nat
  /-- `PQ` (R32), as the rising list of its members. -/
  pq : List Nat
  /-- `ENC` (R33). -/
  enc : Bits
  /-- `PAD` (R33). -/
  pad : Bits
  /-- `WLEN` (R34). -/
  wlen : Nat
  /-- `I` (R34). -/
  idx : Nat
  /-- `A` (R34). -/
  nodeA : Nat
  /-- `B` (R34). -/
  nodeB : Nat
  /-- `L` (R34). -/
  payloadLen : Nat
  /-- `EXTRA` (R34). -/
  extra : Nat
  /-- `CAND` (R34). -/
  cand : Bits
  /-- `P` (R34). -/
  walker : Nat
  /-- `N_OUT` (R34). -/
  nOut : Nat
  /-- `STACK` (R34). -/
  stack : List (Nat × Bits)
  /-- The host's pending actions, oldest first (log 5). -/
  host : List HostAction
  /-- The value the last host read returned (log 6). -/
  readData : Nat
  /-- How many unspecified reads there have been (log 8). -/
  freeCount : Nat
deriving DecidableEq, Repr

/-- Why a step stops with a fault. -/
inductive Fault where
  /-- Raised by `step` alone, when the stage sequencer holds one of the ids 11 to 15, which no rule produces (30_encoding.md R73).
  Safe: no state that a run reaches holds one (log 17). -/
  | illegalStage (id : BitVec 4)
deriving DecidableEq, Repr

/-- Why a step has no meaning. -/
inductive Refusal where
  /-- Answered by an arm of `exec` for an instruction that has no meaning yet; no arm does so now. Safe. -/
  | notModelled (mnemonic : String)
deriving DecidableEq, Repr

/-- The three outcomes of a step of this machine. -/
abbrev Outcome := Host.Outcome State Fault Refusal

/-- The core of configuration `c` right after reset (10_state.md R39, 70_reset_and_hazards.md R231). The scratch values are
DESIGN CHOICE (log 12): the spec gives none. -/
def State.resetOf (c : Config) : State where
  cfg := c
  status := 0
  txtLen := 0
  binLen := 0
  txt := { cells := [], epoch := 0 }
  bin := { cells := [], epoch := 0 }
  code := []
  node := []
  root := 0
  seq := 0
  freq := List.replicate c.nSym 0
  pq := []
  enc := []
  pad := []
  wlen := 0
  idx := 0
  nodeA := 0
  nodeB := 0
  payloadLen := 0
  extra := 0
  cand := []
  walker := 0
  nOut := 0
  stack := []
  host := []
  readData := 0
  freeCount := 0

/-- The machine right after reset, for the configuration of log 1. -/
def State.reset : State := State.resetOf Config.chosen

end Sys2Proof.Machine
end

