-- ==== Sys2Proof/Machine/Flags.lean ====
section
/-! DEFINITION. `STATUS`: its fields, the only flags of the core (10_state.md R23, R36), and the words the rules write to it. -/

namespace Sys2Proof.Machine

/-- The errors the core can end a command with (60_exceptions.md R200). `IOError` is the file layer's (R204). -/
inductive ErrorKind where
  | emptyInput
  | unknownSymbol
  | corruptStream
  | capacity
  | illegalCommand
deriving DecidableEq, Repr

/-- `ERR_CODE` of an error (60_exceptions.md R207). -/
def ErrorKind.code : ErrorKind → BitVec 4
  | .emptyInput => 1
  | .unknownSymbol => 2
  | .corruptStream => 3
  | .capacity => 5
  | .illegalCommand => 6

/-- `STATUS` from its fields; bits 3 and 15:12 are reserved and read 0 (10_state.md R23). -/
def packStatus (busy done err : Bool) (errCode stage : BitVec 4) : BitVec 16 :=
  0#4 ++ stage ++ errCode ++ 0#1 ++ BitVec.ofBool err ++ BitVec.ofBool done ++ BitVec.ofBool busy

/-- `STATUS` while a command runs (47_commands.md R170). -/
def statusRunning : BitVec 16 := packStatus true false false 0 0

/-- `STATUS` after success (47_commands.md R175). -/
def statusSuccess : BitVec 16 := packStatus false true false 0 0

/-- `STATUS` after an error raised by a stage (60_exceptions.md R208), or by an illegal command with stage 0 (47_commands.md R174). -/
def statusError (e : ErrorKind) (stage : BitVec 4) : BitVec 16 := packStatus false true true e.code stage

/-- `STATUS.BUSY` (10_state.md R23). -/
def State.busy (s : State) : Bool := s.status.getLsbD 0

/-- `STATUS.DONE` (10_state.md R23). -/
def State.done (s : State) : Bool := s.status.getLsbD 1

/-- `STATUS.ERR` (10_state.md R23). -/
def State.err (s : State) : Bool := s.status.getLsbD 2

/-- `STATUS.ERR_CODE` (10_state.md R23). -/
def State.errCode (s : State) : BitVec 4 := s.status.extractLsb' 4 4

/-- `STATUS.STAGE` (10_state.md R23). -/
def State.errStage (s : State) : BitVec 4 := s.status.extractLsb' 8 4

end Sys2Proof.Machine
end

