-- ==== Sys2Proof/Machine/Ops.lean ====
section
/-! DEFINITION. The named operations over buffers and registers, the issue of a command, its completion, and raising an error. -/

namespace Sys2Proof.Machine

/-- Bind `k` to `v` in a map that is listed by rising key; the result is so listed too (00_scope.md R10, `m[k] <- v`). -/
def bindKey {ν : Type} (k : Nat) (v : ν) : List (Nat × ν) → List (Nat × ν)
  | [] => [(k, v)]
  | (k', v') :: rest =>
    if k < k' then (k, v) :: (k', v') :: rest
    else if k = k' then (k, v) :: rest
    else (k', v') :: bindKey k v rest

/-- `bin8(v)`: the bits of a byte, most significant first (00_scope.md R8, 20_memory.md R52). -/
def bin8 (v : Byte) : Bits := (List.range 8).map (fun i => v.getLsbD (7 - i))

/-- `val(s)`: the unsigned number a bit string spells, most significant bit first (00_scope.md R8). -/
def bitsVal (s : Bits) : Nat := s.foldl (fun n b => 2 * n + b.toNat) 0

/-- A value as a register or an element of `w` bits holds it (log 10). -/
def truncate (w v : Nat) : Nat := v % 2 ^ w

/-! ## Buffers -/

section
variable {α : Type}

/-- The indices listed rise strictly and stay below the capacity: the one canonical form of a buffer's contents (log 9). -/
def Memory.wf (m : Memory α) (capacity : Nat) : Bool :=
  decide ((m.cells.map Prod.fst).Pairwise (· < ·)) && m.cells.all (fun c => decide (c.1 < capacity))

/-- The element at index `i` of a buffer. One that is not listed is unspecified and reads as a free value (10_state.md R39,
70_reset_and_hazards.md R233; log 7). -/
def Memory.read (free : (epoch : Nat) → (index : Nat) → α) (m : Memory α) (i : Nat) : α :=
  match m.cells.lookup i with
  | some v => v
  | none => free m.epoch i

/-- `MemWrite` of one element; a write at or above the capacity is ignored (20_memory.md R51). -/
def Memory.write (capacity : Nat) (i : Nat) (v : α) (m : Memory α) : Memory α :=
  if i < capacity then { m with cells := bindKey i v m.cells } else m

/-- The cells of a list of elements laid from index `k` on. -/
def cellsFrom (k : Nat) : List α → List (Nat × α)
  | [] => []
  | v :: vs => (k, v) :: cellsFrom (k + 1) vs

/-- The contents a command leaves in its destination: elements `0 .. n-1` are the result, every other one is unspecified
(10_state.md R26, R27). No element lies at or above the capacity. -/
def Memory.fill (capacity : Nat) (vs : List α) (m : Memory α) : Memory α :=
  { cells := cellsFrom 0 (vs.take capacity), epoch := m.epoch + 1 }

/-- The contents an error or a reset leaves: every element unspecified (60_exceptions.md R208, 10_state.md R39). -/
def Memory.discard (m : Memory α) : Memory α := { cells := [], epoch := m.epoch + 1 }

end

/-! ## Length registers -/

/-- `TXT_LEN <- n` (10_state.md R24). -/
def State.setTxtLen (n : Nat) (s : State) : State := { s with txtLen := truncate s.cfg.wTLen n }

/-- `BIN_LEN <- n` (10_state.md R25). -/
def State.setBinLen (n : Nat) (s : State) : State := { s with binLen := truncate s.cfg.wBLen n }

/-! ## Issue, advance, completion -/

/-- A write to `CMD`: ignored while `BUSY = 1`, before the opcode matters; otherwise the command's action (47_commands.md R170). -/
def State.issue (action : State → State) (s : State) : State := if s.busy then s else action s

/-- What stands for the return from an error: there is no return instruction and nothing to restore (60_exceptions.md R212). The error
fields stay until the next accepted `CMD` write, which clears them by writing the running status. -/
def State.acknowledge (s : State) : State := { s with status := statusRunning }

/-- The command is accepted and runs, its first stage next (47_commands.md R170, 10_state.md R35). -/
def State.start (first : Instr) (s : State) : State := { s.acknowledge with seq := stageId first }

/-- A stage that ends without error passes the turn to the next stage of the command (10_state.md R35, 47_commands.md R176). -/
def State.advance (nextStage : Instr) (s : State) : State := { s with seq := stageId nextStage }

/-- Completion with success (47_commands.md R175). -/
def State.succeed (s : State) : State := { s with status := statusSuccess, seq := 0 }

/-- An illegal command completes at once and changes `STATUS` alone (47_commands.md R174). -/
def State.rejectCommand (s : State) : State := { s with status := statusError .illegalCommand 0 }

/-- The persistent codec state becomes empty: `CODE <- {}`, `NODE_CNT <- 0` (10_state.md R28, R41). -/
def State.clearCodec (s : State) : State := { s with code := [], node := [] }

/-! ## Raising an error (`State.acknowledge` above stands for the return from one) -/

/-- What an error leaves of the destination of `COMPRESS` and of the codec state (60_exceptions.md R208). -/
def State.abandonCompress (s : State) : State :=
  { s with binLen := 0, bin := s.bin.discard, code := [], node := [] }

/-- What an error leaves of the destination of `DECOMPRESS` (60_exceptions.md R208). -/
def State.abandonDecompress (s : State) : State := { s with txtLen := 0, txt := s.txt.discard }

/-- The stages of `COMPRESS`; the other stages are those of `DECOMPRESS` (30_encoding.md R73). -/
def ofCompress (stage : Instr) : Bool := decide (1 ≤ (stageId stage).toNat) && decide ((stageId stage).toNat ≤ 7)

/-- `raise E(stage)`: the one operation every error goes through (60_exceptions.md R208). The command ends, the core is idle, `STATUS`
holds the error and the stage; no pc, status or mode is saved and there is no handler. Scratch is left alone (log 14). -/
def State.raise (e : ErrorKind) (stage : Instr) (s : State) : State :=
  { (if ofCompress stage then s.abandonCompress else s.abandonDecompress) with
    status := statusError e (stageId stage), seq := 0 }

/-! ## Reset -/

/-- The reset input, at any time (70_reset_and_hazards.md R231, R232): the reset state of the same core. Both buffers become
unspecified anew; the host's own actions and the model's counters go on (log 22). -/
def State.applyReset (s : State) : State :=
  { State.resetOf s.cfg with
    txt := s.txt.discard, bin := s.bin.discard, host := s.host, readData := s.readData, freeCount := s.freeCount }

end Sys2Proof.Machine
end

