-- ==== Sys2Proof/Machine/Operands.lean ====
section
/-! DEFINITION. The implicit operands of the commands (30_encoding.md R81) as the stages read them, and the maps they are looked up in. -/

namespace Sys2Proof.Machine

/-- `TXT[i]` (10_state.md R26), at its full width `W_SYM` (47_commands.md R178). -/
def State.txtAt (s : State) (i : Nat) : Symbol := truncate s.cfg.wSym (s.txt.read (Config.freeElement .txt) i)

/-- `BIN[i]` (10_state.md R27). -/
def State.binAt (s : State) (i : Nat) : Byte := s.bin.read (fun epoch k => BitVec.ofNat 8 (Config.freeElement .bin epoch k)) i

/-- The loaded text `TXT[0 .. TXT_LEN-1]` (10_state.md R24). -/
def State.text (s : State) : List Symbol := (List.range s.txtLen).map s.txtAt

/-- The trimmed text `TXT[0 .. WLEN-1]`, on which every stage of `COMPRESS` after `TRIM` works (40_frequency_counter.md R100). -/
def State.trimmedText (s : State) : List Symbol := (List.range s.wlen).map s.txtAt

/-- The loaded stream `BIN[0 .. BIN_LEN-1]` (10_state.md R25). -/
def State.stream (s : State) : List Byte := (List.range s.binLen).map s.binAt

/-- `CODE[s]`, if `s` is in `dom(CODE)` (10_state.md R28). -/
def codeOf (code : CodeTable) (s : Symbol) : Option Bits := code.lookup s

/-- `CODE[s] <- c` (10_state.md R28). -/
def setCode (s : Symbol) (c : Bits) (code : CodeTable) : CodeTable := bindKey s c code

/-- `RCT[c]`, if `c` is in `dom(RCT)`: the inverse of `CODE` (10_state.md R29). -/
def rctLookup (code : CodeTable) (c : Bits) : Option Symbol := (code.find? (fun e => e.2 == c)).map Prod.fst

/-- `NODE[i].weight` (10_state.md R31). -/
def weightAt (node : List Node) (i : Nat) : Nat :=
  match node[i]? with
  | some (.leaf _ w) => w
  | some (.internal w _ _) => w
  | none => 0

/-- `FREQ[s]` (10_state.md R30). -/
def freqAt (freq : List Nat) (s : Symbol) : Nat := freq.getD s 0

end Sys2Proof.Machine
end

