-- ==== Sys2Proof/Machine/BitPacker.lean ====
section
/-! DEFINITION. Stages 5 and 6: `ENCODE` and `PAD` (44_bit_packer.md). -/

namespace Sys2Proof.Machine

/-- The payload of a text: its codes one after the other, or `none` if a symbol has no code (44_bit_packer.md R140). -/
def payload (code : CodeTable) : List Symbol → Option Bits
  | [] => some []
  | t :: ts =>
    match codeOf code t, payload code ts with
    | some c, some rest => some (c ++ rest)
    | _, _ => none

/-- The number of bytes of the stream for a payload of `l` bits: `2 + (L div 8)` (44_bit_packer.md R144, R146). -/
def streamLength (l : Nat) : Nat := 2 + l / 8

/-- Stage `ENCODE` (44_bit_packer.md R140, R145, R146): the symbols are checked first, then the length. -/
def execEncode (s : State) : Outcome :=
  match payload s.code s.trimmedText with
  | none => .next (s.raise .unknownSymbol .encode)
  | some bits =>
    if s.cfg.maxBin < streamLength bits.length then .next (s.raise .capacity .encode)
    else .next ({ s with enc := bits, payloadLen := bits.length, idx := s.wlen }.advance .pad)

/-- `EXTRA = 8 - (L mod 8)` (44_bit_packer.md R141, R142). -/
def paddingCount (l : Nat) : Nat := 8 - l % 8

/-- The padded bit-string: header, payload, zeros (44_bit_packer.md R141, 30_encoding.md R75). -/
def padded (extra : Nat) (enc : Bits) : Bits := bin8 (BitVec.ofNat 8 extra) ++ enc ++ List.replicate extra false

/-- Stage `PAD` (44_bit_packer.md R141). -/
def execPad (s : State) : Outcome :=
  .next ({ s with extra := paddingCount s.payloadLen, pad := padded (paddingCount s.payloadLen) s.enc }.advance .serialize)

end Sys2Proof.Machine
end

