-- ==== Sys2Proof/Machine/ByteSerializer.lean ====
section
/-! DEFINITION. Stages 7 and 8: `SERIALIZE` and `DESERIALIZE` (45_byte_serializer.md). -/

namespace Sys2Proof.Machine

/-- The bytes of the first `n` 8-bit chunks of a bit string (45_byte_serializer.md R150). -/
def toBytes : Nat → Bits → List Byte
  | 0, _ => []
  | n + 1, bits => BitVec.ofNat 8 (bitsVal (bits.take 8)) :: toBytes n (bits.drop 8)

/-- `SERIALIZE` as a function on bit strings (45_byte_serializer.md R150). -/
def serializeBits (bits : Bits) : List Byte := toBytes (bits.length / 8) bits

/-- `DESERIALIZE` as a function on byte lists (45_byte_serializer.md R151). -/
def deserializeBytes (bytes : List Byte) : Bits := bytes.flatMap bin8

/-- Stage `SERIALIZE`, the last of `COMPRESS`: the bytes go to `BIN`, their number to `BIN_LEN`, and the command completes with
success (45_byte_serializer.md R150, 47_commands.md R171). -/
def execSerialize (s : State) : Outcome :=
  .next (({ s with bin := s.bin.fill s.cfg.maxBin (serializeBits s.pad), idx := s.pad.length / 8 }.setBinLen
    (s.pad.length / 8)).succeed)

/-- Stage `DESERIALIZE` (45_byte_serializer.md R151). -/
def execDeserialize (s : State) : Outcome :=
  if s.cfg.maxBin < s.binLen then .next (s.raise .capacity .deserialize)
  else .next ({ s with pad := deserializeBytes s.stream, idx := s.binLen }.advance .unpad)

end Sys2Proof.Machine
end

