-- ==== Sys2Proof/Machine/CodeGenerator.lean ====
section
/-! DEFINITION. Stage 4: `CODE_ASSIGN` (43_code_generator.md). -/

namespace Sys2Proof.Machine

/-- `visit(i, path)` (43_code_generator.md R130): the leaves under node `i` with their paths, left before right. The first argument
bounds the depth; `NODE_CNT` is always enough for a tree (R135). An index that is no node in use gives no leaf (log 15, log 16). -/
def visit (node : List Node) : Nat → Nat → Bits → List (Symbol × Bits)
  | 0, _, _ => []
  | fuel + 1, i, path =>
    match node[i]? with
    | some (.leaf s _) => [(s, path)]
    | some (.internal _ l r) => visit node fuel l (path ++ [false]) ++ visit node fuel r (path ++ [true])
    | none => []

/-- The assignments `CODE_ASSIGN` makes, in order: `DEGEN_CODE` where the root is a leaf, else the paths (43_code_generator.md R130,
R131). -/
def codeAssignments (degenCode : Bits) (node : List Node) (root : Nat) : List (Symbol × Bits) :=
  match node[root]? with
  | some (.leaf s _) => [(s, degenCode)]
  | some (.internal _ _ _) => visit node node.length root []
  | none => []

/-- The CodeTable of a tree, built from the empty table (43_code_generator.md R130, R137). -/
def codeTable (degenCode : Bits) (node : List Node) (root : Nat) : CodeTable :=
  (codeAssignments degenCode node root).foldl (fun code e => setCode e.1 e.2 code) []

/-- Stage `CODE_ASSIGN` (43_code_generator.md R130). The traversal ends with an empty stack (R132). -/
def execCodeAssign (s : State) : Outcome :=
  .next ({ s with code := codeTable s.cfg.degenCode s.node s.root, stack := [] }.advance .encode)

end Sys2Proof.Machine
end

