-- ==== Sys2Proof/Machine/Commands.lean ====
section
/-! DEFINITION. The three commands as `CMD` writes (47_commands.md): each is accepted only while the core is idle. Their stages are
instructions of their own, run one after the other by the stage sequencer. -/

namespace Sys2Proof.Machine

/-- The first line of `COMPRESS`: codec state, queue, counts and bit buffers cleared (47_commands.md R171, 10_state.md R38). -/
def State.clearForCompress (s : State) : State :=
  { s.clearCodec with pq := [], freq := List.replicate s.cfg.nSym 0, enc := [], pad := [] }

/-- `COMPRESS` (47_commands.md R170, R171): accepted, cleared, its first stage `TRIM` next. -/
def execCompress (s : State) : Outcome := .next (s.issue (fun s => s.clearForCompress.start .trim))

/-- `DECOMPRESS` (47_commands.md R170, R172): accepted, its first stage `DESERIALIZE` next. -/
def execDecompress (s : State) : Outcome := .next (s.issue (fun s => s.start .deserialize))

/-- `CLEAR` (47_commands.md R170, R173): it has no stage, so it is accepted and completes at once. -/
def execClear (s : State) : Outcome := .next (s.issue (fun s => s.clearCodec.succeed))

end Sys2Proof.Machine
end

