-- ==== Sys2Proof/Machine/Decoder.lean ====
section
/-! DEFINITION. Stages 9 and 10: `UNPAD` and `DECODE` (46_decoder.md), and the trie walker form of `DECODE`. -/

namespace Sys2Proof.Machine

/-- Stage `UNPAD` (46_decoder.md R160): two checks and no other (R164). -/
def execUnpad (s : State) : Outcome :=
  if s.pad.length < 8 then .next (s.raise .corruptStream .unpad)
  else
    let extra := bitsVal (s.pad.take 8)
    let rem := s.pad.drop 8
    if rem.length < extra then .next (s.raise .corruptStream .unpad)
    else
      .next ({ s with extra := extra, payloadLen := rem.length - extra, enc := rem.take (rem.length - extra) }.advance .decode)

/-- How `DECODE` can end: with the symbols recovered, with a candidate left over, or at a symbol too many (46_decoder.md R161). -/
inductive DecodeResult where
  | text (symbols : List Symbol)
  | corrupt
  | overflow
deriving DecidableEq, Repr

/-- The loop of `DECODE` (46_decoder.md R161): `cand` is the candidate so far, `out` the symbols emitted so far in order. -/
def decodeLoop (code : CodeTable) (maxTxt : Nat) : Bits → (cand : Bits) → (out : List Symbol) → DecodeResult
  | [], cand, out => if cand = [] then .text out else .corrupt
  | b :: bs, cand, out =>
    match rctLookup code (cand ++ [b]) with
    | some s => if out.length = maxTxt then .overflow else decodeLoop code maxTxt bs [] (out ++ [s])
    | none => decodeLoop code maxTxt bs (cand ++ [b]) out

/-- `DECODE` of a payload with a table (46_decoder.md R161). -/
def decodePayload (code : CodeTable) (maxTxt : Nat) (enc : Bits) : DecodeResult := decodeLoop code maxTxt enc [] []

/-- Where the trie walker stands after a payload that ends on a code boundary: on the root of a tree with two or more symbols;
otherwise it was not used (46_decoder.md R162; log 13). -/
def walkerRest (s : State) : Nat :=
  match s.node[s.root]? with
  | some (.internal _ _ _) => s.root
  | _ => s.walker

/-- Stage `DECODE`, the last of `DECOMPRESS`: the symbols go to `TXT`, their number to `TXT_LEN`, and the command completes with
success (46_decoder.md R161, 47_commands.md R172). -/
def execDecode (s : State) : Outcome :=
  match decodePayload s.code s.cfg.maxTxt s.enc with
  | .overflow => .next (s.raise .capacity .decode)
  | .corrupt => .next (s.raise .corruptStream .decode)
  | .text symbols =>
    .next (({ s with
        txt := s.txt.fill s.cfg.maxTxt symbols
        idx := s.enc.length
        cand := []
        walker := walkerRest s
        nOut := symbols.length }.setTxtLen symbols.length).succeed)

/-! ## The trie walker form (46_decoder.md R162): an implementation of `DECODE` that the hardware uses -/

/-- The walk for a tree with two or more symbols: `p` is the node the walker stands on. -/
def walkTree (node : List Node) (root maxTxt : Nat) : Bits → (p : Nat) → (out : List Symbol) → DecodeResult
  | [], p, out => if p = root then .text out else .corrupt
  | b :: bs, p, out =>
    match node[p]? with
    | some (.internal _ l r) =>
      let p' := if b then r else l
      match node[p']? with
      | some (.leaf s _) => if out.length = maxTxt then .overflow else walkTree node root maxTxt bs root (out ++ [s])
      | _ => walkTree node root maxTxt bs p' out
    | _ => walkTree node root maxTxt bs p out

/-- The walk for the one-symbol table, whose code is the bit `degenBit`: once the other bit is met the walker is dead. -/
def walkLeaf (degenBit : Bit) (s : Symbol) (maxTxt : Nat) : Bits → (dead : Bool) → (out : List Symbol) → DecodeResult
  | [], dead, out => if dead then .corrupt else .text out
  | b :: bs, dead, out =>
    if !dead && b == degenBit then
      if out.length = maxTxt then .overflow else walkLeaf degenBit s maxTxt bs dead (out ++ [s])
    else walkLeaf degenBit s maxTxt bs true out

/-- `DECODE` by the retained tree (46_decoder.md R162). -/
def walkPayload (degenBit : Bit) (node : List Node) (root maxTxt : Nat) (enc : Bits) : DecodeResult :=
  if node.length = 0 then (if enc = [] then .text [] else .corrupt)
  else
    match node[root]? with
    | some (.leaf s _) => walkLeaf degenBit s maxTxt enc false []
    | _ => walkTree node root maxTxt enc root []

end Sys2Proof.Machine
end

