-- ==== Sys2Proof/Machine/FrequencyCounter.lean ====
section
/-! DEFINITION. Stages 1 and 2: `TRIM` and `FREQ` (40_frequency_counter.md). -/

namespace Sys2Proof.Machine

/-- The loop of `TRIM`: the length left when trailing whitespace is dropped from the first `n` elements (40_frequency_counter.md R100). -/
def trimmedLength (ws : List Symbol) (element : Nat → Symbol) : Nat → Nat
  | 0 => 0
  | n + 1 => if ws.contains (element n) then trimmedLength ws element n else n + 1

/-- Stage `TRIM` (40_frequency_counter.md R100). -/
def execTrim (s : State) : Outcome :=
  if s.cfg.maxTxt < s.txtLen then .next (s.raise .capacity .trim)
  else .next ({ s with wlen := trimmedLength s.cfg.ws s.txtAt s.txtLen }.advance .freq)

/-- `FREQ[s] <- FREQ[s] + 1` (40_frequency_counter.md R101). -/
def countOne (freq : List Nat) (s : Symbol) : List Nat := freq.set s (freqAt freq s + 1)

/-- The counts of a text: all `n` counters cleared, then one increment per occurrence (40_frequency_counter.md R101). -/
def countSymbols (n : Nat) (text : List Symbol) : List Nat := text.foldl countOne (List.replicate n 0)

/-- Stage `FREQ` (40_frequency_counter.md R101). -/
def execFreq (s : State) : Outcome :=
  .next ({ s with freq := countSymbols s.cfg.nSym s.trimmedText, idx := s.wlen }.advance .treeBuild)

end Sys2Proof.Machine
end

