-- ==== Sys2Proof/Machine/PriorityQueue.lean ====
section
/-! DEFINITION. The priority queue manager (41_priority_queue.md): the order of its members and its two primitives. The queue is a set of
node indices, listed rising. -/

namespace Sys2Proof.Machine

/-- `key(i) < key(j)` for `key(i) = (NODE[i].weight, i)`, lexicographically (41_priority_queue.md R110). -/
def keyLess (node : List Node) (i j : Nat) : Bool :=
  decide (weightAt node i < weightAt node j) || (decide (weightAt node i = weightAt node j) && decide (i < j))

/-- `PQ_INSERT(i)`: `PQ <- PQ ∪ {i}` (41_priority_queue.md R111). -/
def pqInsert (i : Nat) : List Nat → List Nat
  | [] => [i]
  | j :: rest => if i < j then i :: j :: rest else if i = j then j :: rest else j :: pqInsert i rest

/-- The member with the least key, if there is a member (41_priority_queue.md R112). -/
def pqMin (node : List Node) : List Nat → Option Nat
  | [] => none
  | i :: rest =>
    match pqMin node rest with
    | none => some i
    | some j => if keyLess node j i then some j else some i

/-- `PQ_EXTRACT_MIN()`: the member with the least key and the queue without it (41_priority_queue.md R112). -/
def pqExtractMin (node : List Node) (pq : List Nat) : Option (Nat × List Nat) :=
  (pqMin node pq).map (fun m => (m, pq.erase m))

end Sys2Proof.Machine
end

