-- ==== Sys2Proof/Machine/TreeBuilder.lean ====
section
/-! DEFINITION. Stage 3: `TREE_BUILD` (42_tree_builder.md). -/

namespace Sys2Proof.Machine

/-- What `TREE_BUILD` works on: `NODE`, `PQ`, `A`, `B` (42_tree_builder.md R120). -/
structure TreeWork where
  node : List Node
  pq : List Nat
  nodeA : Nat
  nodeB : Nat
deriving DecidableEq, Repr

/-- Write a node at `NODE[NODE_CNT]`, insert its index, count it (42_tree_builder.md R121, R122, R127). -/
def pushNode (n : Node) (t : TreeWork) : TreeWork :=
  { t with node := t.node ++ [n], pq := pqInsert t.node.length t.pq }

/-- The turn of `LEAF_LOAD` for one symbol (42_tree_builder.md R121). -/
def leafLoadOne (freq : List Nat) (t : TreeWork) (s : Symbol) : TreeWork :=
  if 1 ≤ freqAt freq s then pushNode (.leaf s (freqAt freq s)) t else t

/-- `LEAF_LOAD`: every symbol value in the order `LEAF_ORDER`, ascending by decision D7 (42_tree_builder.md R121). -/
def leafLoad (order : List Symbol) (freq : List Nat) (t : TreeWork) : TreeWork := order.foldl (leafLoadOne freq) t

/-- `MERGE_STEP` (42_tree_builder.md R122): the first extracted is left. With fewer than two members, which cannot occur here
(41_priority_queue.md R112), nothing is done (log 16). -/
def mergeStep (t : TreeWork) : TreeWork :=
  match pqExtractMin t.node t.pq with
  | none => t
  | some (a, pq1) =>
    match pqExtractMin t.node pq1 with
    | none => t
    | some (b, pq2) =>
      pushNode (.internal (weightAt t.node a + weightAt t.node b) a b) { t with pq := pq2, nodeA := a, nodeB := b }

/-- The loop `while |PQ| > 1: MERGE_STEP` (42_tree_builder.md R120), which takes `|PQ| - 1` turns (R123). -/
def mergeLoop : Nat → TreeWork → TreeWork
  | 0, t => t
  | fuel + 1, t => if t.pq.length ≤ 1 then t else mergeLoop fuel (mergeStep t)

/-- The loaded leaves of a count, before any merge (42_tree_builder.md R120, R121). -/
def loadedLeaves (order : List Symbol) (freq : List Nat) (a b : Nat) : TreeWork :=
  leafLoad order freq { node := [], pq := [], nodeA := a, nodeB := b }

/-- The work of `TREE_BUILD` after its loop (42_tree_builder.md R120). -/
def builtTree (order : List Symbol) (freq : List Nat) (a b : Nat) : TreeWork :=
  mergeLoop (loadedLeaves order freq a b).pq.length (loadedLeaves order freq a b)

/-- Stage `TREE_BUILD` (42_tree_builder.md R120, R125). -/
def execTreeBuild (s : State) : Outcome :=
  if (loadedLeaves s.cfg.leafOrder s.freq s.nodeA s.nodeB).pq = [] then .next (s.raise .emptyInput .treeBuild)
  else
    let t := builtTree s.cfg.leafOrder s.freq s.nodeA s.nodeB
    .next ({ s with node := t.node, pq := t.pq, nodeA := t.nodeA, nodeB := t.nodeB, root := t.pq.headD 0 }.advance .codeAssign)

end Sys2Proof.Machine
end

