-- ==== Sys2Proof/Machine/Dispatch.lean ====
section
/-! DEFINITION. The meaning of every instruction: one arm per row of spec/opcode_table.json. -/

namespace Sys2Proof.Machine

def exec (i : Instr) (s : State) : Host.Outcome State Fault Refusal :=
  match i with
  | .compress => Sys2Proof.Machine.execCompress s
  | .decompress => Sys2Proof.Machine.execDecompress s
  | .clear => Sys2Proof.Machine.execClear s
  | .trim => Sys2Proof.Machine.execTrim s
  | .freq => Sys2Proof.Machine.execFreq s
  | .treeBuild => Sys2Proof.Machine.execTreeBuild s
  | .codeAssign => Sys2Proof.Machine.execCodeAssign s
  | .encode => Sys2Proof.Machine.execEncode s
  | .pad => Sys2Proof.Machine.execPad s
  | .serialize => Sys2Proof.Machine.execSerialize s
  | .deserialize => Sys2Proof.Machine.execDeserialize s
  | .unpad => Sys2Proof.Machine.execUnpad s
  | .decode => Sys2Proof.Machine.execDecode s

end Sys2Proof.Machine
end

