-- ==== Sys2Proof/Machine/Fetch.lean ====
section
/-! DEFINITION. What a step does before an instruction runs: whose turn it is, the host's accesses (20_memory.md R51), and which
instruction is next, a command from a `CMD` write or the stage in the sequencer. -/

namespace Sys2Proof.Machine

/-- What the next step is: run an instruction on a state, be done with a state, or stop. -/
inductive Fetched where
  | run (i : Instr) (s : State)
  | done (s : State)
  | stuck (id : BitVec 4)
deriving DecidableEq, Repr

/-- The core's turn: the stage in the sequencer, or nothing when no command runs (10_state.md R35). -/
def coreTurn (s : State) : Fetched :=
  if s.seq = 0 then .done s
  else
    match decodeStage s.seq with
    | .ok i => .run i s
    | .error _ => .stuck s.seq

/-- A write to `CMD`: decoded, and rejected if illegal; either way ignored while busy (47_commands.md R170, R174). -/
def writeCmd (v : Nat) (s : State) : Fetched :=
  match decodeCmd (BitVec.ofNat 8 v) with
  | .ok i => .run i s
  | .error _ => .done (s.issue State.rejectCommand)

/-- A host write to `TXT_LEN`, `BIN_LEN` or another register: ignored while busy; `STATUS` is read only and registers 4 and above do
not exist (10_state.md R21, 20_memory.md R51). -/
def writeCsr (n v : Nat) (s : State) : State :=
  if s.busy then s
  else if n = 2 then s.setTxtLen v
  else if n = 3 then s.setBinLen v
  else s

/-- A host write to a buffer: ignored while busy and at or above the capacity (20_memory.md R51). A value wider than an element is cut
to it (log 10). -/
def writeMem (space : Space) (i : Nat) (v : Nat) (s : State) : State :=
  if s.busy then s
  else
    match space with
    | .txt => { s with txt := s.txt.write s.cfg.maxTxt i (truncate s.cfg.wSym v) }
    | .bin => { s with bin := s.bin.write s.cfg.maxBin i (BitVec.ofNat 8 v) }

/-- A read that returns an unspecified value of `w` bits: a free value, a fresh one each time (20_memory.md R51; log 8). -/
def readFree (w : Nat) (s : State) : State :=
  { s with readData := truncate w (Config.freeRead s.freeCount), freeCount := s.freeCount + 1 }

/-- A host read of a control register (10_state.md R21, 20_memory.md R51, R55). -/
def readCsr (n : Nat) (s : State) : State :=
  if n = 1 then { s with readData := s.status.toNat }
  else if n = 2 then (if s.busy then readFree s.cfg.wTLen s else { s with readData := s.txtLen })
  else if n = 3 then (if s.busy then readFree s.cfg.wBLen s else { s with readData := s.binLen })
  else { s with readData := 0 }

/-- The element at index `i` of a buffer, as a number. -/
def elementAt (space : Space) (i : Nat) (s : State) : Nat :=
  match space with
  | .txt => s.txtAt i
  | .bin => (s.binAt i).toNat

/-- A host read of a buffer element: unspecified while busy and at or above the capacity (20_memory.md R51). -/
def readMem (space : Space) (i : Nat) (s : State) : State :=
  if s.busy || decide (s.cfg.capacity space ≤ i) then readFree (s.cfg.elementWidth space) s
  else { s with readData := elementAt space i s }

/-- One host action, taken off the list; `s` is the state without it. -/
def hostTurn (a : HostAction) (s : State) : Fetched :=
  match a with
  | .csrRead n => .done (readCsr n s)
  | .csrWrite 0 v => writeCmd v s
  | .csrWrite n v => .done (writeCsr n v s)
  | .memRead space i => .done (readMem space i s)
  | .memWrite space i v => .done (writeMem space i v s)
  | .pollDone => .done (readCsr 1 s)
  | .idle => coreTurn s
  | .reset => .done s.applyReset

/-- The next thing the machine does. Without a pending host action it is the core's turn. While the host polls and `DONE` is not set,
the core runs and the host goes on polling (30_encoding.md R84; log 23). -/
def fetch (s : State) : Fetched :=
  match s.host with
  | [] => coreTurn s
  | .pollDone :: rest => if s.done then hostTurn .pollDone { s with host := rest } else coreTurn s
  | a :: rest => hostTurn a { s with host := rest }

/-- `s` with a `CMD` write of `v` as the next action of an idle core (log 21). -/
def placeCommand (v : BitVec 8) (s : State) : State :=
  { s with host := .csrWrite 0 v.toNat :: s.host, status := if s.busy then 0 else s.status, seq := if s.busy then 0 else s.seq }

/-- `s` with stage `id` running and the turn with the core (log 21). -/
def placeStage (id : BitVec 4) (s : State) : State :=
  { s with host := .idle :: s.host, status := statusRunning, seq := id }

end Sys2Proof.Machine
end

