-- ==== Sys2Proof/Machine/Step.lean ====
section
/-! DEFINITION. One step of the machine: a host action, or one stage of the running command. -/

namespace Sys2Proof.Machine

/-- One step: what `fetch` says is next. -/
def step (s : State) : Host.Outcome State Fault Refusal :=
  match fetch s with
  | .run i s' => exec i s'
  | .done s' => .next s'
  | .stuck id => .fault (.illegalStage id)

/-- `s` with the instruction of these bits where the next step takes its instruction from: a command as the host's next `CMD` write,
a stage in the sequencer. -/
def State.withFetchWord (s : State) (nbits w : Nat) : State :=
  match tableWord nbits w with
  | .cmd8 v => placeCommand v s
  | .stage4 id => placeStage id s

end Sys2Proof.Machine
end

