-- ==== Sys2Proof/Machine/CodecFunctions.lean ====
section
/-! DEFINITION. The two commands as functions on texts and byte lists (47_commands.md R184), without capacity checks. -/

namespace Sys2Proof.Machine

/-- `trim(T)`: the longest prefix of `T` that is empty or ends in a symbol not in `WS` (40_frequency_counter.md R100). -/
def trimText (ws : List Symbol) (text : List Symbol) : List Symbol := (text.reverse.dropWhile ws.contains).reverse

/-- The CodeTable `COMPRESS` builds for a trimmed text (47_commands.md R184). -/
def codeTableOf (c : Config) (text : List Symbol) : CodeTable :=
  let t := builtTree c.leafOrder (countSymbols c.nSym text) 0 0
  codeTable c.degenCode t.node (t.pq.headD 0)

/-- `compress_fn(T)` (47_commands.md R184). -/
def compressFn (c : Config) (text : List Symbol) : Except ErrorKind (List Byte × CodeTable) :=
  if trimText c.ws text = [] then .error .emptyInput
  else
    match payload (codeTableOf c (trimText c.ws text)) (trimText c.ws text) with
    | none => .error .unknownSymbol
    | some e => .ok (serializeBits (padded (paddingCount e.length) e), codeTableOf c (trimText c.ws text))

/-- `DECODE` of a payload without a capacity (46_decoder.md R161, 47_commands.md R184). -/
def recoverSymbols (code : CodeTable) : Bits → (cand : Bits) → (out : List Symbol) → Option (List Symbol)
  | [], cand, out => if cand = [] then some out else none
  | b :: bs, cand, out =>
    match rctLookup code (cand ++ [b]) with
    | some s => recoverSymbols code bs [] (out ++ [s])
    | none => recoverSymbols code bs (cand ++ [b]) out

/-- `decompress_fn(B, C)` (47_commands.md R184). -/
def decompressFn (bytes : List Byte) (code : CodeTable) : Except ErrorKind (List Symbol) :=
  let p := deserializeBytes bytes
  if p.length < 8 then .error .corruptStream
  else
    let x := bitsVal (p.take 8)
    let r := p.drop 8
    if r.length < x then .error .corruptStream
    else
      match recoverSymbols code (r.take (r.length - x)) [] [] with
      | some text => .ok text
      | none => .error .corruptStream

end Sys2Proof.Machine
end

