-- ==== Sys2Proof/WellFormed.lean ====
section
/-! DEFINITION. The checks on configurations, instruction words, host actions and `STATUS` words. -/

namespace Sys2Proof

/-- The constraints of 00_scope.md R6: `W_SYM >= 1`, `MAX_TXT >= 1`, `MAX_BIN >= 2`, `WS` a set of symbol values; and `LEAF_ORDER` names
every symbol value once (42_tree_builder.md R121). -/
def Config.wellFormed (c : Config) : Bool :=
  decide (1 ≤ c.wSym) && decide (1 ≤ c.maxTxt) && decide (2 ≤ c.maxBin) && c.ws.all (fun x => decide (x < c.nSym)) &&
    c.leafOrder.isPerm (List.range c.nSym)

/-- An instruction has no operand field that could hold a bad value (30_encoding.md R81, R83), so each is well formed. -/
def Instr.wellFormed : Instr → Bool
  | .compress | .decompress | .clear => true
  | .trim | .freq | .treeBuild | .codeAssign | .encode | .pad | .serialize => true
  | .deserialize | .unpad | .decode => true

/-- A word of either format that names an instruction: opcodes 1 to 3 (30_encoding.md R72), stage ids 1 to 10 (R73). -/
def CodeWord.wellFormed : CodeWord → Bool
  | .cmd8 v => decide (1 ≤ v.toNat) && decide (v.toNat ≤ 3)
  | .stage4 k => decide (1 ≤ k.toNat) && decide (k.toNat ≤ 10)

/-- The combinations of `STATUS` that 10_state.md R23 calls legal, with the error codes of 60_exceptions.md R207 and the stages that
60_exceptions.md R200 gives each error. -/
def statusLegal (w : BitVec 16) : Bool :=
  [0x0000, 0x0001, 0x0002, 0x0066, 0x0156, 0x0316, 0x0526, 0x0556, 0x0856, 0x0936, 0x0A36, 0x0A56].contains w

namespace Machine

/-- A host write carries a value of the width of what is written: 8 for `CMD`, `W_TLEN` and `W_BLEN` for the lengths
(10_state.md R21), an element's width for a buffer. An index may be out of range (20_memory.md R51). -/
def HostAction.wellFormed (c : Config) : HostAction → Bool
  | .csrWrite 0 v => decide (v < 2 ^ 8)
  | .csrWrite 2 v => decide (v < 2 ^ c.wTLen)
  | .csrWrite 3 v => decide (v < 2 ^ c.wBLen)
  | .csrWrite _ _ => true
  | .csrRead _ => true
  | .memRead _ _ => true
  | .memWrite space _ v => decide (v < 2 ^ c.elementWidth space)
  | .pollDone => true
  | .idle => true
  | .reset => true

end Machine
end Sys2Proof
end

