-- ==== Sys2Proof/Safety.lean ====
section
/-! DEFINITION. The terms claims are stated in: trees and tables apart from how the core computes them, and the invariants of the state. -/

namespace Sys2Proof.Machine

/-! ## Trees -/

/-- A Huffman tree as a tree: leaves carry a symbol and its weight (00_scope.md R11, 10_state.md R31). -/
inductive HuffTree where
  | leaf (sym : Symbol) (weight : Nat)
  | fork (left right : HuffTree)
deriving DecidableEq, Repr

/-- The weight of a tree: an internal node's weight is the sum of its children's (10_state.md R31). -/
def HuffTree.weight : HuffTree → Nat
  | .leaf _ w => w
  | .fork l r => l.weight + r.weight

/-- The leaves from left to right, each with its symbol and weight. -/
def HuffTree.leaves : HuffTree → List (Symbol × Nat)
  | .leaf s w => [(s, w)]
  | .fork l r => l.leaves ++ r.leaves

/-- The symbols from left to right. -/
def HuffTree.symbols (t : HuffTree) : List Symbol := t.leaves.map Prod.fst

/-- The leaves' paths: 0 on a left descent, 1 on a right descent (43_code_generator.md R130). -/
def HuffTree.paths : HuffTree → List (Symbol × Bits)
  | .leaf s _ => [(s, [])]
  | .fork l r =>
    l.paths.map (fun e => (e.1, false :: e.2)) ++ r.paths.map (fun e => (e.1, true :: e.2))

/-- The longest path of a tree (42_tree_builder.md R126). -/
def HuffTree.depth : HuffTree → Nat
  | .leaf _ _ => 0
  | .fork l r => max l.depth r.depth + 1

/-- Node memory holds the tree `t` at index `i`, with the weights of 10_state.md R31. -/
def Spells (node : List Node) : Nat → HuffTree → Prop
  | i, .leaf s w => node[i]? = some (.leaf s w)
  | i, .fork l r =>
    ∃ a b, node[i]? = some (.internal (l.weight + r.weight) a b) ∧ Spells node a l ∧ Spells node b r

/-- The indices met on a walk of the nodes under `i`, a parent before its children; the first argument bounds the depth. -/
def reached (node : List Node) : Nat → Nat → List Nat
  | 0, _ => []
  | fuel + 1, i =>
    match node[i]? with
    | some (.leaf _ _) => [i]
    | some (.internal _ l r) => i :: (reached node fuel l ++ reached node fuel r)
    | none => []

/-- Node memory is one Huffman tree: `ROOT` spells a tree whose symbols are distinct, `NODE_CNT = 2n - 1`, and the walk from `ROOT` meets
every node exactly once (42_tree_builder.md R123, R126). -/
def IsTree (node : List Node) (root : Nat) (t : HuffTree) : Prop :=
  Spells node root t ∧ t.symbols.Nodup ∧ node.length + 1 = 2 * t.symbols.length ∧
    (reached node node.length root).Perm (List.range node.length)

/-- Where a bit string leads from node `i`, 0 to the left child and 1 to the right, through internal nodes only
(43_code_generator.md R136). -/
def descend (node : List Node) : Nat → Bits → Option Nat
  | i, [] => some i
  | i, b :: bs =>
    match node[i]? with
    | some (.internal _ l r) => descend node (if b then r else l) bs
    | _ => none

/-! ## Tables -/

/-- The symbols with a nonzero count, in the order their leaves are made (42_tree_builder.md R121). -/
def present (order : List Symbol) (freq : List Nat) : List Symbol := order.filter (fun s => decide (1 ≤ freqAt freq s))

/-- No code is a prefix of another symbol's code (43_code_generator.md R134). -/
def PrefixFree (code : CodeTable) : Prop :=
  ∀ a b c d, codeOf code a = some c → codeOf code b = some d → a ≠ b → ¬ c <+: d

/-- `cs` is read off a payload code by code: each is a code word, and nothing shorter at its place is (46_decoder.md R161). -/
def Recovers (code : CodeTable) (cs : List Bits) (symbols : List Symbol) : Prop :=
  List.Forall₂
    (fun c s => rctLookup code c = some s ∧ ∀ p, p ≠ [] → p <+: c → p ≠ c → rctLookup code p = none) cs symbols

/-- More than `maxTxt` code words can be read off the payload, one after the other from its start, whatever follows them
(46_decoder.md R166, 60_exceptions.md R210). -/
def TooManySymbols (code : CodeTable) (maxTxt : Nat) (enc : Bits) : Prop :=
  ∃ cs symbols rest, Recovers code cs symbols ∧ (∀ c ∈ cs, c ≠ []) ∧ enc = cs.flatten ++ rest ∧ symbols.length = maxTxt + 1

/-- The state after `COMPRESS` raised an error with this `STATUS` (60_exceptions.md R208); scratch is left alone (log 14). -/
def compressFailed (status : BitVec 16) (s : State) : State :=
  { s with binLen := 0, bin := s.bin.discard, code := [], node := [], status := status, seq := 0 }

/-- The state after `DECOMPRESS` raised an error with this `STATUS` (60_exceptions.md R208); scratch is left alone (log 14). -/
def decompressFailed (status : BitVec 16) (s : State) : State :=
  { s with txtLen := 0, txt := s.txt.discard, status := status, seq := 0 }

/-! ## Invariants -/

/-- A node record fits its fields: `sym` has `W_SYM` bits, `weight` `W_CNT`, `left` and `right` `W_NODE` (10_state.md R31). -/
def Node.fits (c : Config) : Node → Prop
  | .leaf s w => s < c.nSym ∧ w < 2 ^ c.wCnt
  | .internal w l r => w < 2 ^ c.wCnt ∧ l < 2 ^ c.wNode ∧ r < 2 ^ c.wNode

/-- Every table and working register is within its width and its capacity, so nothing overflows (10_state.md R28 to R34, 47_commands.md
R177; log 18). -/
structure Widths (s : State) : Prop where
  code_sym : ∀ e ∈ s.code, e.1 < s.cfg.nSym
  node_fits : ∀ n ∈ s.node, n.fits s.cfg
  node_cnt : s.node.length ≤ s.cfg.maxNode
  root_lt : s.root < 2 ^ s.cfg.wNode
  freq_len : s.freq.length = s.cfg.nSym
  freq_sum : s.freq.sum < 2 ^ s.cfg.wCnt
  pq_len : s.pq.length ≤ s.cfg.nSym
  pq_lt : ∀ i ∈ s.pq, i < 2 ^ s.cfg.wNode
  enc_len : s.enc.length ≤ 8 * s.cfg.maxBin
  pad_len : s.pad.length ≤ 8 * s.cfg.maxBin
  wlen_lt : s.wlen < 2 ^ s.cfg.wTLen
  idx_lt : s.idx < 2 ^ max s.cfg.wTLen (s.cfg.wBLen + 3)
  nodeA_lt : s.nodeA < 2 ^ s.cfg.wNode
  nodeB_lt : s.nodeB < 2 ^ s.cfg.wNode
  payloadLen_lt : s.payloadLen < 2 ^ (s.cfg.wBLen + 3)
  extra_lt : s.extra < 2 ^ 8
  cand_len : s.cand.length ≤ 8 * s.cfg.maxBin
  walker_lt : s.walker < 2 ^ s.cfg.wNode
  nOut_lt : s.nOut < 2 ^ s.cfg.wTLen
  stack_len : s.stack.length ≤ s.cfg.nSym

/-- The registers and buffers are as their widths and capacities say, `STATUS` is a legal combination, `BUSY` is 1 exactly while the
sequencer holds a stage, and what `PAD` is about to pad fits `BIN` (10_state.md R21 to R36, 44_bit_packer.md R146). -/
structure StructInv (s : State) : Prop where
  cfg_ok : s.cfg.wellFormed = true
  txt_wf : s.txt.wf s.cfg.maxTxt = true
  txt_fits : ∀ e ∈ s.txt.cells, e.2 < s.cfg.nSym
  bin_wf : s.bin.wf s.cfg.maxBin = true
  txtLen_lt : s.txtLen < 2 ^ s.cfg.wTLen
  binLen_lt : s.binLen < 2 ^ s.cfg.wBLen
  status_legal : statusLegal s.status = true
  busy_iff : s.busy = true ↔ s.seq ≠ 0
  seq_le : s.seq.toNat ≤ 10
  encoded : s.seq = 6 → s.payloadLen = s.enc.length ∧ streamLength s.payloadLen ≤ s.cfg.maxBin
  widths : Widths s

/-- The codec state is empty, or it is the table of one Huffman tree beside that tree (10_state.md R28, R40, R41). -/
def CodecKept (s : State) : Prop :=
  (s.code = [] ∧ s.node = []) ∨
    (∃ t, IsTree s.node s.root t ∧ s.code = codeTable s.cfg.degenCode s.node s.root)

/-- `TRIM` has run: the trimmed text lies within the loaded text and the loaded text within the buffer. -/
def Trimmed (s : State) : Prop :=
  s.txtLen ≤ s.cfg.maxTxt ∧ s.wlen = trimmedLength s.cfg.ws s.txtAt s.txtLen

/-- `CODE_ASSIGN` has run: the codec state is the tree and table of the trimmed text. -/
def Assigned (s : State) : Prop :=
  Trimmed s ∧ s.trimmedText ≠ [] ∧ s.code = codeTable s.cfg.degenCode s.node s.root ∧
    ∃ t, IsTree s.node s.root t ∧ ∀ x, x ∈ t.symbols ↔ x ∈ s.trimmedText

/-- `ENCODE` has run: the payload of the trimmed text is in `ENC` and its stream fits `BIN`. -/
def Encoded (s : State) : Prop :=
  Assigned s ∧ payload s.code s.trimmedText = some s.enc ∧ s.payloadLen = s.enc.length ∧
    streamLength s.payloadLen ≤ s.cfg.maxBin

/-- What holds of the codec state and of the scratch a later stage reads, by the stage that is next (10_state.md R38, R40). -/
def CodecInv (s : State) : Prop :=
  (s.seq = 0 → CodecKept s) ∧
  (s.seq = 1 → s.code = [] ∧ s.node = []) ∧
  (s.seq = 2 → s.code = [] ∧ s.node = [] ∧ Trimmed s) ∧
  (s.seq = 3 → s.code = [] ∧ s.node = [] ∧ Trimmed s ∧ s.freq = countSymbols s.cfg.nSym s.trimmedText) ∧
  (s.seq = 4 → s.code = [] ∧ Trimmed s ∧ s.trimmedText ≠ [] ∧
    ∃ t, IsTree s.node s.root t ∧ ∀ x, x ∈ t.symbols ↔ x ∈ s.trimmedText) ∧
  (s.seq = 5 → Assigned s) ∧
  (s.seq = 6 → Encoded s) ∧
  (s.seq = 7 → Encoded s ∧ s.pad = padded (paddingCount s.payloadLen) s.enc) ∧
  (8 ≤ s.seq.toNat → CodecKept s)

/-- What the spec lets a program rely on between commands (10_state.md R40). -/
structure BetweenCommands (s : State) : Prop where
  kept : CodecKept s
  prefix_free : PrefixFree s.code
  code_len : ∀ a c, codeOf s.code a = some c → 1 ≤ c.length ∧ c.length ≤ s.cfg.maxCodeLen
  rct_inverse : ∀ a c, rctLookup s.code c = some a ↔ codeOf s.code a = some c
  node_cnt : s.code ≠ [] → s.node.length + 1 = 2 * s.code.length ∧ s.root < s.node.length
  status_legal : statusLegal s.status = true

/-- The state with the buffers loaded by the host and a list of actions to come. -/
def State.doing (s : State) (actions : List HostAction) : State := { s with host := actions }

/-- `k` steps, up to the first that stops: `Host.Core.run` of this machine. -/
def steps : Nat → State → Outcome
  | 0, s => .next s
  | k + 1, s =>
    match step s with
    | .next t => steps k t
    | .fault f => .fault f
    | .refused r => .refused r

end Sys2Proof.Machine
end

