-- ==== Sys2Proof/Certificates/Slice0/Obligations.lean ====
section
/-! DEFINITION. The statements about the model, for the provers. A result is an equation of the next state, so it states the frame of the
instruction too: every field the right-hand side does not name is unchanged. Values the spec leaves open or does not give (what `I`, `P`
and the traversal stack are left at, log 13) are bound by "there is". -/

open Sys2Proof Sys2Proof.Machine

/-! ## Encoding -/

/-- The words of 30_encoding.md R71 and R73, written out. -/
def Obligations.SpecWordsDecode : Prop :=
  decodeCmd 0b00000001 = .ok .compress ∧ decodeCmd 0b00000010 = .ok .decompress ∧ decodeCmd 0b00000011 = .ok .clear ∧
    decodeStage 0b0001 = .ok .trim ∧ decodeStage 0b0010 = .ok .freq ∧ decodeStage 0b0011 = .ok .treeBuild ∧
    decodeStage 0b0100 = .ok .codeAssign ∧ decodeStage 0b0101 = .ok .encode ∧ decodeStage 0b0110 = .ok .pad ∧
    decodeStage 0b0111 = .ok .serialize ∧ decodeStage 0b1000 = .ok .deserialize ∧ decodeStage 0b1001 = .ok .unpad ∧
    decodeStage 0b1010 = .ok .decode

/-- Decode and encode agree, both ways. -/
def Obligations.DecodeEncodeAgree : Prop :=
  (∀ i : Instr, i.wellFormed = true → decode (encode i) = .ok i) ∧
    ∀ (w : CodeWord) (i : Instr), decode w = .ok i → encode i = w

/-- The decoder accepts exactly opcodes 1 to 3 and stage ids 1 to 10, and names the word it refuses. -/
def Obligations.IllegalWordsRefusedByName : Prop :=
  (∀ w : CodeWord, w.wellFormed = true ↔ ∃ i, decode w = .ok i) ∧
    (∀ v : BitVec 8, (CodeWord.cmd8 v).wellFormed = false → decodeCmd v = .error (.illegalOpcode v)) ∧
    ∀ k : BitVec 4, (CodeWord.stage4 k).wellFormed = false → decodeStage k = .error (.illegalStage k)

/-! ## Steps -/

/-- A `CMD` write whose word decodes to `i` runs `i` on the state without the write.
That a command is accepted in one step and each stage runs in a later one is the model's choice (log 4, log 5), and so is that a write of
256 or more, which no `CMD` register of 8 bits holds, counts by its low 8 bits (log 10). -/
def Obligations.StepRunsWrittenCommand : Prop :=
  ∀ (s : State) (rest : List HostAction) (v : Nat) (i : Instr), s.host = .csrWrite 0 v :: rest →
    decodeCmd (BitVec.ofNat 8 v) = .ok i → step s = exec i { s with host := rest }

/-- The core's turn runs the stage the sequencer holds: with no host action pending, while the host lets a step pass, while it polls.
That a stage is one step is the model's choice (log 4), as is the list of host actions (log 5, log 23). -/
def Obligations.StepRunsSequencedStage : Prop :=
  ∀ (s : State) (i : Instr), decodeStage s.seq = .ok i →
    (s.host = [] → step s = exec i s) ∧
    (∀ rest, s.host = .idle :: rest → step s = exec i { s with host := rest }) ∧
    (∀ rest, s.host = .pollDone :: rest → s.done = false → step s = exec i s)

/-- With no command running the core's turn changes nothing.
The list of host actions and the poll are the model's (log 5, log 23). -/
def Obligations.IdleCoreWaits : Prop :=
  ∀ s : State, s.seq = 0 →
    (s.host = [] → step s = .next s) ∧
    (∀ rest, s.host = .idle :: rest → step s = .next { s with host := rest }) ∧
    (∀ rest, s.host = .pollDone :: rest → s.done = false → step s = .next s) ∧
    (∀ rest, s.host = .pollDone :: rest → s.done = true →
      step s = .next { s with host := rest, readData := s.status.toNat })

/-- A step never refuses, and stops only on a sequencer value no rule produces.
The stop is the model's choice (log 17): the spec says that no rule produces those values. -/
def Obligations.StepStopsOnlyOnStageNeverProduced : Prop :=
  (∀ s : State, s.seq.toNat ≤ 10 → ∃ t, step s = .next t) ∧
    (∀ s : State, 11 ≤ s.seq.toNat → s.host = [] → step s = .fault (.illegalStage s.seq)) ∧
    ∀ (s : State) (r : Refusal), step s ≠ .refused r

/-! ## Commands -/

/-- While `BUSY = 1` a `CMD` write, legal or not, changes nothing. -/
def Obligations.BusyCommandWriteIgnored : Prop :=
  ∀ s : State, s.busy = true →
    (∀ i, i.isCommand = true → exec i s = .next s) ∧
    ∀ rest v, s.host = .csrWrite 0 v :: rest → step s = .next { s with host := rest }

/-- `COMPRESS` on an idle core is accepted, clears the codec state and the scratch its first line names, and has stage `TRIM` next;
`DECOMPRESS` is accepted and has stage `DESERIALIZE` next.
That the meaning of the two is their acceptance alone is the model's choice (log 4); that exactly these fields are cleared, and none by
`DECOMPRESS`, is read from the spec by inference (log 11). -/
def Obligations.CommandsAcceptedWhenIdle : Prop :=
  ∀ s : State, s.busy = false →
    exec .compress s = .next { s with
      status := 0x0001, seq := 1, code := [], node := [], pq := [], freq := List.replicate (2 ^ s.cfg.wSym) 0, enc := [], pad := [] } ∧
    exec .decompress s = .next { s with status := 0x0001, seq := 8 }

/-- `CLEAR` on an idle core: the codec state is empty and the command has completed. -/
def Obligations.ClearEmptiesCodecState : Prop :=
  ∀ s : State, s.busy = false → exec .clear s = .next { s with code := [], node := [], status := 0x0002, seq := 0 }

/-- An accepted `CMD` write of any other value reports `IllegalCommand` and changes nothing else. -/
def Obligations.IllegalCommandChangesStatusOnly : Prop :=
  ∀ (s : State) (rest : List HostAction) (v : Nat), s.host = .csrWrite 0 v :: rest → s.busy = false →
    v < 2 ^ 8 → v ≠ 1 → v ≠ 2 → v ≠ 3 → step s = .next { s with host := rest, status := 0x0066 }

/-! ## Stages 1 and 2 -/

/-- `TRIM`: `WLEN` is the length of the longest prefix of the text that is empty or ends in a symbol not in `WS`; a text longer than the
buffer raises `CapacityError`.
What an error leaves in scratch is the model's choice here and in every statement about one (log 14). -/
def Obligations.TrimFindsTrimmedLength : Prop :=
  ∀ s : State,
    (s.txtLen ≤ s.cfg.maxTxt →
      ∃ w, exec .trim s = .next { s with wlen := w, seq := 2 } ∧ w ≤ s.txtLen ∧
        (w = 0 ∨ s.cfg.ws.contains (s.txtAt (w - 1)) = false) ∧
        (∀ i, w ≤ i → i < s.txtLen → s.cfg.ws.contains (s.txtAt i) = true) ∧
        ({ s with wlen := w } : State).trimmedText = trimText s.cfg.ws s.text) ∧
    (s.cfg.maxTxt < s.txtLen → exec .trim s = .next (compressFailed 0x0156 s))

/-- `FREQ`: `FREQ[s]` is the number of occurrences of `s` in the trimmed text, at most `WLEN`, for each of the `NSYM` symbol values. -/
def Obligations.FreqCountsOccurrences : Prop :=
  ∀ s : State, ∃ f i, exec .freq s = .next { s with freq := f, idx := i, seq := 3 } ∧ f.length = s.cfg.nSym ∧
    ∀ x : Symbol, freqAt f x = s.trimmedText.count x ∧ freqAt f x ≤ s.wlen

/-- After `FREQ` the counts add up to `WLEN`, and the nonzero ones are those of the symbols that occur. -/
def Obligations.CountsSumToTrimmedLength : Prop :=
  ∀ s t : State, exec .freq s = .next t →
    t.freq.sum = s.wlen ∧ ∀ x : Symbol, 1 ≤ freqAt t.freq x ↔ x ∈ s.trimmedText

/-! ## The queue and stage 3 -/

/-- The order of the queue is by weight and then by index, and total, so a queue that is not empty has one least member. -/
def Obligations.QueueOrderIsWeightThenIndex : Prop :=
  ∀ node : List Node,
    (∀ i j, keyLess node i j = true ↔ weightAt node i < weightAt node j ∨ (weightAt node i = weightAt node j ∧ i < j)) ∧
    (∀ i j, i ≠ j → keyLess node i j = !keyLess node j i) ∧
    ∀ pq : List Nat, pq ≠ [] → ∃! m, m ∈ pq ∧ ∀ j ∈ pq, j ≠ m → keyLess node m j = true

/-- `PQ_INSERT` puts an index into the set; `PQ_EXTRACT_MIN` returns the member with the least key and leaves the others.
That the set is held as a rising listing, and stays as it is where the index is already in it, a case to which the spec gives no meaning,
is the model's choice (log 26). -/
def Obligations.QueuePrimitives : Prop :=
  (∀ (i : Nat) (pq : List Nat), (∀ j, j ∈ pqInsert i pq ↔ j = i ∨ j ∈ pq) ∧
    (pq.Pairwise (· < ·) → (pqInsert i pq).Pairwise (· < ·))) ∧
  ∀ (node : List Node) (pq : List Nat), pq ≠ [] → pq.Nodup →
    ∃ m rest, pqExtractMin node pq = some (m, rest) ∧ m ∈ pq ∧ (∀ j ∈ pq, j ≠ m → keyLess node m j = true) ∧
      ∀ j, j ∈ rest ↔ j ∈ pq ∧ j ≠ m

/-- `LEAF_LOAD`: one leaf per symbol with a nonzero count, each inserted as it is made, in the order `LEAF_ORDER`; that order is ascending
symbol value by the spec's decision, and then the symbols loaded rise. -/
def Obligations.LeavesLoadedInSymbolOrder : Prop :=
  (∀ (c : Config) (f : List Nat) (a b : Nat), c.wellFormed = true →
    (present c.leafOrder f).Sublist c.leafOrder ∧ (present c.leafOrder f).Nodup ∧
    (∀ x, x ∈ present c.leafOrder f ↔ x < c.nSym ∧ 1 ≤ freqAt f x) ∧
    (loadedLeaves c.leafOrder f a b).node = (present c.leafOrder f).map (fun x => .leaf x (freqAt f x)) ∧
    (loadedLeaves c.leafOrder f a b).pq = List.range (present c.leafOrder f).length) ∧
  (∀ (c : Config) (f : List Nat), c.leafOrder = Config.ascending c.wSym → (present c.leafOrder f).Pairwise (· < ·)) ∧
  Config.chosen.leafOrder = Config.ascending Config.chosen.wSym

/-- `MERGE_STEP`: the two least members become the children, first extracted left, of a new node at index `NODE_CNT`. -/
def Obligations.MergeJoinsTwoLeast : Prop :=
  ∀ t : TreeWork, t.pq.Pairwise (· < ·) → (∀ i ∈ t.pq, i < t.node.length) → 2 ≤ t.pq.length →
    ∃ a b, a ∈ t.pq ∧ b ∈ t.pq ∧ keyLess t.node a b = true ∧
      (∀ j ∈ t.pq, j ≠ a → j ≠ b → keyLess t.node b j = true) ∧
      mergeStep t =
        { node := t.node ++ [.internal (weightAt t.node a + weightAt t.node b) a b]
          pq := ((t.pq.erase a).erase b) ++ [t.node.length], nodeA := a, nodeB := b }

/-- `TREE_BUILD` with no nonzero count raises `EmptyInputError`; after `FREQ` there is no nonzero count exactly when `WLEN = 0`.
The scratch left alone is the model's choice (log 14). -/
def Obligations.NoSymbolRaisesEmptyInput : Prop :=
  (∀ s : State, (∀ x, freqAt s.freq x = 0) → exec .treeBuild s = .next (compressFailed 0x0316 s)) ∧
    ∀ s t : State, exec .freq s = .next t → ((∀ x, freqAt t.freq x = 0) ↔ t.wlen = 0)

/-- `TREE_BUILD` on `n >= 1` distinct symbols leaves what `n - 1` merge steps make of the loaded leaves: `NODE_CNT = 2n - 1`, `ROOT` the
last node, the queue holding `ROOT` alone. -/
def Obligations.TreeBuildCountsNodes : Prop :=
  ∀ s : State, s.cfg.wellFormed = true → present s.cfg.leafOrder s.freq ≠ [] →
    ∃ n w root, n = (present s.cfg.leafOrder s.freq).length ∧ w = mergeStep^[n - 1] (loadedLeaves s.cfg.leafOrder s.freq s.nodeA s.nodeB) ∧
      root = (if n = 1 then 0 else 2 * n - 2) ∧
      exec .treeBuild s =
        .next { s with node := w.node, pq := [root], nodeA := w.nodeA, nodeB := w.nodeB, root := root, seq := 4 } ∧
      w.pq = [root] ∧ w.node.length = 2 * n - 1 ∧ w.node.length ≤ s.cfg.maxNode

/-- What `TREE_BUILD` leaves is a Huffman tree of the counts: one leaf per symbol with a nonzero count, weights as they should be, the
root's the number of symbols counted; its nodes are the leaves and then those of the merge steps, each of which joins the two least. -/
def Obligations.TreeBuildMakesHuffmanTree : Prop :=
  ∀ s t : State, s.cfg.wellFormed = true → present s.cfg.leafOrder s.freq ≠ [] → exec .treeBuild s = .next t →
    (∃ h : HuffTree, IsTree t.node t.root h ∧
      (h.leaves).Perm ((present s.cfg.leafOrder s.freq).map (fun x => (x, freqAt s.freq x))) ∧
      h.weight = ((present s.cfg.leafOrder s.freq).map (freqAt s.freq)).sum ∧
      (s.freq = countSymbols s.cfg.nSym s.trimmedText → h.weight = s.wlen) ∧
      h.depth ≤ (present s.cfg.leafOrder s.freq).length - 1) ∧
    (∀ i, i < t.node.length → 1 ≤ weightAt t.node i) ∧
    t.node = (mergeStep^[(present s.cfg.leafOrder s.freq).length - 1] (loadedLeaves s.cfg.leafOrder s.freq s.nodeA s.nodeB)).node ∧
    ∀ k, k < (present s.cfg.leafOrder s.freq).length - 1 → ∀ w,
      w = mergeStep^[k] (loadedLeaves s.cfg.leafOrder s.freq s.nodeA s.nodeB) →
      ∃ a b, a ∈ w.pq ∧ b ∈ w.pq ∧ keyLess w.node a b = true ∧ (∀ j ∈ w.pq, j ≠ a → j ≠ b → keyLess w.node b j = true) ∧
        t.node[(present s.cfg.leafOrder s.freq).length + k]? = some (.internal (weightAt w.node a + weightAt w.node b) a b)

/-- A text of one repeated symbol: a single leaf of weight `WLEN`, no internal node, no error. -/
def Obligations.OneSymbolTreeIsOneLeaf : Prop :=
  ∀ (s : State) (x : Symbol), s.cfg.wellFormed = true → s.freq = countSymbols s.cfg.nSym s.trimmedText → s.trimmedText ≠ [] →
    (∀ y ∈ s.trimmedText, y = x) →
    exec .treeBuild s = .next { s with node := [.leaf x s.wlen], pq := [0], root := 0, seq := 4 }

/-! ## Stage 4 -/

/-- `CODE_ASSIGN` writes the path of every leaf as its symbol's code, and no other entry. -/
def Obligations.CodeAssignRecordsLeafPaths : Prop :=
  ∀ (s : State) (l r : HuffTree), IsTree s.node s.root (.fork l r) →
    ∃ code stack, exec .codeAssign s = .next { s with code := code, stack := stack, seq := 5 } ∧
      ∀ x c, codeOf code x = some c ↔ (x, c) ∈ (HuffTree.fork l r).paths

/-- Where the root is a leaf, its symbol gets the one-bit code `DEGEN_CODE`, which is `[0]` by the spec's decision. -/
def Obligations.LeafRootGetsOneBitCode : Prop :=
  (∀ (s : State) (x : Symbol) (w : Nat), s.node[s.root]? = some (.leaf x w) →
    ∃ stack, exec .codeAssign s = .next { s with code := [(x, s.cfg.degenCode)], stack := stack, seq := 5 }) ∧
  (∀ c : Config, c.degenCode.length = 1) ∧ Config.chosen.degenCode = [false]

/-- The table `TREE_BUILD` and `CODE_ASSIGN` make of the counts: a code for exactly the symbols with a nonzero count, prefix-free,
every code of length at least 1. -/
def Obligations.CodesArePrefixFree : Prop :=
  ∀ (s t u : State), s.cfg.wellFormed = true → present s.cfg.leafOrder s.freq ≠ [] → exec .treeBuild s = .next t →
    exec .codeAssign t = .next u →
    (∀ x, codeOf u.code x ≠ none ↔ x < s.cfg.nSym ∧ 1 ≤ freqAt s.freq x) ∧ PrefixFree u.code ∧
    (∀ x c, codeOf u.code x = some c → 1 ≤ c.length) ∧
    ∀ x c, rctLookup u.code c = some x ↔ codeOf u.code x = some c

/-- A code is at most `n - 1` bits long for `n >= 2` symbols and 1 bit for one symbol, so at most `MAX_CLEN`. -/
def Obligations.CodeLengthBound : Prop :=
  ∀ (s t u : State), s.cfg.wellFormed = true → present s.cfg.leafOrder s.freq ≠ [] → exec .treeBuild s = .next t →
    exec .codeAssign t = .next u →
    ∀ x c, codeOf u.code x = some c →
      (2 ≤ (present s.cfg.leafOrder s.freq).length → c.length ≤ (present s.cfg.leafOrder s.freq).length - 1) ∧
      ((present s.cfg.leafOrder s.freq).length = 1 → c.length = 1) ∧ c.length ≤ s.cfg.maxCodeLen

/-- Tree and table agree: a bit string is a code word exactly when following it from `ROOT` ends on a leaf with the last bit and not
before; in a one-symbol table the only code word is `DEGEN_CODE`, which is `[0]` by the spec's decision. -/
def Obligations.TreeAndTableAgree : Prop :=
  (∀ (cfg : Config) (node : List Node) (root : Nat) (h : HuffTree), IsTree node root h →
    (2 ≤ h.symbols.length → ∀ c x, rctLookup (codeTable cfg.degenCode node root) c = some x ↔
      ∃ i w, descend node root c = some i ∧ node[i]? = some (.leaf x w)) ∧
    (h.symbols.length = 1 → ∀ c, (∃ x, rctLookup (codeTable cfg.degenCode node root) c = some x) ↔ c = cfg.degenCode)) ∧
  Config.chosen.degenCode = [false]

/-! ## Stages 5 to 7 -/

/-- `ENCODE` writes the codes of the trimmed text one after the other, and their number of bits. -/
def Obligations.EncodeConcatenatesCodes : Prop :=
  ∀ (s : State) (cs : List Bits), List.Forall₂ (fun x c => codeOf s.code x = some c) s.trimmedText cs →
    2 + cs.flatten.length / 8 ≤ s.cfg.maxBin →
    ∃ i, exec .encode s = .next { s with enc := cs.flatten, payloadLen := (cs.map List.length).sum, idx := i, seq := 6 }

/-- `ENCODE` on a stream that would not fit `BIN` raises `CapacityError`.
The scratch left alone is the model's choice (log 14). -/
def Obligations.EncodeRefusesOversizedStream : Prop :=
  ∀ (s : State) (cs : List Bits), List.Forall₂ (fun x c => codeOf s.code x = some c) s.trimmedText cs →
    s.cfg.maxBin < 2 + cs.flatten.length / 8 → exec .encode s = .next (compressFailed 0x0556 s)

/-- `ENCODE` on a symbol without a code raises `UnknownSymbolError`, whatever the length.
The scratch left alone is the model's choice (log 14). -/
def Obligations.EncodeRefusesUnknownSymbol : Prop :=
  ∀ (s : State) (x : Symbol), x ∈ s.trimmedText → codeOf s.code x = none →
    exec .encode s = .next (compressFailed 0x0526 s)

/-- `PAD` puts `8 - (L mod 8)` in front as a byte and behind as zeros, 8 of them where `L` is a multiple of 8; for a payload of `L` bits
the result has `8 * (2 + L div 8)` bits. -/
def Obligations.PadAddsHeaderAndZeros : Prop :=
  ∀ s : State, ∃ t, exec .pad s = .next t ∧
    t = { s with
      extra := 8 - s.payloadLen % 8
      pad := bin8 (BitVec.ofNat 8 (8 - s.payloadLen % 8)) ++ s.enc ++ List.replicate (8 - s.payloadLen % 8) false
      seq := 7 } ∧
    (s.payloadLen % 8 = 0 → t.extra = 8) ∧ 1 ≤ t.extra ∧ t.extra ≤ 8 ∧
    (s.payloadLen = s.enc.length →
      t.pad.length = 8 + s.payloadLen + t.extra ∧ t.pad.length = 8 * (2 + s.payloadLen / 8) ∧ 16 ≤ t.pad.length)

/-- `SERIALIZE` writes each 8-bit chunk as a byte, sets `BIN_LEN` and completes the command; the elements behind the stream become
unspecified. -/
def Obligations.SerializeWritesStream : Prop :=
  ∀ s : State, s.pad.length % 8 = 0 → s.pad.length / 8 ≤ s.cfg.maxBin →
    ∃ m i t, t = { s with bin := m, binLen := s.pad.length / 8, idx := i, status := 0x0002, seq := 0 } ∧ exec .serialize s = .next t ∧
      (∀ k, k < s.pad.length / 8 → (t.binAt k).toNat = bitsVal ((s.pad.drop (8 * k)).take 8)) ∧
      ∀ k, s.pad.length / 8 ≤ k → m.cells.lookup k = none

/-! ## Bits and bytes, stages 8 to 10 -/

/-- `bin8` and `val` are inverse. -/
def Obligations.ByteBitsInverse : Prop :=
  (∀ (v : Byte) (i : Nat), i < 8 → (bin8 v)[i]? = some (v.getLsbD (7 - i))) ∧ (∀ v : Byte, (bin8 v).length = 8) ∧
    bitsVal [] = 0 ∧ (∀ (s : Bits) (b : Bool), bitsVal (s ++ [b]) = 2 * bitsVal s + b.toNat) ∧
    (∀ v : Byte, bitsVal (bin8 v) = v.toNat) ∧ ∀ s : Bits, s.length = 8 → bin8 (BitVec.ofNat 8 (bitsVal s)) = s

/-- Bit `k` of the string is bit `7 - (k mod 8)` of byte `k div 8`. -/
def Obligations.MostSignificantBitFirst : Prop :=
  ∀ (bytes : List Byte) (k : Nat), k < 8 * bytes.length →
    (deserializeBytes bytes)[k]? = (bytes[k / 8]?).map (fun v => v.getLsbD (7 - k % 8))

/-- Serializing and deserializing are inverse to each other. -/
def Obligations.SerializeDeserializeInverse : Prop :=
  (∀ p : Bits, p.length % 8 = 0 → deserializeBytes (serializeBits p) = p) ∧
    ∀ b : List Byte, serializeBits (deserializeBytes b) = b

/-- `DESERIALIZE` expands the loaded bytes in order; a length above the capacity raises `CapacityError` and reads no byte.
The scratch left alone by the error is the model's choice (log 14). -/
def Obligations.DeserializeExpandsBytes : Prop :=
  ∀ s : State,
    (s.binLen ≤ s.cfg.maxBin →
      ∃ i, exec .deserialize s = .next { s with
        pad := ((List.range s.binLen).map (fun k => bin8 (s.binAt k))).flatten, idx := i, seq := 9 }) ∧
    (s.cfg.maxBin < s.binLen → exec .deserialize s = .next (decompressFailed 0x0856 s))

/-- `UNPAD` strips the header and as many bits at the end as it says, with two checks.
The scratch left alone by the errors is the model's choice (log 14). -/
def Obligations.UnpadStripsHeaderAndPadding : Prop :=
  ∀ s : State,
    (s.pad.length < 8 → exec .unpad s = .next (decompressFailed 0x0936 s)) ∧
    (8 ≤ s.pad.length → s.pad.length - 8 < bitsVal (s.pad.take 8) → exec .unpad s = .next (decompressFailed 0x0936 s)) ∧
    ∀ header payload padding : Bits, s.pad = header ++ payload ++ padding → header.length = 8 →
      bitsVal header = padding.length →
      exec .unpad s = .next { s with extra := padding.length, payloadLen := payload.length, enc := payload, seq := 10 }

/-- `DECODE`: reads code words off the payload, the shortest at each place; the whole payload read gives the text, a rest that never
matches gives `CorruptStreamError`, and one symbol more than the buffer holds gives `CapacityError` at that bit.
The scratch left alone by the errors is the model's choice (log 14), as is where the walker rests (log 13). -/
def Obligations.DecodeReadsCodeWords : Prop :=
  ∀ (s : State) (cs : List Bits) (symbols : List Symbol) (rest : Bits),
    Recovers s.code cs symbols → s.enc = cs.flatten ++ rest → (∀ c ∈ cs, c ≠ []) →
    (symbols.length ≤ s.cfg.maxTxt → rest = [] →
      ∃ m i w t, t = { s with
          txt := m, txtLen := symbols.length, nOut := symbols.length, idx := i, cand := [], walker := w, status := 0x0002, seq := 0 } ∧
        exec .decode s = .next t ∧
        (∀ k (h : k < symbols.length), symbols[k] < s.cfg.nSym → t.txtAt k = symbols[k]) ∧
        ∀ k, symbols.length ≤ k → m.cells.lookup k = none) ∧
    (symbols.length ≤ s.cfg.maxTxt → rest ≠ [] → (∀ p, p ≠ [] → p <+: rest → rctLookup s.code p = none) →
      exec .decode s = .next (decompressFailed 0x0A36 s)) ∧
    (symbols.length = s.cfg.maxTxt + 1 → exec .decode s = .next (decompressFailed 0x0A56 s))

/-- With the empty table any non-empty payload is corrupt and the empty payload is the empty text.
The scratch left alone by the error is the model's choice (log 14). -/
def Obligations.EmptyTableDecodesNothing : Prop :=
  ∀ s : State, s.code = [] →
    (s.enc ≠ [] → exec .decode s = .next (decompressFailed 0x0A36 s)) ∧
    (s.enc = [] → ∃ m i w, exec .decode s = .next { s with
      txt := m, txtLen := 0, nOut := 0, idx := i, cand := [], walker := w, status := 0x0002, seq := 0 } ∧
      ∀ k, m.cells.lookup k = none)

/-- The trie walker gives the same text and the same error as the table, for every payload and every kept codec state. -/
def Obligations.TrieWalkerRefinesTable : Prop :=
  ∀ (s : State) (enc : Bits) (maxTxt : Nat), CodecKept s →
    walkPayload s.cfg.degenBit s.node s.root maxTxt enc = decodePayload s.code maxTxt enc

/-- The inverse law: `UNPAD`, on any state that holds the `PAD` which stage `PAD` made, gives payload and length back, and `DECODE` of the
payload with the table of its text gives the text back. -/
def Obligations.DecodeInvertsEncode : Prop :=
  (∀ s t v : State, s.payloadLen = s.enc.length → exec .pad s = .next t → v.pad = t.pad →
    exec .unpad v = .next { v with extra := 8 - s.payloadLen % 8, enc := s.enc, payloadLen := s.payloadLen, seq := 10 }) ∧
  ∀ (s : State) (text : List Symbol), s.cfg.wellFormed = true → text ≠ [] → text.length ≤ s.cfg.maxTxt →
    s.code = codeTableOf s.cfg text → payload s.code text = some s.enc →
    ∃ u, exec .decode s = .next u ∧ u.text = text ∧ u.status = 0x0002

/-! ## Errors -/

/-- The errors a running command can end with, and what each leaves: from a running `STATUS`, a stage either raises no error or is one of
those below with its own code, and then the command has ended, its destination is empty and unspecified, and after an error in
`COMPRESS` the codec state is empty; `STATUS` holds `DONE`, `ERR`, the error's number and the stage's, and all else is as it was.
The scratch left alone is the model's choice (log 14). -/
def Obligations.ErrorEndsCommand : Prop :=
  ∀ s t : State, s.status = 0x0001 → t.err = true →
    (exec .trim s = .next t → t.errCode = 5 ∧ t.errStage = 1 ∧ t = compressFailed 0x0156 s) ∧
    (exec .treeBuild s = .next t → t.errCode = 1 ∧ t.errStage = 3 ∧ t = compressFailed 0x0316 s) ∧
    (exec .encode s = .next t →
      (t.errCode = 2 ∧ t.errStage = 5 ∧ t = compressFailed 0x0526 s) ∨ (t.errCode = 5 ∧ t.errStage = 5 ∧ t = compressFailed 0x0556 s)) ∧
    (exec .deserialize s = .next t → t.errCode = 5 ∧ t.errStage = 8 ∧ t = decompressFailed 0x0856 s) ∧
    (exec .unpad s = .next t → t.errCode = 3 ∧ t.errStage = 9 ∧ t = decompressFailed 0x0936 s) ∧
    (exec .decode s = .next t →
      (t.errCode = 3 ∧ t.errStage = 10 ∧ t = decompressFailed 0x0A36 s) ∨
        (t.errCode = 5 ∧ t.errStage = 10 ∧ t = decompressFailed 0x0A56 s)) ∧
    ∀ i, i = .freq ∨ i = .codeAssign ∨ i = .pad ∨ i = .serialize → exec i s ≠ .next t

/-- `UnknownSymbolError` cannot happen: no step from a state of the invariant that does not show it already reports it. -/
def Obligations.UnknownSymbolNeverReported : Prop :=
  ∀ s t : State, StructInv s → CodecInv s → s.status ≠ 0x0526 → step s = .next t → t.status ≠ 0x0526

/-! ## The host -/

/-- Host accesses while the core is idle take effect at once.
That the value a read returns is kept in `readData` is the model's choice (log 6). -/
def Obligations.IdleHostAccess : Prop :=
  ∀ (s : State) (rest : List HostAction), s.busy = false →
    (s.host = .csrRead 1 :: rest → step s = .next { s with host := rest, readData := s.status.toNat }) ∧
    (s.host = .csrRead 2 :: rest → step s = .next { s with host := rest, readData := s.txtLen }) ∧
    (s.host = .csrRead 3 :: rest → step s = .next { s with host := rest, readData := s.binLen }) ∧
    (∀ v, v < 2 ^ s.cfg.wTLen → s.host = .csrWrite 2 v :: rest → step s = .next { s with host := rest, txtLen := v }) ∧
    (∀ v, v < 2 ^ s.cfg.wBLen → s.host = .csrWrite 3 v :: rest → step s = .next { s with host := rest, binLen := v }) ∧
    (∀ i, i < s.cfg.maxTxt → s.host = .memRead .txt i :: rest →
      step s = .next { s with host := rest, readData := s.txtAt i }) ∧
    (∀ i, i < s.cfg.maxBin → s.host = .memRead .bin i :: rest →
      step s = .next { s with host := rest, readData := (s.binAt i).toNat }) ∧
    (∀ i v, i < s.cfg.maxTxt → v < 2 ^ s.cfg.wSym → s.host = .memWrite .txt i v :: rest →
      ∃ m t, t = { s with host := rest, txt := m } ∧ step s = .next t ∧ t.txtAt i = v ∧ ∀ j, j ≠ i → t.txtAt j = s.txtAt j) ∧
    (∀ i v, i < s.cfg.maxBin → v < 2 ^ 8 → s.host = .memWrite .bin i v :: rest →
      ∃ m t, t = { s with host := rest, bin := m } ∧ step s = .next t ∧ (t.binAt i).toNat = v ∧ ∀ j, j ≠ i → t.binAt j = s.binAt j)

/-- Host accesses while a command runs: `STATUS` reads as usual, every write is ignored, every other read of a length or an element
returns some value of its width.
That the value a read returns is kept in `readData` is the model's choice (log 6), as is the counter behind it (log 8). -/
def Obligations.BusyHostAccess : Prop :=
  ∀ (s : State) (rest : List HostAction), s.busy = true →
    (s.host = .csrRead 1 :: rest → step s = .next { s with host := rest, readData := s.status.toNat }) ∧
    (∀ n v, s.host = .csrWrite n v :: rest → step s = .next { s with host := rest }) ∧
    (∀ space i v, s.host = .memWrite space i v :: rest → step s = .next { s with host := rest }) ∧
    (s.host = .csrRead 2 :: rest →
      ∃ r k, r < 2 ^ s.cfg.wTLen ∧ step s = .next { s with host := rest, readData := r, freeCount := k }) ∧
    (s.host = .csrRead 3 :: rest →
      ∃ r k, r < 2 ^ s.cfg.wBLen ∧ step s = .next { s with host := rest, readData := r, freeCount := k }) ∧
    (∀ space i, s.host = .memRead space i :: rest →
      ∃ r k, r < 2 ^ s.cfg.elementWidth space ∧ step s = .next { s with host := rest, readData := r, freeCount := k })

/-- Accesses outside the registers and buffers, at any time: `CMD` and registers 4 and above read 0, writes to `STATUS`, to registers 4
and above and at or above a capacity are ignored, and an element at or above a capacity reads as some value of an element's width.
That the value a read returns is kept in `readData` is the model's choice (log 6), as is the counter behind it (log 8). -/
def Obligations.AccessOutsideHasNoEffect : Prop :=
  ∀ (s : State) (rest : List HostAction),
    (∀ n, n = 0 ∨ 4 ≤ n → s.host = .csrRead n :: rest → step s = .next { s with host := rest, readData := 0 }) ∧
    (∀ n v, n = 1 ∨ 4 ≤ n → s.host = .csrWrite n v :: rest → step s = .next { s with host := rest }) ∧
    (∀ space i v, s.cfg.capacity space ≤ i → s.host = .memWrite space i v :: rest → step s = .next { s with host := rest }) ∧
    (∀ space i, s.cfg.capacity space ≤ i → s.host = .memRead space i :: rest →
      ∃ r k, r < 2 ^ s.cfg.elementWidth space ∧ step s = .next { s with host := rest, readData := r, freeCount := k })

/-- The host cannot disturb a running command: short of a reset, a host action leaves everything but the host's own side unchanged. -/
def Obligations.HostCannotDisturbCommand : Prop :=
  ∀ (s : State) (a : HostAction) (rest : List HostAction), s.busy = true → s.host = a :: rest →
    a ≠ .reset → a ≠ .idle → a ≠ .pollDone →
    ∃ r k, step s = .next { s with host := rest, readData := r, freeCount := k }

/-! ## Reset -/

/-- The reset state, for every configuration.
Nothing is said of scratch, whose reset values are the model's choice (log 12); that the configuration is a field is log 1. -/
def Obligations.ResetState : Prop :=
  ∀ c : Config, (State.resetOf c).status = 0 ∧ (State.resetOf c).txtLen = 0 ∧ (State.resetOf c).binLen = 0 ∧
    (State.resetOf c).code = [] ∧ (∀ b, rctLookup (State.resetOf c).code b = none) ∧ (State.resetOf c).node.length = 0 ∧
    (State.resetOf c).seq = 0 ∧ (State.resetOf c).cfg = c ∧
    (∀ i, (State.resetOf c).txt.cells.lookup i = none) ∧ (∀ i, (State.resetOf c).bin.cells.lookup i = none) ∧
    State.reset = State.resetOf Config.chosen

/-- A reset wins over everything: whatever runs is gone, both lengths are 0, the codec state is empty and every buffer element is
unspecified. The host's own actions go on (the model's choice, log 22). -/
def Obligations.ResetAbortsCommand : Prop :=
  ∀ (s : State) (rest : List HostAction), s.host = .reset :: rest →
    ∃ t, step s = .next t ∧ t.status = 0 ∧ t.txtLen = 0 ∧ t.binLen = 0 ∧ t.code = [] ∧ (∀ b, rctLookup t.code b = none) ∧
      t.node = [] ∧ t.seq = 0 ∧ (∀ i, t.txt.cells.lookup i = none) ∧ (∀ i, t.bin.cells.lookup i = none) ∧ t.cfg = s.cfg ∧
      t.host = rest ∧ t.readData = s.readData ∧ t.freeCount = s.freeCount

/-! ## Invariants and whole-machine rules -/

/-- Every step keeps every register, count, weight and node index within its width, tables and bit buffers within their capacities,
buffers in canonical form, `STATUS` legal and `BUSY` in step with the sequencer.
The scratch a reset or an error leaves is the model's choice (log 12, log 14), and so are its widths there. -/
def Obligations.StepKeepsStructure : Prop := ∀ s t : State, StructInv s → step s = .next t → StructInv t

/-- The reset state of every well-formed configuration meets both invariants.
That the scratch registers are within their widths there rests on their reset values, which are the model's choice (log 12). -/
def Obligations.ResetMeetsInvariants : Prop :=
  ∀ c : Config, c.wellFormed = true → StructInv (State.resetOf c) ∧ CodecInv (State.resetOf c)

/-- Every step keeps the codec state a Huffman tree with its table, or empty, through every stage of a command.
What each stage relies on of its predecessors is the model's own wording of the rules (log 4). -/
def Obligations.StepKeepsCodecState : Prop :=
  ∀ s t : State, StructInv s → CodecInv s → step s = .next t → CodecInv t

/-- Between commands the table is prefix-free, its codes have 1 to `MAX_CLEN` bits, `RCT` is its inverse, the tree has `2n - 1` nodes
and `STATUS` is legal. -/
def Obligations.InvariantBetweenCommands : Prop :=
  ∀ s : State, StructInv s → CodecInv s → s.busy = false → BetweenCommands s

/-- `COMPRESS` and its stages never write `TXT` or `TXT_LEN`; `DECOMPRESS` and its stages never write `BIN`, `BIN_LEN` or the codec
state; `CLEAR` writes no buffer and no length. -/
def Obligations.CommandsLeaveTheirOperands : Prop :=
  ∀ s t : State,
    (∀ i, i = .compress ∨ ofCompress i = true → exec i s = .next t → t.txt = s.txt ∧ t.txtLen = s.txtLen) ∧
    (∀ i, i = .decompress ∨ i = .deserialize ∨ i = .unpad ∨ i = .decode → exec i s = .next t →
      t.bin = s.bin ∧ t.binLen = s.binLen ∧ t.code = s.code ∧ t.node = s.node ∧ t.root = s.root) ∧
    (exec .clear s = .next t → t.txt = s.txt ∧ t.txtLen = s.txtLen ∧ t.bin = s.bin ∧ t.binLen = s.binLen)

/-- Only `COMPRESS`, its stages, `CLEAR` and reset ever change `CODE`: a step that does is a reset, or an accepted write of one of the two
opcodes, or the core's own turn with a stage of `COMPRESS`.
That a write of 256 or more counts by its low 8 bits is the model's choice (log 10). -/
def Obligations.OnlyCompressClearResetChangeCode : Prop :=
  ∀ s t : State, step s = .next t → t.code ≠ s.code →
    (∃ rest, s.host = .reset :: rest) ∨
    (s.busy = false ∧ ∃ v rest, s.host = .csrWrite 0 v :: rest ∧ (v % 256 = 1 ∨ v % 256 = 3)) ∨
    (1 ≤ s.seq.toNat ∧ s.seq.toNat ≤ 7 ∧
      (s.host = [] ∨ (∃ rest, s.host = .idle :: rest) ∨ (s.done = false ∧ ∃ rest, s.host = .pollDone :: rest)))

/-- Every running command ends within seven stages, with `DONE = 1`; a host that polls `STATUS` meanwhile reads the completed `STATUS`,
and its poll is over.
The number of steps is the model's (log 4); the poll is log 23. -/
def Obligations.RunningCommandEnds : Prop :=
  ∀ s : State, StructInv s → s.busy = true →
    (s.host = [] → ∃ t, steps 7 s = .next t ∧ t.busy = false ∧ t.done = true) ∧
    (s.host = [.pollDone] → ∃ t, steps 8 s = .next t ∧ t.host = [] ∧ t.busy = false ∧ t.done = true ∧ t.readData = t.status.toNat)

/-! ## Whole commands -/

/-- A whole `COMPRESS` from any idle state, with every error in the order of its stages: the result is that of `compress_fn`.
The number of steps is the model's (log 4). -/
def Obligations.CompressComputesFunction : Prop :=
  ∀ s : State, s.cfg.wellFormed = true → s.busy = false →
    ∃ t, steps 8 (s.doing [.csrWrite 0 1]) = .next t ∧ t.txt = s.txt ∧ t.txtLen = s.txtLen ∧
      (s.cfg.maxTxt < s.txtLen → t.status = 0x0156 ∧ t.binLen = 0 ∧ t.code = []) ∧
      (s.txtLen ≤ s.cfg.maxTxt → trimText s.cfg.ws s.text = [] →
        compressFn s.cfg s.text = .error .emptyInput ∧ t.status = 0x0316 ∧ t.binLen = 0 ∧ t.code = []) ∧
      (s.txtLen ≤ s.cfg.maxTxt → trimText s.cfg.ws s.text ≠ [] →
        ∃ bytes code, compressFn s.cfg s.text = .ok (bytes, code) ∧
          (bytes.length ≤ s.cfg.maxBin → t.status = 0x0002 ∧ t.binLen = bytes.length ∧ t.stream = bytes ∧ t.code = code) ∧
          (s.cfg.maxBin < bytes.length → t.status = 0x0556 ∧ t.binLen = 0 ∧ t.code = []))

/-- A whole `DECOMPRESS` from any idle state, with every error in the order of its stages: the result is that of `decompress_fn`.
Where `decompress_fn` fails, `STATUS` says where: at one of the two checks of `UNPAD`; else at the symbol after `MAX_TXT`, if that many come
before the damage; else at the end of `DECODE`.
The number of steps is the model's (log 4). -/
def Obligations.DecompressComputesFunction : Prop :=
  ∀ s : State, s.busy = false →
    ∃ t p, p = deserializeBytes s.stream ∧ steps 4 (s.doing [.csrWrite 0 2]) = .next t ∧ t.bin = s.bin ∧ t.binLen = s.binLen ∧
      t.code = s.code ∧
      (s.cfg.maxBin < s.binLen → t.status = 0x0856 ∧ t.txtLen = 0) ∧
      (s.binLen ≤ s.cfg.maxBin → ∀ symbols, decompressFn s.stream s.code = .ok symbols →
        (symbols.length ≤ s.cfg.maxTxt → t.status = 0x0002 ∧ t.txtLen = symbols.length ∧
          ((∀ e ∈ s.code, e.1 < s.cfg.nSym) → t.text = symbols)) ∧
        (s.cfg.maxTxt < symbols.length → t.status = 0x0A56 ∧ t.txtLen = 0)) ∧
      (s.binLen ≤ s.cfg.maxBin → ∀ e, decompressFn s.stream s.code = .error e →
        e = .corruptStream ∧ t.txtLen = 0 ∧
        (p.length < 8 ∨ p.length - 8 < bitsVal (p.take 8) → t.status = 0x0936) ∧
        (8 ≤ p.length → bitsVal (p.take 8) ≤ p.length - 8 →
          (TooManySymbols s.code s.cfg.maxTxt ((p.drop 8).take (p.length - 8 - bitsVal (p.take 8))) → t.status = 0x0A56) ∧
          (¬ TooManySymbols s.code s.cfg.maxTxt ((p.drop 8).take (p.length - 8 - bitsVal (p.take 8))) → t.status = 0x0A36)))

/-- Round trip: from any idle state, a text that fits, has a symbol left after trimming and a stream that fits is compressed and
decompressed with success, and what comes back is the trimmed text.
The number of steps is the model's (log 4). -/
def Obligations.RoundTripReturnsTrimmedText : Prop :=
  ∀ (s : State) (e : Bits), s.cfg.wellFormed = true → s.busy = false → s.txtLen ≤ s.cfg.maxTxt → trimText s.cfg.ws s.text ≠ [] →
    payload (codeTableOf s.cfg (trimText s.cfg.ws s.text)) (trimText s.cfg.ws s.text) = some e → 2 + e.length / 8 ≤ s.cfg.maxBin →
    ∃ t u, steps 8 (s.doing [.csrWrite 0 1]) = .next t ∧ t.status = 0x0002 ∧
      steps 4 (t.doing [.csrWrite 0 2]) = .next u ∧ u.status = 0x0002 ∧ u.text = trimText s.cfg.ws s.text

/-- Determinism: the stream, its length and the table after a successful `COMPRESS` depend on the text and the parameters alone.
The number of steps is the model's (log 4). -/
def Obligations.CompressIsDeterministic : Prop :=
  ∀ s s' t t' : State, s.cfg.wellFormed = true → s'.cfg = s.cfg → s.busy = false → s'.busy = false → s'.text = s.text →
    steps 8 (s.doing [.csrWrite 0 1]) = .next t →
    steps 8 (s'.doing [.csrWrite 0 1]) = .next t' →
    t.status = t'.status ∧ t.binLen = t'.binLen ∧ t.stream = t'.stream ∧ t.code = t'.code
end

