-- ==== Sys2Proof/Laws/Bits.lean ====
section
/-! SUPPORT. Bit strings, bytes and the two conversions of 45_byte_serializer.md. -/

namespace Sys2Proof.Machine

@[simp] theorem length_bin8 (v : Byte) : (bin8 v).length = 8 := by simp [bin8]

theorem getElem?_bin8 (v : Byte) {i : Nat} (h : i < 8) : (bin8 v)[i]? = some (v.getLsbD (7 - i)) := by
  simp [bin8, h]

@[simp] theorem bitsVal_nil : bitsVal [] = 0 := rfl

theorem bitsVal_append_singleton (s : Bits) (b : Bool) : bitsVal (s ++ [b]) = 2 * bitsVal s + b.toNat := by
  simp [bitsVal]

theorem bitsVal_bin8 (v : Byte) : bitsVal (bin8 v) = v.toNat := by
  revert v; decide

theorem bin8_bitsVal {s : Bits} (h : s.length = 8) : bin8 (BitVec.ofNat 8 (bitsVal s)) = s := by
  match s, h with
  | [a, b, c, d, e, f, g, i], _ =>
    cases a <;> cases b <;> cases c <;> cases d <;> cases e <;> cases f <;> cases g <;> cases i <;> decide

@[simp] theorem length_toBytes (n : Nat) (bits : Bits) : (toBytes n bits).length = n := by
  induction n generalizing bits <;> simp [toBytes, *]

@[simp] theorem length_serializeBits (bits : Bits) : (serializeBits bits).length = bits.length / 8 := length_toBytes _ _

@[simp] theorem length_deserializeBytes (bytes : List Byte) : (deserializeBytes bytes).length = 8 * bytes.length := by
  induction bytes with
  | nil => rfl
  | cons v vs ih => simp only [deserializeBytes, List.flatMap_cons, List.length_append, length_bin8, List.length_cons] at *; omega

theorem deserialize_toBytes (n : Nat) (bits : Bits) (h : bits.length = 8 * n) : deserializeBytes (toBytes n bits) = bits := by
  induction n generalizing bits with
  | zero => have : bits = [] := List.length_eq_zero_iff.1 (by omega)
            subst this; rfl
  | succ n ih =>
    rw [toBytes, deserializeBytes, List.flatMap_cons, bin8_bitsVal (by simp; omega)]
    have := ih (bits.drop 8) (by simp; omega)
    rw [deserializeBytes] at this
    rw [this, List.take_append_drop]

theorem toBytes_deserialize (bytes : List Byte) : toBytes bytes.length (deserializeBytes bytes) = bytes := by
  induction bytes with
  | nil => rfl
  | cons v vs ih =>
    rw [List.length_cons, toBytes, deserializeBytes, List.flatMap_cons, List.take_left' (length_bin8 v),
      List.drop_left' (length_bin8 v), bitsVal_bin8]
    rw [deserializeBytes] at ih
    rw [ih]; simp

theorem toBytes_getElem (n : Nat) (bits : Bits) (k : Nat) (h : k < n) :
    (toBytes n bits)[k]? = some (BitVec.ofNat 8 (bitsVal ((bits.drop (8 * k)).take 8))) := by
  induction n generalizing bits k with
  | zero => omega
  | succ n ih =>
    cases k with
    | zero => simp [toBytes]
    | succ k => 
      rw [toBytes, List.getElem?_cons_succ, ih _ _ (by omega), List.drop_drop]
      congr 4
      congr 1; omega

theorem bitsVal_lt (s : Bits) : bitsVal s < 2 ^ s.length := by
  induction s using List.reverseRecOn with
  | nil => simp
  | append_singleton s b ih =>
    rw [bitsVal_append_singleton, List.length_append, List.length_singleton, pow_succ]
    have := b.toNat_le
    omega

end Sys2Proof.Machine
end

