-- ==== Sys2Proof/Laws/Maps.lean ====
section
/-! SUPPORT. Maps listed by rising key: what `bindKey` does, and the lookups of `CODE` and `RCT`. -/

namespace Sys2Proof.Machine

section
variable {ν : Type}

/-- The canonical form of a map: its keys rise strictly. -/
def Rising (m : List (Nat × ν)) : Prop := (m.map Prod.fst).Pairwise (· < ·)

theorem rising_nil : Rising ([] : List (Nat × ν)) := List.Pairwise.nil

theorem rising_cons {e : Nat × ν} {m : List (Nat × ν)} :
    Rising (e :: m) ↔ (∀ f ∈ m, e.1 < f.1) ∧ Rising m := by
  simp only [Rising, List.map_cons, List.pairwise_cons, List.mem_map, forall_exists_index, and_imp,
    forall_apply_eq_imp_iff₂]

theorem mem_bindKey_of_mem {k : Nat} {v : ν} {m : List (Nat × ν)} {e : Nat × ν} (h : e ∈ bindKey k v m) :
    e = (k, v) ∨ e ∈ m := by
  induction m with
  | nil => simpa [bindKey] using h
  | cons f m ih =>
    simp only [bindKey] at h
    split at h
    · simpa using h
    · split at h
      · rcases List.mem_cons.1 h with h | h
        · exact .inl h
        · exact .inr (List.mem_cons_of_mem _ h)
      · rcases List.mem_cons.1 h with h | h
        · exact .inr (by simp [h])
        · exact (ih h).imp_right (List.mem_cons_of_mem _)

/-- Binding a key keeps the canonical form. -/
theorem rising_bindKey {m : List (Nat × ν)} (k : Nat) (v : ν) (h : Rising m) : Rising (bindKey k v m) := by
  induction m with
  | nil => simp [bindKey, Rising]
  | cons f m ih =>
    obtain ⟨hf, hm⟩ := rising_cons.1 h
    simp only [bindKey]
    split
    · exact rising_cons.2 ⟨fun g hg => by
        rcases List.mem_cons.1 hg with rfl | hg
        · assumption
        · exact lt_trans ‹_› (hf g hg), h⟩
    · split
      · exact rising_cons.2 ⟨fun g hg => by simp only [‹k = f.1›]; exact hf g hg, hm⟩
      · refine rising_cons.2 ⟨fun g hg => ?_, ih hm⟩
        rcases mem_bindKey_of_mem hg with rfl | hg
        · dsimp only; omega
        · exact hf g hg

/-- The bound key reads as the bound value. -/
theorem lookup_bindKey_self (k : Nat) (v : ν) (m : List (Nat × ν)) :
    (bindKey k v m).lookup k = some v := by
  induction m with
  | nil => simp [bindKey]
  | cons f m ih =>
    obtain ⟨j, w⟩ := f
    simp only [bindKey]
    split
    · simp
    · split
      · simp
      · have : k ≠ j := fun e => ‹¬k = j› (by rw [e])
        rw [List.lookup_cons, beq_false_of_ne this]
        exact ih

/-- Every other key reads as before. -/
theorem lookup_bindKey_of_ne {k j : Nat} (v : ν) (m : List (Nat × ν)) (h : j ≠ k) :
    (bindKey k v m).lookup j = m.lookup j := by
  induction m with
  | nil => simp [bindKey, h]
  | cons f m ih =>
    obtain ⟨i, w⟩ := f
    simp only [bindKey]
    split
    · rw [List.lookup_cons, beq_false_of_ne h]
    · split
      · subst_vars
        rw [List.lookup_cons, List.lookup_cons, beq_false_of_ne h]
      · rw [List.lookup_cons, List.lookup_cons, ih]

/-- In a map in canonical form a listed pair is what its key reads as. -/
theorem lookup_eq_some_iff_mem {m : List (Nat × ν)} (h : Rising m) {k : Nat} {v : ν} :
    m.lookup k = some v ↔ (k, v) ∈ m := by
  induction m with
  | nil => simp
  | cons f m ih =>
    obtain ⟨j, w⟩ := f
    obtain ⟨hf, hm⟩ := rising_cons.1 h
    rw [List.lookup_cons, List.mem_cons]
    by_cases e : k = j
    · subst e
      have : ¬ (k, v) ∈ m := fun hin => lt_irrefl _ (hf (k, v) hin)
      simp [this, eq_comm]
    · rw [beq_false_of_ne e]
      simp [ih hm, e]

end

/-- Fold of `setCode` over assignments keeps the canonical form. -/
theorem rising_setCode {code : CodeTable} (s : Symbol) (c : Bits) (h : Rising code) :
    Rising (setCode s c code) := rising_bindKey s c h

@[simp] theorem codeOf_nil (s : Symbol) : codeOf [] s = none := rfl

theorem codeOf_setCode_self (s : Symbol) (c : Bits) (code : CodeTable) : codeOf (setCode s c code) s = some c :=
  lookup_bindKey_self s c code

theorem codeOf_setCode_of_ne {s t : Symbol} (c : Bits) (code : CodeTable) (h : t ≠ s) :
    codeOf (setCode s c code) t = codeOf code t :=
  lookup_bindKey_of_ne c code h

@[simp] theorem rctLookup_nil (c : Bits) : rctLookup [] c = none := rfl

/-- What is listed after an assignment is the assignment or was listed before. -/
theorem mem_of_mem_setCode {s : Symbol} {c : Bits} {code : CodeTable} {e : Symbol × Bits} (h : e ∈ setCode s c code) :
    e = (s, c) ∨ e ∈ code := mem_bindKey_of_mem h

/-- What `RCT` answers is listed in `CODE`. -/
theorem mem_of_rctLookup {code : CodeTable} {c : Bits} {s : Symbol} (h : rctLookup code c = some s) : (s, c) ∈ code := by
  obtain ⟨e, he, rfl⟩ := Option.map_eq_some_iff.1 h
  have h2 := List.find?_some he
  simp only [beq_iff_eq] at h2
  rw [← h2]
  exact List.mem_of_find?_eq_some he

/-- `RCT` answers nothing exactly where no listed code is the candidate. -/
theorem rctLookup_eq_none_iff {code : CodeTable} {c : Bits} : rctLookup code c = none ↔ ∀ e ∈ code, e.2 ≠ c := by
  simp [rctLookup]

end Sys2Proof.Machine
end

