-- ==== Sys2Proof/Laws/Buffers.lean ====
section
/-! SUPPORT. Buffers: every operation keeps the canonical form, and what each element reads as after it. -/

namespace Sys2Proof.Machine

variable {α : Type}

theorem Memory.wf_iff {m : Memory α} {n : Nat} :
    m.wf n = true ↔ Rising m.cells ∧ ∀ c ∈ m.cells, c.1 < n := by
  simp [Memory.wf, Rising]

/-- A buffer with nothing listed is in canonical form: the one at reset. -/
theorem Memory.wf_empty (e n : Nat) : (Memory.mk ([] : List (Nat × α)) e).wf n = true := by simp [Memory.wf]

theorem Memory.wf_write {m : Memory α} {n : Nat} (i : Nat) (v : α) (h : m.wf n = true) : (m.write n i v).wf n = true := by
  rw [Memory.write]
  split
  · rw [Memory.wf_iff] at h ⊢
    refine ⟨rising_bindKey i v h.1, fun c hc => ?_⟩
    rcases mem_bindKey_of_mem hc with rfl | hc
    · assumption
    · exact h.2 c hc
  · exact h

theorem mem_cellsFrom {vs : List α} {k : Nat} {c : Nat × α} (h : c ∈ cellsFrom k vs) :
    k ≤ c.1 ∧ c.1 < k + vs.length := by
  induction vs generalizing k with
  | nil => simp [cellsFrom] at h
  | cons v vs ih =>
    rcases List.mem_cons.1 h with rfl | h
    · simp
    · have := ih h; simp only [List.length_cons]; omega

theorem rising_cellsFrom (vs : List α) (k : Nat) : Rising (cellsFrom k vs) := by
  induction vs generalizing k with
  | nil => exact rising_nil
  | cons v vs ih => exact rising_cons.2 ⟨fun f hf => (mem_cellsFrom hf).1, ih _⟩

theorem Memory.wf_fill (m : Memory α) (n : Nat) (vs : List α) : (m.fill n vs).wf n = true := by
  rw [Memory.wf_iff]
  refine ⟨rising_cellsFrom _ _, fun c hc => ?_⟩
  have := (mem_cellsFrom hc).2
  simp only [List.length_take] at this
  omega

theorem Memory.wf_discard (m : Memory α) (n : Nat) : m.discard.wf n = true := Memory.wf_empty _ n

theorem Memory.read_write_self {m : Memory α} {n i : Nat} (free : Nat → Nat → α) (v : α) (h : i < n) :
    (m.write n i v).read free i = v := by
  simp only [Memory.write, h, if_true, Memory.read]
  rw [lookup_bindKey_self]

theorem Memory.read_write_of_ne {m : Memory α} {n i j : Nat} (free : Nat → Nat → α) (v : α) (h : j ≠ i) :
    (m.write n i v).read free j = m.read free j := by
  rw [Memory.write]
  split
  · simp only [Memory.read, lookup_bindKey_of_ne v m.cells h]
  · rfl

theorem lookup_cellsFrom (vs : List α) (k i : Nat) :
    (cellsFrom k vs).lookup i = if k ≤ i then vs[i - k]? else none := by
  induction vs generalizing k with
  | nil => simp [cellsFrom]
  | cons v vs ih =>
    rw [cellsFrom, List.lookup_cons]
    by_cases e : i = k
    · subst e; simp
    · rw [beq_false_of_ne e, ih]
      by_cases h : k + 1 ≤ i
      · rw [if_pos h, if_pos (by omega), show i - k = (i - (k + 1)) + 1 by omega, List.getElem?_cons_succ]
      · rw [if_neg h, if_neg (by omega)]

/-- After a fill an element below the result's length is the result's. -/
theorem Memory.read_fill {m : Memory α} {n i : Nat} (free : Nat → Nat → α) {vs : List α} (hn : vs.length ≤ n) (hi : i < vs.length) :
    (m.fill n vs).read free i = vs[i] := by
  simp [Memory.fill, Memory.read, lookup_cellsFrom, List.take_of_length_le hn, hi]

/-- After a fill nothing is listed at or above the result's length. -/
theorem Memory.lookup_fill_of_le {m : Memory α} {n i : Nat} {vs : List α} (hi : vs.length ≤ i) :
    (m.fill n vs).cells.lookup i = none := by
  simp only [Memory.fill, lookup_cellsFrom, Nat.zero_le, if_true, Nat.sub_zero]
  exact List.getElem?_eq_none (by simp only [List.length_take]; omega)

/-- What is listed after a write is the element written or was listed before. -/
theorem Memory.mem_write {m : Memory α} {n i : Nat} {v : α} {e : Nat × α} (h : e ∈ (m.write n i v).cells) : e = (i, v) ∨ e ∈ m.cells := by
  rw [Memory.write] at h
  split at h
  · exact mem_bindKey_of_mem h
  · exact .inr h

/-- What is listed after a fill is one of the result's elements. -/
theorem Memory.mem_fill {m : Memory α} {n : Nat} {vs : List α} {e : Nat × α} (h : e ∈ (m.fill n vs).cells) : e.2 ∈ vs := by
  have key : ∀ (l : List α) (k : Nat), e ∈ cellsFrom k l → e.2 ∈ l := by
    intro l
    induction l with
    | nil => intro k h; simp [cellsFrom] at h
    | cons v l ih =>
      intro k h
      rcases List.mem_cons.1 h with rfl | h
      · exact List.mem_cons_self
      · exact List.mem_cons_of_mem _ (ih _ h)
  exact List.mem_of_mem_take (key _ _ h)

/-! ## The buffers as the stages read them -/

theorem truncate_lt (w v : Nat) : truncate w v < 2 ^ w := Nat.mod_lt _ (Nat.two_pow_pos w)

theorem truncate_of_lt {w v : Nat} (h : v < 2 ^ w) : truncate w v = v := Nat.mod_eq_of_lt h

/-- A symbol read from `TXT` has `W_SYM` bits. -/
theorem State.txtAt_lt (s : State) (i : Nat) : s.txtAt i < s.cfg.nSym := truncate_lt _ _

theorem State.lt_of_mem_trimmedText {s : State} {x : Symbol} (h : x ∈ s.trimmedText) : x < s.cfg.nSym := by
  obtain ⟨i, -, rfl⟩ := List.mem_map.1 h
  exact s.txtAt_lt i

@[simp] theorem State.length_text (s : State) : s.text.length = s.txtLen := by simp [State.text]

@[simp] theorem State.length_trimmedText (s : State) : s.trimmedText.length = s.wlen := by simp [State.trimmedText]

@[simp] theorem State.length_stream (s : State) : s.stream.length = s.binLen := by simp [State.stream]

/-- The text after a result was laid in `TXT`, where its symbols have `W_SYM` bits and it fits. -/
theorem text_of_fill {s : State} {m : Memory Symbol} {vs : List Symbol} (ht : s.txt = m.fill s.cfg.maxTxt vs) (hl : s.txtLen = vs.length)
    (hn : vs.length ≤ s.cfg.maxTxt) (hv : ∀ x ∈ vs, x < s.cfg.nSym) : s.text = vs := by
  refine List.ext_getElem (by simp [hl]) fun i h1 h2 => ?_
  simp only [State.text, List.getElem_map, List.getElem_range, State.txtAt, ht]
  rw [Memory.read_fill _ hn h2, truncate_of_lt (hv _ (List.getElem_mem h2))]

/-- The stream after a result was laid in `BIN`, where it fits. -/
theorem stream_of_fill {s : State} {m : Memory Byte} {vs : List Byte} (ht : s.bin = m.fill s.cfg.maxBin vs) (hl : s.binLen = vs.length)
    (hn : vs.length ≤ s.cfg.maxBin) : s.stream = vs := by
  refine List.ext_getElem (by simp [hl]) fun i h1 h2 => ?_
  simp only [State.stream, List.getElem_map, List.getElem_range, State.binAt, ht]
  rw [Memory.read_fill _ hn h2]

end Sys2Proof.Machine
end

