-- ==== Sys2Proof/Laws/Counts.lean ====
section
/-! SUPPORT. Counting symbols and trimming (40_frequency_counter.md). -/

namespace Sys2Proof.Machine

@[simp] theorem freqAt_replicate (n : Nat) (x : Symbol) : freqAt (List.replicate n 0) x = 0 := by
  rw [freqAt, List.getD_eq_getElem?_getD, List.getElem?_replicate]; split <;> rfl

@[simp] theorem length_countOne (f : List Nat) (x : Symbol) : (countOne f x).length = f.length := by simp [countOne]

theorem freqAt_countOne (f : List Nat) {x : Symbol} (h : x < f.length) (y : Symbol) :
    freqAt (countOne f x) y = freqAt f y + if x = y then 1 else 0 := by
  unfold countOne freqAt
  rw [List.getD_eq_getElem?_getD, List.getElem?_set]
  by_cases e : x = y
  · subst e; simp [h]
  · simp [e]

theorem length_foldl_countOne (text : List Symbol) (f : List Nat) : (text.foldl countOne f).length = f.length := by
  induction text generalizing f with
  | nil => rfl
  | cons x xs ih => rw [List.foldl_cons, ih, length_countOne]

theorem freqAt_foldl (text : List Symbol) (f : List Nat) (h : ∀ x ∈ text, x < f.length) (y : Symbol) :
    freqAt (text.foldl countOne f) y = freqAt f y + text.count y := by
  induction text generalizing f with
  | nil => simp
  | cons x xs ih =>
    rw [List.foldl_cons, ih _ (by simpa using fun z hz => h z (List.mem_cons_of_mem _ hz)),
      freqAt_countOne _ (h x List.mem_cons_self), List.count_cons]
    by_cases h : x = y <;> simp [h]; omega

/-- A symbol that no counter stands for leaves the counters as they are. -/
theorem freqAt_of_le {f : List Nat} {x : Symbol} (h : f.length ≤ x) : freqAt f x = 0 := by
  rw [freqAt, List.getD_eq_getElem?_getD, List.getElem?_eq_none h]; rfl

@[simp] theorem length_countSymbols (n : Nat) (text : List Symbol) : (countSymbols n text).length = n := by
  rw [countSymbols, length_foldl_countOne, List.length_replicate]

theorem freqAt_countSymbols {n : Nat} {text : List Symbol} (h : ∀ x ∈ text, x < n) (y : Symbol) :
    freqAt (countSymbols n text) y = text.count y := by
  rw [countSymbols, freqAt_foldl _ _ (by simpa using h), freqAt_replicate, Nat.zero_add]

theorem sum_set (l : List Nat) (i : Nat) (h : i < l.length) : (l.set i (l[i] + 1)).sum = l.sum + 1 := by
  induction l generalizing i with
  | nil => simp at h
  | cons a l ih => cases i with
    | zero => simp; omega
    | succ i => simp at h; simp [ih i h]; omega

theorem sum_countOne (f : List Nat) {x : Symbol} (h : x < f.length) : (countOne f x).sum = f.sum + 1 := by
  rw [countOne, show freqAt f x = f[x] by simp [freqAt, h], sum_set f x h]

theorem sum_countSymbols {n : Nat} {text : List Symbol} (h : ∀ x ∈ text, x < n) : (countSymbols n text).sum = text.length := by
  have key : ∀ (f : List Nat), (∀ x ∈ text, x < f.length) → (text.foldl countOne f).sum = f.sum + text.length := by
    induction text with
    | nil => simp
    | cons x xs ih =>
      intro f hf
      rw [List.foldl_cons, ih (fun z hz => h z (List.mem_cons_of_mem _ hz)) _
        (by simpa using fun z hz => hf z (List.mem_cons_of_mem _ hz)), sum_countOne _ (hf x List.mem_cons_self), List.length_cons]
      omega
  rw [countSymbols, key _ (by simpa using h)]
  simp

theorem trimmedLength_spec (ws : List Symbol) (el : Nat → Symbol) (n : Nat) :
    trimmedLength ws el n ≤ n ∧ (trimmedLength ws el n = 0 ∨ ws.contains (el (trimmedLength ws el n - 1)) = false) ∧
      ∀ i, trimmedLength ws el n ≤ i → i < n → ws.contains (el i) = true := by
  induction n with
  | zero => simp [trimmedLength]
  | succ n ih =>
    rw [trimmedLength]
    split
    · refine ⟨by omega, ih.2.1, fun i h1 h2 => ?_⟩
      by_cases e : i = n
      · subst e; assumption
      · exact ih.2.2 i h1 (by omega)
    · rename_i h
      exact ⟨le_refl _, .inr (by simpa using h), fun i h1 h2 => by omega⟩

/-- The trimmed length cuts off the trimmed text. -/
theorem map_trim (ws : List Symbol) (el : Nat → Symbol) (n : Nat) :
    (List.range (trimmedLength ws el n)).map el = trimText ws ((List.range n).map el) := by
  induction n with
  | zero => simp [trimmedLength, trimText]
  | succ n ih =>
    rw [trimmedLength, List.range_succ, List.map_append, trimText]
    simp only [List.map_cons, List.map_nil, List.reverse_append, List.reverse_cons, List.reverse_nil, List.nil_append,
      List.singleton_append, List.dropWhile_cons]
    split
    · rw [ih, trimText]
    · simp [List.range_succ]

end Sys2Proof.Machine
end

