-- ==== Sys2Proof/Laws/Queue.lean ====
section
/-! SUPPORT. The order and the primitives of the priority queue (41_priority_queue.md). -/

namespace Sys2Proof.Machine

theorem keyLess_iff (node : List Node) (i j : Nat) :
    keyLess node i j = true ↔ weightAt node i < weightAt node j ∨ (weightAt node i = weightAt node j ∧ i < j) := by
  simp [keyLess]

theorem keyLess_trans {node : List Node} {i j k : Nat} (h1 : keyLess node i j = true) (h2 : keyLess node j k = true) :
    keyLess node i k = true := by
  rw [keyLess_iff] at *; omega

theorem keyLess_total {node : List Node} {i j : Nat} (h : i ≠ j) : keyLess node i j = !keyLess node j i := by
  rw [Bool.eq_iff_iff, Bool.not_eq_true', ← Bool.not_eq_true, keyLess_iff, keyLess_iff]; omega

theorem pqMin_spec (node : List Node) (pq : List Nat) (h : pq ≠ []) :
    ∃ m, pqMin node pq = some m ∧ m ∈ pq ∧ ∀ j ∈ pq, j ≠ m → keyLess node m j = true := by
  induction pq with
  | nil => exact absurd rfl h
  | cons i rest ih =>
    rcases eq_or_ne rest [] with rfl | hr
    · exact ⟨i, by simp [pqMin], by simp, by simp⟩
    · obtain ⟨m, hm, hin, hle⟩ := ih hr
      by_cases hk : keyLess node m i = true
      · refine ⟨m, by simp [pqMin, hm, hk], List.mem_cons_of_mem _ hin, fun j hj hne => ?_⟩
        rcases List.mem_cons.1 hj with rfl | hj
        · exact hk
        · exact hle j hj hne
      · refine ⟨i, by simp [pqMin, hm, hk], by simp, fun j hj hne => ?_⟩
        rcases List.mem_cons.1 hj with rfl | hj
        · exact absurd rfl hne
        · have him : i ≠ m → keyLess node i m = true := fun e => by rw [keyLess_total e]; simpa using hk
          by_cases e : j = m
          · subst e; exact him (Ne.symm hne)
          · by_cases e2 : i = m
            · subst e2; exact hle j hj e
            · exact keyLess_trans (him e2) (hle j hj e)

theorem pqExtractMin_spec (node : List Node) (pq : List Nat) (h : pq ≠ []) :
    ∃ m, pqExtractMin node pq = some (m, pq.erase m) ∧ m ∈ pq ∧ ∀ j ∈ pq, j ≠ m → keyLess node m j = true := by
  obtain ⟨m, hm, h1, h2⟩ := pqMin_spec node pq h
  exact ⟨m, by simp [pqExtractMin, hm], h1, h2⟩

theorem mem_pqInsert (i : Nat) (pq : List Nat) (j : Nat) : j ∈ pqInsert i pq ↔ j = i ∨ j ∈ pq := by
  induction pq with
  | nil => simp [pqInsert]
  | cons k rest ih =>
    simp only [pqInsert]
    split
    · simp
    · split
      · rename_i h1 h2; subst h2; simp
      · simp [ih]; tauto

theorem pairwise_pqInsert (i : Nat) (pq : List Nat) (h : pq.Pairwise (· < ·)) : (pqInsert i pq).Pairwise (· < ·) := by
  induction pq with
  | nil => simp [pqInsert]
  | cons k rest ih =>
    obtain ⟨h1, h2⟩ := List.pairwise_cons.1 h
    simp only [pqInsert]
    split
    · refine List.pairwise_cons.2 ⟨fun j hj => ?_, h⟩
      rcases List.mem_cons.1 hj with rfl | hj
      · assumption
      · exact lt_trans ‹_› (h1 j hj)
    · split
      · exact h
      · refine List.pairwise_cons.2 ⟨fun j hj => ?_, ih h2⟩
        rcases (mem_pqInsert _ _ _).1 hj with rfl | hj
        · omega
        · exact h1 j hj

theorem pqInsert_of_lt (i : Nat) (pq : List Nat) (h : ∀ j ∈ pq, j < i) : pqInsert i pq = pq ++ [i] := by
  induction pq with
  | nil => rfl
  | cons k rest ih =>
    have hk := h k (by simp)
    simp only [pqInsert]
    rw [if_neg (by omega), if_neg (by omega), ih fun j hj => h j (List.mem_cons_of_mem _ hj), List.cons_append]

end Sys2Proof.Machine
end

