-- ==== Sys2Proof/Laws/Tree.lean ====
section
/-! SUPPORT. Building the tree (42_tree_builder.md): the loaded leaves, the forest between two merges, and the tree at the end. -/

namespace Sys2Proof.Machine

theorem leafLoad_fold (f : List Nat) (L : List Symbol) (t : TreeWork) (h : t.pq = List.range t.node.length) :
    L.foldl (leafLoadOne f) t =
      { t with node := t.node ++ (L.filter (fun s => decide (1 ≤ freqAt f s))).map (fun x => .leaf x (freqAt f x))
               pq := List.range (t.node.length + (L.filter (fun s => decide (1 ≤ freqAt f s))).length) } := by
  induction L generalizing t with
  | nil => simp [← h]
  | cons x L ih =>
    rw [List.foldl_cons]
    by_cases hx : 1 ≤ freqAt f x
    · have hp : pqInsert t.node.length t.pq = List.range (t.node.length + 1) := by
        rw [h, pqInsert_of_lt _ _ (by simp), List.range_succ]
      rw [leafLoadOne, if_pos hx, ih]
      · simp [pushNode, hx, Nat.add_assoc, Nat.add_comm]
      · simp [pushNode, hp]
    · rw [leafLoadOne, if_neg hx, ih _ h]
      simp [hx]

theorem loadedLeaves_eq (o : List Symbol) (f : List Nat) (a b : Nat) :
    loadedLeaves o f a b =
      { node := (present o f).map (fun x => .leaf x (freqAt f x))
        pq := List.range (present o f).length
        nodeA := a
        nodeB := b } := by
  rw [loadedLeaves, leafLoad, leafLoad_fold _ _ _ (by simp)]
  simp [present]

theorem mem_present {o : List Symbol} {f : List Nat} {x : Symbol} : x ∈ present o f ↔ x ∈ o ∧ 1 ≤ freqAt f x := by
  simp [present]

theorem present_sublist (o : List Symbol) (f : List Nat) : (present o f).Sublist o := List.filter_sublist

theorem length_present_le (o : List Symbol) (f : List Nat) : (present o f).length ≤ o.length := List.length_filter_le _ _

/-! ## The leaf order of a well-formed configuration names every symbol value once -/

theorem Config.order_perm {c : Config} (h : c.wellFormed = true) : c.leafOrder.Perm (List.range c.nSym) := by
  simp only [Config.wellFormed, Bool.and_eq_true] at h
  exact List.isPerm_iff.1 h.2

theorem Config.mem_order {c : Config} (h : c.wellFormed = true) {x : Symbol} : x ∈ c.leafOrder ↔ x < c.nSym := by
  rw [(Config.order_perm h).mem_iff, List.mem_range]

theorem Config.nodup_order {c : Config} (h : c.wellFormed = true) : c.leafOrder.Nodup :=
  (Config.order_perm h).nodup_iff.2 List.nodup_range

theorem Config.length_order {c : Config} (h : c.wellFormed = true) : c.leafOrder.length = c.nSym := by
  rw [(Config.order_perm h).length_eq, List.length_range]

theorem Config.two_le_nSym {c : Config} (h : c.wellFormed = true) : 2 ≤ c.nSym := by
  simp only [Config.wellFormed, Bool.and_eq_true, decide_eq_true_eq] at h
  exact (Nat.pow_le_pow_right (by omega) h.1.1.1.1 : 2 ^ 1 ≤ 2 ^ c.wSym)

/-- Node indices have `W_NODE` bits: `MAX_NODE` is the greatest number of that width. -/
theorem Config.maxNode_lt (c : Config) : c.maxNode < 2 ^ c.wNode := by
  have := Nat.two_pow_pos c.wSym
  simp only [Config.maxNode, Config.nSym, Config.wNode, pow_succ]; omega

theorem nodup_present {c : Config} (h : c.wellFormed = true) (f : List Nat) : (present c.leafOrder f).Nodup :=
  (Config.nodup_order h).sublist (present_sublist _ _)

/-- What `MERGE_STEP` does on a queue of two or more, apart from which two members it takes. -/
theorem mergeStep_eq (t : TreeWork) (hs : t.pq.Pairwise (· < ·)) (hlt : ∀ i ∈ t.pq, i < t.node.length) (h2 : 2 ≤ t.pq.length) :
    ∃ a b, a ∈ t.pq ∧ b ∈ t.pq ∧ a ≠ b ∧
      mergeStep t =
        { node := t.node ++ [.internal (weightAt t.node a + weightAt t.node b) a b]
          pq := ((t.pq.erase a).erase b) ++ [t.node.length], nodeA := a, nodeB := b } := by
  have hnd : t.pq.Nodup := hs.imp fun h e => by omega
  obtain ⟨a, ha, hain, -⟩ := pqExtractMin_spec t.node t.pq (by intro h; simp [h] at h2)
  obtain ⟨b, hb, hbin, -⟩ := pqExtractMin_spec t.node (t.pq.erase a) (by
    intro h
    have := List.length_erase_of_mem hain
    rw [h] at this; simp at this; omega)
  rw [hnd.mem_erase_iff] at hbin
  refine ⟨a, b, hain, hbin.2, hbin.1.symm, ?_⟩
  simp only [mergeStep, ha, hb, pushNode]
  rw [pqInsert_of_lt]
  intro j hj
  exact hlt j (List.mem_of_mem_erase (List.mem_of_mem_erase hj))

/-- `t` is what node memory spells at `i`, and `ix` are the indices met. -/
def Spelled (node : List Node) : Nat → HuffTree → List Nat → Prop
  | i, .leaf s w, ix => node[i]? = some (.leaf s w) ∧ ix = [i]
  | i, .fork l r, ix =>
    ∃ a b ia ib, node[i]? = some (.internal (l.weight + r.weight) a b) ∧ Spelled node a l ia ∧ Spelled node b r ib ∧
      ix = i :: (ia ++ ib)

theorem Spelled.append {node : List Node} (more : List Node) {t : HuffTree} {i : Nat} {ix : List Nat}
    (h : Spelled node i t ix) : Spelled (node ++ more) i t ix := by
  have mono : ∀ {i : Nat} {n : Node}, node[i]? = some n → (node ++ more)[i]? = some n := by
    intro i n h
    rw [List.getElem?_append_left (List.getElem?_eq_some_iff.1 h).1, h]
  induction t generalizing i ix with
  | leaf s w => exact ⟨mono h.1, h.2⟩
  | fork l r ihl ihr =>
    obtain ⟨a, b, ia, ib, h1, h2, h3, h4⟩ := h
    exact ⟨a, b, ia, ib, mono h1, ihl h2, ihr h3, h4⟩

theorem Spelled.spells {node : List Node} {t : HuffTree} {i : Nat} {ix : List Nat} (h : Spelled node i t ix) : Spells node i t := by
  induction t generalizing i ix with
  | leaf s w => exact h.1
  | fork l r ihl ihr =>
    obtain ⟨a, b, ia, ib, h1, h2, h3, h4⟩ := h
    exact ⟨a, b, h1, ihl h2, ihr h3⟩

theorem Spells.weight {node : List Node} {t : HuffTree} {i : Nat} (h : Spells node i t) : weightAt node i = t.weight := by
  cases t with
  | leaf s w => simp [Spells] at h; simp [weightAt, h, HuffTree.weight]
  | fork l r => obtain ⟨a, b, h1, -, -⟩ := h; simp [weightAt, h1, HuffTree.weight]

theorem Spelled.reached {node : List Node} {t : HuffTree} {i : Nat} {ix : List Nat} (h : Spelled node i t ix) {fuel : Nat}
    (hf : t.depth < fuel) : reached node fuel i = ix := by
  induction t generalizing i ix fuel with
  | leaf s w =>
    cases fuel with
    | zero => simp at hf
    | succ fuel => simp [Machine.reached, h.1, h.2]
  | fork l r ihl ihr =>
    obtain ⟨a, b, ia, ib, h1, h2, h3, rfl⟩ := h
    cases fuel with
    | zero => simp at hf
    | succ fuel =>
      simp only [HuffTree.depth] at hf
      simp only [Machine.reached, h1]
      rw [ihl h2 (by omega), ihr h3 (by omega)]

theorem HuffTree.length_leaves_pos (t : HuffTree) : 1 ≤ t.leaves.length := by
  induction t with
  | leaf s w => simp [leaves]
  | fork l r ihl ihr => simp [leaves]; omega

theorem HuffTree.depth_lt (t : HuffTree) : t.depth + 1 ≤ t.leaves.length := by
  induction t with
  | leaf s w => simp [leaves, depth]
  | fork l r ihl ihr =>
    have := l.length_leaves_pos
    have := r.length_leaves_pos
    simp [leaves, depth]; omega

theorem HuffTree.weight_eq (t : HuffTree) : t.weight = (t.leaves.map Prod.snd).sum := by
  induction t with
  | leaf s w => simp [leaves, weight]
  | fork l r ihl ihr => simp [leaves, weight, ihl, ihr]

/-- A node is one of the leaves `L`, or an internal node of at most their weight with children below `bound`. -/
def NodeIn (L : List (Symbol × Nat)) (bound : Nat) : Node → Prop
  | .leaf s w => (s, w) ∈ L
  | .internal w l r => w ≤ (L.map Prod.snd).sum ∧ l < bound ∧ r < bound

theorem NodeIn.mono {L : List (Symbol × Nat)} {m k : Nat} {n : Node} (h : NodeIn L m n) (hk : m ≤ k) : NodeIn L k n := by
  cases n with
  | leaf s w => exact h
  | internal w l r => exact ⟨h.1, lt_of_lt_of_le h.2.1 hk, lt_of_lt_of_le h.2.2 hk⟩

/-- A forest: what `TREE_BUILD` holds between two merges, from the leaves `L`; `A` and `B` are as they were before or node indices. -/
structure Forest (L : List (Symbol × Nat)) (a0 b0 : Nat) (t : TreeWork) (tree : Nat → HuffTree) (ix : Nat → List Nat) : Prop where
  rising : t.pq.Pairwise (· < ·)
  lt : ∀ i ∈ t.pq, i < t.node.length
  spelled : ∀ i ∈ t.pq, Spelled t.node i (tree i) (ix i)
  leaves : (t.pq.flatMap (fun i => (tree i).leaves)).Perm L
  indices : (t.pq.flatMap ix).Perm (List.range t.node.length)
  count : t.node.length + t.pq.length = 2 * L.length
  pos : ∀ i < t.node.length, 1 ≤ weightAt t.node i
  last : t.node.length = L.length ∨ t.pq.getLast? = some (t.node.length - 1)
  nodes : ∀ n ∈ t.node, NodeIn L t.node.length n
  args : (t.nodeA = a0 ∧ t.nodeB = b0) ∨ (t.nodeA < t.node.length ∧ t.nodeB < t.node.length)

/-- The members' trees together weigh what the leaves do. -/
theorem Forest.weight {L : List (Symbol × Nat)} {a0 b0 : Nat} {t : TreeWork} {tree : Nat → HuffTree} {ix : Nat → List Nat}
    (h : Forest L a0 b0 t tree ix) : (t.pq.map (fun i => weightAt t.node i)).sum = (L.map Prod.snd).sum := by
  rw [← (h.leaves.map Prod.snd).sum_eq, List.map_congr_left fun i hi => (h.spelled i hi).spells.weight]
  induction t.pq with
  | nil => rfl
  | cons i l ih => rw [List.map_cons, List.sum_cons, ih, List.flatMap_cons, List.map_append, List.sum_append, HuffTree.weight_eq]

theorem weightAt_append_left {node more : List Node} {i : Nat} (h : i < node.length) :
    weightAt (node ++ more) i = weightAt node i := by
  simp only [weightAt, List.getElem?_append_left h]

theorem Forest.merge {L : List (Symbol × Nat)} {a0 b0 : Nat} {t : TreeWork} {tree : Nat → HuffTree} {ix : Nat → List Nat}
    (h : Forest L a0 b0 t tree ix) (h2 : 2 ≤ t.pq.length) :
    ∃ tree' ix', Forest L a0 b0 (mergeStep t) tree' ix' ∧ (mergeStep t).pq.length + 1 = t.pq.length := by
  obtain ⟨a, b, ha, hb, hne, he⟩ := mergeStep_eq t h.rising h.lt h2
  have hnd : t.pq.Nodup := h.rising.imp fun h e => by omega
  have hb' : b ∈ t.pq.erase a := (hnd.mem_erase_iff).2 ⟨hne.symm, hb⟩
  set rest := (t.pq.erase a).erase b with hrest
  have hperm : t.pq.Perm (a :: b :: rest) :=
    (List.perm_cons_erase ha).trans ((List.perm_cons_erase hb').cons a)
  have hsub : ∀ i ∈ rest, i ∈ t.pq := fun i hi => List.mem_of_mem_erase (List.mem_of_mem_erase hi)
  have hN : ∀ i ∈ t.pq, i ≠ t.node.length := fun i hi => (h.lt i hi).ne
  have hlen : t.pq.length = rest.length + 2 := by rw [hperm.length_eq]; simp
  let N := t.node.length
  let tree' := fun i => if i = N then .fork (tree a) (tree b) else tree i
  let ix' := fun i => if i = N then N :: (ix a ++ ix b) else ix i
  have t1 : ∀ i ∈ t.pq, tree' i = tree i := fun i hi => if_neg (hN i hi)
  have t2 : ∀ i ∈ t.pq, ix' i = ix i := fun i hi => if_neg (hN i hi)
  have w : ∀ i ∈ t.pq, weightAt t.node i = (tree i).weight := fun i hi => (h.spelled i hi).spells.weight
  refine ⟨tree', ix', ?_, by rw [he]; simp; omega⟩
  rw [he]
  constructor
  · refine List.pairwise_append.2 ⟨(h.rising.sublist (List.erase_sublist.trans List.erase_sublist)), by simp, ?_⟩
    intro i hi j hj
    simp only [List.mem_singleton] at hj; subst hj
    exact h.lt i (hsub i hi)
  · intro i hi
    rcases List.mem_append.1 hi with hi | hi
    · have := h.lt i (hsub i hi); simp; omega
    · simp only [List.mem_singleton] at hi; subst hi; simp
  · intro i hi
    rcases List.mem_append.1 hi with hi | hi
    · rw [t1 i (hsub i hi), t2 i (hsub i hi)]
      exact (h.spelled i (hsub i hi)).append _
    · simp only [List.mem_singleton] at hi; subst hi
      rw [show tree' t.node.length = .fork (tree a) (tree b) from if_pos rfl,
        show ix' t.node.length = t.node.length :: (ix a ++ ix b) from if_pos rfl]
      refine ⟨a, b, ix a, ix b, ?_, (h.spelled a ha).append _, (h.spelled b hb).append _, rfl⟩
      simp [w a ha, w b hb]
  · simp only [List.flatMap_append, List.flatMap_cons, List.flatMap_nil, List.append_nil]
    have e1 : rest.flatMap (fun i => (tree' i).leaves) = rest.flatMap (fun i => (tree i).leaves) :=
      List.flatMap_congr fun i hi => by rw [t1 i (hsub i hi)]
    rw [e1]
    simp only [N, tree', if_true, HuffTree.leaves]
    refine List.Perm.trans ?_ h.leaves
    refine List.Perm.trans ?_ (hperm.flatMap_right _).symm
    simp only [List.flatMap_cons]
    simpa [List.append_assoc] using
      List.perm_append_comm (l₁ := rest.flatMap (fun i => (tree i).leaves)) (l₂ := (tree a).leaves ++ (tree b).leaves)
  · simp only [List.flatMap_append, List.flatMap_cons, List.flatMap_nil, List.append_nil]
    have e1 : rest.flatMap ix' = rest.flatMap ix := List.flatMap_congr fun i hi => t2 i (hsub i hi)
    rw [e1]
    simp only [N, ix', if_true, List.length_append, List.length_singleton, List.range_succ]
    have e2 : ((ix a ++ ix b) ++ rest.flatMap ix).Perm (List.range t.node.length) := by
      refine List.Perm.trans ?_ h.indices
      refine List.Perm.trans ?_ (hperm.flatMap_right _).symm
      simp
    refine List.Perm.trans List.perm_append_comm ?_
    rw [List.cons_append]
    exact (e2.cons _).trans (List.perm_append_singleton _ _).symm
  · have := h.count
    simp; omega
  · intro i hi
    by_cases hi2 : i < t.node.length
    · rw [weightAt_append_left hi2]; exact h.pos i hi2
    · have : i = t.node.length := by simp at hi; omega
      subst this
      have := h.pos a (h.lt a ha)
      simp [weightAt]; simp [weightAt] at this; omega
  · right; simp
  · intro n hn
    rcases List.mem_append.1 hn with hn | hn
    · exact (h.nodes n hn).mono (by simp)
    · rw [List.mem_singleton.1 hn]
      have hw := h.weight
      rw [(hperm.map _).sum_eq] at hw
      simp only [List.map_cons, List.sum_cons] at hw
      refine ⟨by omega, ?_, ?_⟩ <;> simp only [List.length_append, List.length_singleton]
      · exact Nat.lt_succ_of_lt (h.lt a ha)
      · exact Nat.lt_succ_of_lt (h.lt b hb)
  · right
    simp only [List.length_append, List.length_singleton]
    exact ⟨Nat.lt_succ_of_lt (h.lt a ha), Nat.lt_succ_of_lt (h.lt b hb)⟩

theorem Forest.loop {L : List (Symbol × Nat)} {a0 b0 : Nat} {t : TreeWork} {tree : Nat → HuffTree} {ix : Nat → List Nat}
    (h : Forest L a0 b0 t tree ix) (hne : t.pq ≠ []) (fuel : Nat) (hf : t.pq.length ≤ fuel + 1) :
    ∃ tree' ix', Forest L a0 b0 (mergeLoop fuel t) tree' ix' ∧ (mergeLoop fuel t).pq.length = 1 ∧
      mergeLoop fuel t = mergeStep^[t.pq.length - 1] t := by
  induction fuel generalizing t tree ix with
  | zero =>
    have : t.pq.length = 1 := by have := List.length_pos_iff.2 hne; omega
    exact ⟨tree, ix, h, this, by simp [mergeLoop, this]⟩
  | succ fuel ih =>
    rw [mergeLoop]
    have hpos := List.length_pos_iff.2 hne
    split
    · have : t.pq.length = 1 := by omega
      exact ⟨tree, ix, h, this, by simp [this]⟩
    · obtain ⟨tr, i2, h1, h2⟩ := h.merge (by omega)
      have := ih h1 (by intro e; rw [e] at h2; simp at h2; omega) (by omega)
      obtain ⟨tr', i2', h3, h4, h5⟩ := this
      refine ⟨tr', i2', h3, h4, ?_⟩
      rw [h5, show t.pq.length - 1 = ((mergeStep t).pq.length - 1) + 1 by omega, Function.iterate_succ_apply]

/-- The leaves of a count, ascending. -/
def leafList (o : List Symbol) (f : List Nat) : List (Symbol × Nat) := (present o f).map (fun x => (x, freqAt f x))

theorem forest_loaded (o : List Symbol) (f : List Nat) (a b : Nat) :
    Forest (leafList o f) a b (loadedLeaves o f a b)
      (fun i => .leaf ((present o f).getD i 0) (freqAt f ((present o f).getD i 0))) (fun i => [i]) := by
  rw [loadedLeaves_eq]
  constructor
  · exact List.pairwise_lt_range
  · simp
  · intro i hi
    have hi' : i < (present o f).length := by simpa using hi
    exact ⟨by simp [hi'], rfl⟩
  · simp only [HuffTree.leaves, leafList]
    have : (present o f).map (fun x => (x, freqAt f x)) =
        (List.range (present o f).length).flatMap (fun i => [((present o f).getD i 0, freqAt f ((present o f).getD i 0))]) := by
      rw [← List.map_eq_flatMap]
      refine List.ext_getElem (by simp) fun i h1 h2 => ?_
      have hi' : i < (present o f).length := by simpa using h1
      simp [hi']
    rw [this]
  · simp [List.flatMap_singleton']
  · simp [leafList]; omega
  · intro i hi
    have hi' : i < (present o f).length := by simpa using hi
    have := (mem_present.1 (List.getElem_mem hi')).2
    simpa [weightAt, hi'] using this
  · left; simp [leafList]
  · intro n hn
    obtain ⟨x, hx, rfl⟩ := List.mem_map.1 hn
    exact List.mem_map.2 ⟨x, hx, rfl⟩
  · exact .inl ⟨rfl, rfl⟩

/-- What `TREE_BUILD` leaves where a count is not zero: one tree of all the leaves, after one merge less than there are leaves. -/
theorem builtTree_spec {o : List Symbol} {f : List Nat} (a b : Nat) (hn : (present o f).Nodup) (h : present o f ≠ []) :
    ∃ root t, (builtTree o f a b).pq = [root] ∧ IsTree (builtTree o f a b).node root t ∧ t.leaves.Perm (leafList o f) ∧
      builtTree o f a b = mergeStep^[(present o f).length - 1] (loadedLeaves o f a b) ∧
      (∀ i < (builtTree o f a b).node.length, 1 ≤ weightAt (builtTree o f a b).node i) ∧
      root = (if (present o f).length = 1 then 0 else 2 * (present o f).length - 2) ∧
      (builtTree o f a b).node.length = 2 * (present o f).length - 1 := by
  have hpos := List.length_pos_iff.2 h
  have hpq : (loadedLeaves o f a b).pq.length = (present o f).length := by rw [loadedLeaves_eq]; simp
  obtain ⟨tree, ix, hF, hl, hit⟩ := (forest_loaded o f a b).loop (by intro e; rw [e] at hpq; simp at hpq; omega)
    (loadedLeaves o f a b).pq.length (by omega)
  rw [← builtTree] at hF hl hit
  obtain ⟨root, hr⟩ := List.length_eq_one_iff.1 hl
  have hlen : (leafList o f).length = (present o f).length := by simp [leafList]
  have hin : root ∈ (builtTree o f a b).pq := by simp [hr]
  have hsp := hF.spelled root hin
  have hlv := hF.leaves
  have hix := hF.indices
  have hc := hF.count
  have hlast := hF.last
  rw [hr] at hlv hix hlast
  simp only [List.flatMap_cons, List.flatMap_nil, List.append_nil] at hlv hix
  rw [hr] at hc
  simp only [List.length_singleton, hlen] at hc
  have hd := (tree root).depth_lt
  have hll : (tree root).leaves.length = (present o f).length := by rw [hlv.length_eq, hlen]
  refine ⟨root, tree root, hr, ⟨hsp.spells, ?_, ?_, ?_⟩, hlv, by rw [hit, hpq], hF.pos, ?_, by omega⟩
  · have h1 := hlv.map Prod.fst
    have h2 : (leafList o f).map Prod.fst = present o f := by simp [leafList, Function.comp_def]
    rw [h2] at h1
    exact h1.nodup_iff.2 hn
  · simp only [HuffTree.symbols, List.length_map]; omega
  · rw [hsp.reached (by omega)]; exact hix
  · have := hF.lt root hin
    rcases hlast with h1 | h1
    · rw [hlen] at h1
      have : (present o f).length = 1 := by omega
      rw [if_pos this]; omega
    · simp at h1
      split <;> omega

/-- What `TREE_BUILD` leaves in node memory and in `A` and `B`: nothing heavier than all counts together, no index beyond `NODE_CNT`. -/
theorem builtTree_nodes {o : List Symbol} {f : List Nat} (a b : Nat) (h : present o f ≠ []) :
    (∀ n ∈ (builtTree o f a b).node, NodeIn (leafList o f) (builtTree o f a b).node.length n) ∧
      (((builtTree o f a b).nodeA = a ∧ (builtTree o f a b).nodeB = b) ∨
        ((builtTree o f a b).nodeA < (builtTree o f a b).node.length ∧
          (builtTree o f a b).nodeB < (builtTree o f a b).node.length)) := by
  have hpq : (loadedLeaves o f a b).pq.length = (present o f).length := by rw [loadedLeaves_eq]; simp
  have hpos := List.length_pos_iff.2 h
  obtain ⟨tree, ix, hF, -⟩ := (forest_loaded o f a b).loop (by intro e; rw [e] at hpq; simp at hpq; omega)
    (loadedLeaves o f a b).pq.length (by omega)
  exact ⟨hF.nodes, hF.args⟩

theorem present_eq_nil {o : List Symbol} {f : List Nat} : present o f = [] ↔ ∀ x ∈ o, freqAt f x = 0 := by
  rw [present, List.filter_eq_nil_iff]
  exact forall₂_congr fun x _ => by simp

theorem loaded_pq_nil {o : List Symbol} {f : List Nat} {a b : Nat} : (loadedLeaves o f a b).pq = [] ↔ present o f = [] := by
  rw [loadedLeaves_eq]; simp

/-- The leaves weigh what the counters hold, where the order names every counter once. -/
theorem sum_freq {o : List Symbol} {f : List Nat} (h : o.Perm (List.range f.length)) : ((leafList o f).map Prod.snd).sum = f.sum := by
  have e1 : (o.map (freqAt f)).sum = f.sum := by
    rw [(h.map _).sum_eq]
    congr 1
    exact List.ext_getElem (by simp) fun i h1 h2 => by simp [freqAt, h2]
  have e2 : ∀ L : List Symbol, (((L.filter (fun s => decide (1 ≤ freqAt f s))).map (fun x => (x, freqAt f x))).map Prod.snd).sum
      = (L.map (freqAt f)).sum := by
    intro L
    induction L with
    | nil => rfl
    | cons x L ih =>
      by_cases hx : 1 ≤ freqAt f x
      · simp [hx] at ih ⊢; exact ih
      · have : freqAt f x = 0 := by omega
        simp [this] at ih ⊢; exact ih
  rw [leafList, present, e2, e1]

end Sys2Proof.Machine
end

