-- ==== Sys2Proof/Laws/Codes.lean ====
section
/-! SUPPORT. Code assignment (43_code_generator.md): the traversal gives the paths, the table holds them, and no code is a prefix of another. -/

namespace Sys2Proof.Machine

variable {cfg : Config}

theorem Spells.visit {node : List Node} {t : HuffTree} {i : Nat} (h : Spells node i t) {fuel : Nat} (hf : t.depth < fuel)
    (path : Bits) : visit node fuel i path = t.paths.map (fun e => (e.1, path ++ e.2)) := by
  induction t generalizing i fuel path with
  | leaf s w =>
    cases fuel with
    | zero => simp at hf
    | succ fuel => simp only [Spells] at h; simp [Machine.visit, h, HuffTree.paths]
  | fork l r ihl ihr =>
    obtain ⟨a, b, h1, h2, h3⟩ := h
    cases fuel with
    | zero => simp at hf
    | succ fuel =>
      simp only [HuffTree.depth] at hf
      simp only [Machine.visit, h1]
      rw [ihl h2 (by omega), ihr h3 (by omega)]
      simp [HuffTree.paths, Function.comp_def]

/-- The assignments of a tree: its paths, or the degenerate code. -/
def HuffTree.codes (cfg : Config) : HuffTree → List (Symbol × Bits)
  | .leaf s _ => [(s, cfg.degenCode)]
  | .fork l r => (HuffTree.fork l r).paths

theorem IsTree.depth_lt {node : List Node} {root : Nat} {t : HuffTree} (h : IsTree node root t) : t.depth < node.length := by
  have h1 := t.depth_lt
  have h2 := h.2.2.1
  simp only [HuffTree.symbols, List.length_map] at h2
  omega

theorem IsTree.codeAssignments {node : List Node} {root : Nat} {t : HuffTree} (h : IsTree node root t) :
    codeAssignments cfg.degenCode node root = t.codes cfg := by
  cases ht : t with
  | leaf s w =>
    subst ht
    have := h.1
    simp only [Spells] at this
    simp [Machine.codeAssignments, this, HuffTree.codes]
  | fork l r =>
    subst ht
    obtain ⟨a, b, h1, h2, h3⟩ := h.1
    simp only [Machine.codeAssignments, h1]
    rw [h.1.visit h.depth_lt]
    simp [HuffTree.codes]

theorem HuffTree.paths_symbols (t : HuffTree) : t.paths.map Prod.fst = t.symbols := by
  induction t with
  | leaf s w => simp [paths, symbols, leaves]
  | fork l r ihl ihr =>
    simp only [symbols, leaves, paths, List.map_append, List.map_map, Function.comp_def] at *
    rw [ihl, ihr]

theorem HuffTree.codes_symbols (cfg : Config) (t : HuffTree) : (t.codes cfg).map Prod.fst = t.symbols := by
  cases t with
  | leaf s w => simp [codes, symbols, leaves]
  | fork l r => exact paths_symbols _

theorem HuffTree.paths_prefix (t : HuffTree) {x y : Symbol} {c d : Bits} (hx : (x, c) ∈ t.paths) (hy : (y, d) ∈ t.paths)
    (h : c <+: d) : x = y ∧ c = d ∨ ¬ t.symbols.Nodup ∧ c = d := by
  induction t generalizing c d with
  | leaf s w => simp [paths] at hx hy; left; exact ⟨hx.1.trans hy.1.symm, hx.2.trans hy.2.symm⟩
  | fork l r ihl ihr =>
    simp only [paths, List.mem_append, List.mem_map, Prod.mk.injEq, Prod.exists] at hx hy
    have nd : ∀ q : HuffTree, q = l ∨ q = r → ¬ q.symbols.Nodup → ¬ (HuffTree.fork l r).symbols.Nodup := by
      intro q hq hn hN
      simp only [symbols, leaves, List.map_append] at hN
      rcases hq with rfl | rfl
      · exact hn (List.nodup_append.1 hN).1
      · exact hn (List.nodup_append.1 hN).2.1
    rcases hx with ⟨x', c', hx, rfl, rfl⟩ | ⟨x', c', hx, rfl, rfl⟩ <;>
      rcases hy with ⟨y', d', hy, rfl, rfl⟩ | ⟨y', d', hy, rfl, rfl⟩
    · rw [List.cons_prefix_cons] at h
      rcases ihl hx hy h.2 with ⟨h1, h2⟩ | ⟨h1, h2⟩
      · exact .inl ⟨h1, by rw [h2]⟩
      · exact .inr ⟨nd l (.inl rfl) h1, by rw [h2]⟩
    · simp at h
    · simp at h
    · rw [List.cons_prefix_cons] at h
      rcases ihr hx hy h.2 with ⟨h1, h2⟩ | ⟨h1, h2⟩
      · exact .inl ⟨h1, by rw [h2]⟩
      · exact .inr ⟨nd r (.inr rfl) h1, by rw [h2]⟩

theorem HuffTree.codes_prefix (t : HuffTree) (hn : t.symbols.Nodup) {x y : Symbol} {c d : Bits} (hx : (x, c) ∈ t.codes cfg)
    (hy : (y, d) ∈ t.codes cfg) (h : c <+: d) : x = y ∧ c = d := by
  cases t with
  | leaf s w => simp [codes] at hx hy; exact ⟨hx.1.trans hy.1.symm, hx.2.trans hy.2.symm⟩
  | fork l r =>
    rcases paths_prefix _ hx hy h with h | h
    · exact h
    · exact absurd hn h.1

theorem HuffTree.paths_length (t : HuffTree) {x : Symbol} {c : Bits} (hx : (x, c) ∈ t.paths) : c.length ≤ t.depth := by
  induction t generalizing c with
  | leaf s w => simp [paths] at hx; simp [hx]
  | fork l r ihl ihr =>
    simp only [paths, List.mem_append, List.mem_map, Prod.mk.injEq, Prod.exists] at hx
    rcases hx with ⟨x', c', hx, rfl, rfl⟩ | ⟨x', c', hx, rfl, rfl⟩
    · have := ihl hx; simp [depth]; omega
    · have := ihr hx; simp [depth]; omega

theorem HuffTree.codes_length (t : HuffTree) {x : Symbol} {c : Bits} (hx : (x, c) ∈ t.codes cfg) :
    1 ≤ c.length ∧ c.length ≤ max 1 t.depth := by
  cases t with
  | leaf s w => simp [codes] at hx; simp [hx, Config.degenCode]
  | fork l r =>
    have := paths_length _ hx
    refine ⟨?_, by omega⟩
    simp only [codes, paths, List.mem_append, List.mem_map, Prod.mk.injEq, Prod.exists] at hx
    rcases hx with ⟨x', c', hx, rfl, rfl⟩ | ⟨x', c', hx, rfl, rfl⟩ <;> simp

theorem mem_fold (as : List (Symbol × Bits)) (code : CodeTable) {e : Symbol × Bits}
    (h : e ∈ as.foldl (fun code e => setCode e.1 e.2 code) code) : e ∈ as ∨ e ∈ code := by
  induction as generalizing code with
  | nil => exact .inr h
  | cons f as ih =>
    rcases ih _ h with h | h
    · exact .inl (List.mem_cons_of_mem _ h)
    · rcases mem_of_mem_setCode h with rfl | h
      · exact .inl List.mem_cons_self
      · exact .inr h

/-- Every symbol the traversal meets is one of a leaf in use. -/
theorem mem_visit {node : List Node} {fuel i : Nat} {path : Bits} {e : Symbol × Bits} (h : e ∈ visit node fuel i path) :
    ∃ w, Node.leaf e.1 w ∈ node := by
  induction fuel generalizing i path with
  | zero => simp [visit] at h
  | succ fuel ih =>
    simp only [visit] at h
    split at h
    · rename_i s w hn
      rw [List.mem_singleton.1 h]
      exact ⟨w, List.mem_of_getElem? hn⟩
    · rcases List.mem_append.1 h with h | h <;> exact ih h
    · simp at h

/-- Every symbol of the table `CODE_ASSIGN` writes is one of a leaf in use, whatever is in node memory. -/
theorem mem_codeTable {node : List Node} {root : Nat} {degenCode : Bits} {e : Symbol × Bits} (h : e ∈ codeTable degenCode node root) :
    ∃ w, Node.leaf e.1 w ∈ node := by
  rcases mem_fold _ _ h with h | h
  · simp only [codeAssignments] at h
    split at h
    · rename_i s w hn
      rw [List.mem_singleton.1 h]
      exact ⟨w, List.mem_of_getElem? hn⟩
    · exact mem_visit h
    · simp at h
  · simp at h

theorem rising_fold (as : List (Symbol × Bits)) (code : CodeTable) (h : Rising code) :
    Rising (as.foldl (fun code e => setCode e.1 e.2 code) code) := by
  induction as generalizing code with
  | nil => exact h
  | cons e as ih => exact ih _ (rising_setCode _ _ h)

theorem codeOf_fold_of_not_mem (as : List (Symbol × Bits)) (code : CodeTable) (x : Symbol) (h : x ∉ as.map Prod.fst) :
    codeOf (as.foldl (fun code e => setCode e.1 e.2 code) code) x = codeOf code x := by
  induction as generalizing code with
  | nil => rfl
  | cons e as ih =>
    simp only [List.map_cons, List.mem_cons, not_or] at h
    rw [List.foldl_cons, ih _ h.2, codeOf_setCode_of_ne _ _ h.1]

theorem codeOf_fold (as : List (Symbol × Bits)) (code : CodeTable) (hn : (as.map Prod.fst).Nodup) (x : Symbol) (c : Bits)
    (hx : ∀ e ∈ as, codeOf code e.1 = none) :
    codeOf (as.foldl (fun code e => setCode e.1 e.2 code) code) x = some c ↔ (x, c) ∈ as ∨ codeOf code x = some c := by
  induction as generalizing code with
  | nil => simp
  | cons e as ih =>
    simp only [List.map_cons, List.nodup_cons] at hn
    rw [List.foldl_cons, ih _ hn.2]
    · by_cases h : x = e.1
      · subst h
        rw [codeOf_setCode_self, hx e (by simp)]
        have : (e.1, c) ∉ as := fun h => hn.1 (List.mem_map.2 ⟨_, h, rfl⟩)
        simp [this]
        constructor
        · rintro rfl; rfl
        · intro h; rw [← h]
      · rw [codeOf_setCode_of_ne _ _ h]
        have : (x, c) ≠ e := fun e' => h (by rw [← e'])
        simp [this]
    · intro e' he'
      rw [codeOf_setCode_of_ne _ _ (fun h => hn.1 (by rw [← h]; exact List.mem_map.2 ⟨_, he', rfl⟩))]
      exact hx _ (List.mem_cons_of_mem _ he')

theorem IsTree.codeOf_iff {node : List Node} {root : Nat} {t : HuffTree} (h : IsTree node root t) (x : Symbol) (c : Bits) :
    codeOf (codeTable cfg.degenCode node root) x = some c ↔ (x, c) ∈ t.codes cfg := by
  rw [codeTable, h.codeAssignments, codeOf_fold _ _ (by rw [HuffTree.codes_symbols cfg t]; exact h.2.1) _ _ (by simp)]
  simp

theorem rising_codeTable {node : List Node} {root : Nat} : Rising (codeTable cfg.degenCode node root) :=
  rising_fold _ _ rising_nil

theorem IsTree.mem_iff {node : List Node} {root : Nat} {t : HuffTree} (h : IsTree node root t) (x : Symbol) (c : Bits) :
    (x, c) ∈ codeTable cfg.degenCode node root ↔ (x, c) ∈ t.codes cfg := by
  rw [← h.codeOf_iff]
  exact (lookup_eq_some_iff_mem rising_codeTable).symm

theorem IsTree.rct_iff {node : List Node} {root : Nat} {t : HuffTree} (h : IsTree node root t) (x : Symbol) (c : Bits) :
    rctLookup (codeTable cfg.degenCode node root) c = some x ↔ (x, c) ∈ t.codes cfg := by
  constructor
  · intro hr; exact (h.mem_iff x c).1 (mem_of_rctLookup hr)
  · intro hm
    cases hr : rctLookup (codeTable cfg.degenCode node root) c with
    | none => exact absurd rfl (rctLookup_eq_none_iff.1 hr _ ((h.mem_iff x c).2 hm))
    | some y =>
      have := (h.mem_iff y c).1 (mem_of_rctLookup hr)
      rw [(HuffTree.codes_prefix t h.2.1 this hm (List.prefix_refl _)).1]

theorem IsTree.prefixFree {node : List Node} {root : Nat} {t : HuffTree} (h : IsTree node root t) :
    PrefixFree (codeTable cfg.degenCode node root) := by
  intro a b c d ha hb hne hp
  exact hne (HuffTree.codes_prefix t h.2.1 ((h.codeOf_iff a c).1 ha) ((h.codeOf_iff b d).1 hb) hp).1

theorem nodup_symbols_length {l : List Symbol} {n : Nat} (h : l.Nodup) (hl : ∀ x ∈ l, x < n) : l.length ≤ n := by
  have := (h.subperm (fun x hx => List.mem_range.2 (hl x hx) : l ⊆ List.range n)).length_le
  simpa using this

theorem IsTree.code_length {node : List Node} {root : Nat} {t : HuffTree} (h : IsTree node root t) {x : Symbol} {c : Bits}
    (hc : codeOf (codeTable cfg.degenCode node root) x = some c) : 1 ≤ c.length ∧ c.length ≤ max 1 (t.symbols.length - 1) := by
  obtain ⟨h1, h2⟩ := HuffTree.codes_length t ((h.codeOf_iff x c).1 hc)
  have h3 := t.depth_lt
  simp only [HuffTree.symbols, List.length_map]
  omega

theorem IsTree.code_length_le {node : List Node} {root : Nat} {t : HuffTree} (h : IsTree node root t) {x : Symbol} {c : Bits}
    (hw : cfg.wellFormed = true) (hs : ∀ y ∈ t.symbols, y < cfg.nSym) (hc : codeOf (codeTable cfg.degenCode node root) x = some c) :
    c.length ≤ cfg.maxCodeLen := by
  have h1 := (h.code_length hc).2
  have h2 := nodup_symbols_length h.2.1 hs
  have h3 := Config.two_le_nSym hw
  simp only [Config.maxCodeLen]; omega

theorem IsTree.length_code {node : List Node} {root : Nat} {t : HuffTree} (h : IsTree node root t) :
    (codeTable cfg.degenCode node root).length = t.symbols.length := by
  have h1 : (codeTable cfg.degenCode node root).Perm (t.codes cfg) := by
    refine (List.perm_ext_iff_of_nodup ?_ ?_).2 fun e => h.mem_iff e.1 e.2
    · have := rising_codeTable (cfg := cfg) (node := node) (root := root)
      unfold Rising at this
      rw [List.pairwise_map] at this
      exact this.imp fun h e => by subst e; exact lt_irrefl _ h
    · have h2 := h.2.1
      rw [← HuffTree.codes_symbols cfg t] at h2
      exact List.Nodup.of_map _ h2
  rw [h1.length_eq, ← HuffTree.codes_symbols cfg t, List.length_map]

theorem Spells.descend {node : List Node} {t : HuffTree} {i : Nat} (h : Spells node i t) (c : Bits) (x : Symbol) :
    (∃ j w, descend node i c = some j ∧ node[j]? = some (.leaf x w)) ↔ (x, c) ∈ t.paths := by
  induction t generalizing i c with
  | leaf s w =>
    simp only [Spells] at h
    cases c with
    | nil => simp [Machine.descend, h, HuffTree.paths]; exact eq_comm
    | cons b bs => simp [Machine.descend, h, HuffTree.paths]
  | fork l r ihl ihr =>
    obtain ⟨a, b, h1, h2, h3⟩ := h
    cases c with
    | nil => simp [Machine.descend, h1, HuffTree.paths]
    | cons d ds =>
      simp only [Machine.descend, h1]
      cases d
      · rw [show (if (false : Bool) = true then b else a) = a from rfl, ihl h2]
        simp [HuffTree.paths]
      · rw [show (if (true : Bool) = true then b else a) = b from rfl, ihr h3]
        simp [HuffTree.paths]

theorem symbols_perm {o : List Symbol} {f : List Nat} {hf : HuffTree} (h : hf.leaves.Perm (leafList o f)) : hf.symbols.Perm (present o f) := by
  have h1 := h.map Prod.fst
  have h2 : (leafList o f).map Prod.fst = present o f := by simp [leafList, Function.comp_def]
  rwa [h2] at h1

theorem IsTree.codeOf_ne_none {node : List Node} {root : Nat} {t : HuffTree} (h : IsTree node root t) (x : Symbol) :
    codeOf (codeTable cfg.degenCode node root) x ≠ none ↔ x ∈ t.symbols := by
  rw [← HuffTree.codes_symbols cfg t, List.mem_map, Option.ne_none_iff_exists']
  constructor
  · rintro ⟨c, hc⟩; exact ⟨(x, c), (h.codeOf_iff x c).1 hc, rfl⟩
  · rintro ⟨⟨y, c⟩, hc, rfl⟩; exact ⟨c, (h.codeOf_iff y c).2 hc⟩

end Sys2Proof.Machine
end

