-- ==== Sys2Proof/Laws/Flags.lean ====
section
/-! SUPPORT. The `STATUS` words the rules write, as numbers (95_test_vectors.md V-ERR), and their fields. -/

namespace Sys2Proof.Machine

theorem statusRunning_eq : statusRunning = 0x0001 := by decide

theorem statusSuccess_eq : statusSuccess = 0x0002 := by decide

/-- The fields of a packed `STATUS`. -/
theorem packStatus_fields (busy done err : Bool) (c k : BitVec 4) :
    (packStatus busy done err c k).getLsbD 0 = busy ∧ (packStatus busy done err c k).getLsbD 1 = done ∧
      (packStatus busy done err c k).getLsbD 2 = err ∧ (packStatus busy done err c k).extractLsb' 4 4 = c ∧
      (packStatus busy done err c k).extractLsb' 8 4 = k := by
  revert busy done err c k; decide

/-- An error leaves `BUSY = 0`, `DONE = 1`, `ERR = 1`, its code and its stage. -/
theorem statusError_fields (e : ErrorKind) (k : BitVec 4) (s : State) (h : s.status = statusError e k) :
    s.busy = false ∧ s.done = true ∧ s.err = true ∧ s.errCode = e.code ∧ s.errStage = k := by
  simp only [State.busy, State.done, State.err, State.errCode, State.errStage, h]
  exact packStatus_fields false true true e.code k

end Sys2Proof.Machine
end

