-- ==== Sys2Proof/Laws/Ops.lean ====
section
/-! SUPPORT. What each shared operation of Machine/Ops.lean can do, said once. -/

namespace Sys2Proof.Machine

/-- A `CMD` write while busy does nothing, whatever its action. -/
theorem State.issue_busy {s : State} (action : State → State) (h : s.busy = true) : s.issue action = s := by
  simp [State.issue, h]

/-- A `CMD` write while idle is its action. -/
theorem State.issue_idle {s : State} (action : State → State) (h : s.busy = false) : s.issue action = action s := by
  simp [State.issue, h]

/-- Raising an error in a stage of `COMPRESS`. -/
theorem State.raise_of_compress {i : Instr} (e : ErrorKind) (s : State) (h : ofCompress i = true) :
    s.raise e i = compressFailed (statusError e (stageId i)) s := by
  simp [State.raise, h, State.abandonCompress, compressFailed]

/-- Raising an error in a stage of `DECOMPRESS`. -/
theorem State.raise_of_decompress {i : Instr} (e : ErrorKind) (s : State) (h : ofCompress i = false) :
    s.raise e i = decompressFailed (statusError e (stageId i)) s := by
  simp [State.raise, h, State.abandonDecompress, decompressFailed]

theorem lt_two_pow_leastWidth (n : Nat) : n < 2 ^ leastWidth n := by
  unfold leastWidth
  split
  · simp [*]
  · exact Nat.lt_log2_self

/-- A length that fits `TXT` fits `TXT_LEN`. -/
theorem truncate_wTLen {c : Config} {n : Nat} (h : n ≤ c.maxTxt) : truncate c.wTLen n = n :=
  truncate_of_lt (lt_of_le_of_lt h (lt_two_pow_leastWidth _))

/-- A length that fits `BIN` fits `BIN_LEN`. -/
theorem truncate_wBLen {c : Config} {n : Nat} (h : n ≤ c.maxBin) : truncate c.wBLen n = n :=
  truncate_of_lt (lt_of_le_of_lt h (lt_two_pow_leastWidth _))

end Sys2Proof.Machine
end

