-- ==== Sys2Proof/Laws/Payload.lean ====
section
/-! SUPPORT. Payloads: writing the codes one after the other (44_bit_packer.md) and reading them off again (46_decoder.md). -/

namespace Sys2Proof.Machine

theorem decodeLoop_code (code : CodeTable) (maxTxt : Nat) (c : Bits) (s : Symbol) (cand rest : Bits) (out : List Symbol)
    (hc : c ≠ []) (hs : rctLookup code (cand ++ c) = some s)
    (hp : ∀ p, p ≠ [] → p <+: c → p ≠ c → rctLookup code (cand ++ p) = none) :
    decodeLoop code maxTxt (c ++ rest) cand out =
      if out.length = maxTxt then .overflow else decodeLoop code maxTxt rest [] (out ++ [s]) := by
  induction c generalizing cand with
  | nil => exact absurd rfl hc
  | cons b bs ih =>
    rw [List.cons_append, decodeLoop]
    rcases eq_or_ne bs [] with rfl | hbs
    · rw [hs]; rfl
    · have := hp [b] (by simp) (by simp) (by simpa using hbs.symm)
      rw [this]
      dsimp only
      refine ih (cand ++ [b]) hbs (by simpa using hs) fun p h1 h2 h3 => ?_
      have := hp (b :: p) (by simp) (by simpa using h2) (by simpa using h3)
      simpa using this

theorem decodeLoop_rest (code : CodeTable) (maxTxt : Nat) (rest cand : Bits) (out : List Symbol) (hr : cand ++ rest ≠ [])
    (hp : ∀ p, p ≠ [] → p <+: rest → rctLookup code (cand ++ p) = none) :
    decodeLoop code maxTxt rest cand out = .corrupt := by
  induction rest generalizing cand with
  | nil => rw [decodeLoop, if_neg (by simpa using hr)]
  | cons b bs ih =>
    rw [decodeLoop, hp [b] (by simp) (by simp)]
    exact ih (cand ++ [b]) (by simp) fun p h1 h2 => by
      have := hp (b :: p) (by simp) (by simpa using h2)
      simpa using this

theorem decodeLoop_recovers (code : CodeTable) (maxTxt : Nat) {cs : List Bits} {symbols : List Symbol}
    (h : Recovers code cs symbols) (hne : ∀ c ∈ cs, c ≠ []) (rest : Bits) (out : List Symbol) (ho : out.length ≤ maxTxt) :
    decodeLoop code maxTxt (cs.flatten ++ rest) [] out =
      if out.length + symbols.length ≤ maxTxt then decodeLoop code maxTxt rest [] (out ++ symbols) else .overflow := by
  induction h generalizing out with
  | nil => simp [ho]
  | @cons c s cs symbols hcs hr ih =>
    rw [List.flatten_cons, List.append_assoc,
      decodeLoop_code code maxTxt c s [] _ out (hne c (by simp)) (by simpa using hcs.1) (by simpa using hcs.2)]
    split
    · rw [if_neg (by simp; omega)]
    · rw [ih (fun c hc => hne c (List.mem_cons_of_mem _ hc)) _ (by simp; omega)]
      simp only [List.length_append, List.length_cons, List.length_nil, List.append_assoc, List.singleton_append]
      have : (out.length + (0 + 1) + symbols.length ≤ maxTxt) ↔ (out.length + (symbols.length + 1) ≤ maxTxt) := by omega
      simp only [this]

theorem decodeLoop_overflow {code : CodeTable} {maxTxt : Nat} (enc cand : Bits) (out : List Symbol) (ho : out.length ≤ maxTxt)
    (hp : ∀ p, p ≠ [] → p <+: cand → rctLookup code p = none) (h : decodeLoop code maxTxt enc cand out = .overflow) :
    ∃ cs symbols rest, Recovers code cs symbols ∧ (∀ c ∈ cs, c ≠ []) ∧ cand ++ enc = cs.flatten ++ rest ∧
      out.length + symbols.length = maxTxt + 1 := by
  have nil : ∀ p : Bits, p ≠ [] → p <+: [] → rctLookup code p = none := fun p h1 h2 => absurd (List.prefix_nil.1 h2) h1
  induction enc generalizing cand out with
  | nil => rw [decodeLoop] at h; split at h <;> cases h
  | cons b bs ih =>
    rw [decodeLoop] at h
    split at h
    · rename_i x hx
      have hc : rctLookup code (cand ++ [b]) = some x ∧
          ∀ p, p ≠ [] → p <+: cand ++ [b] → p ≠ cand ++ [b] → rctLookup code p = none :=
        ⟨hx, fun p h1 h2 h3 => (List.prefix_concat_iff.1 h2).elim (absurd · h3) (hp p h1)⟩
      split at h
      · exact ⟨[cand ++ [b]], [x], bs, .cons hc .nil, by simp, by simp, by simp [*]⟩
      · obtain ⟨cs, symbols, rest, h1, h2, h3, h4⟩ := ih [] (out ++ [x]) (by simp; omega) nil h
        refine ⟨(cand ++ [b]) :: cs, x :: symbols, rest, .cons hc h1, ?_, by simpa using h3, by simp at h4 ⊢; omega⟩
        simpa using h2
    · rename_i hx
      obtain ⟨cs, symbols, rest, h1, h2, h3, h4⟩ := ih (cand ++ [b]) out ho (fun p h1 h2 =>
        (List.prefix_concat_iff.1 h2).elim (fun e => by rw [e]; exact hx) (hp p h1)) h
      exact ⟨cs, symbols, rest, h1, h2, by simpa using h3, h4⟩

/-- `DECODE` runs out of room exactly where more than `MAX_TXT` code words can be read off the payload. -/
theorem decodePayload_overflow {code : CodeTable} {maxTxt : Nat} {enc : Bits} :
    decodePayload code maxTxt enc = .overflow ↔ TooManySymbols code maxTxt enc := by
  constructor
  · intro h
    obtain ⟨cs, symbols, rest, h1, h2, h3, h4⟩ := decodeLoop_overflow enc [] [] (Nat.zero_le _)
      (fun p h1 h2 => absurd (List.prefix_nil.1 h2) h1) h
    exact ⟨cs, symbols, rest, h1, h2, by simpa using h3, by simpa using h4⟩
  · rintro ⟨cs, symbols, rest, h1, h2, rfl, h4⟩
    rw [decodePayload, decodeLoop_recovers code maxTxt h1 h2 rest [] (Nat.zero_le _), if_neg (by simp; omega)]

theorem payload_forall₂ {code : CodeTable} {xs : List Symbol} {cs : List Bits}
    (h : List.Forall₂ (fun x c => codeOf code x = some c) xs cs) : payload code xs = some cs.flatten := by
  induction h with
  | nil => rfl
  | cons h1 h2 ih => simp [payload, h1, ih]

theorem payload_none {code : CodeTable} {xs : List Symbol} {x : Symbol} (h : x ∈ xs) (hc : codeOf code x = none) :
    payload code xs = none := by
  induction xs with
  | nil => simp at h
  | cons y ys ih =>
    rcases List.mem_cons.1 h with rfl | h
    · simp [payload, hc]
    · rw [payload, ih h]; cases codeOf code y <;> rfl

theorem payload_some {code : CodeTable} {xs : List Symbol} (h : ∀ x ∈ xs, codeOf code x ≠ none) :
    ∃ cs, List.Forall₂ (fun x c => codeOf code x = some c) xs cs := by
  induction xs with
  | nil => exact ⟨[], .nil⟩
  | cons y ys ih =>
    obtain ⟨cs, hcs⟩ := ih fun x hx => h x (List.mem_cons_of_mem _ hx)
    obtain ⟨c, hc⟩ := Option.ne_none_iff_exists'.1 (h y (by simp))
    exact ⟨c :: cs, .cons hc hcs⟩

end Sys2Proof.Machine
end

