-- ==== Sys2Proof/Laws/PerInstr.lean ====
section
/-! SUPPORT. Statements made for every instruction, one lemma per constructor. -/

namespace Sys2Proof.Laws.EncodeDecode

/-- `i` is well formed, its word is well formed and decodes to it, and no other word does (30_encoding.md R71, R73). -/
def Statement (i : Instr) : Prop :=
  i.wellFormed = true ∧ (Sys2Proof.encode i).wellFormed = true ∧ Sys2Proof.decode (Sys2Proof.encode i) = .ok i ∧
    (∀ v, Sys2Proof.decodeCmd v = .ok i → Sys2Proof.encode i = .cmd8 v) ∧
    ∀ k, Sys2Proof.decodeStage k = .ok i → Sys2Proof.encode i = .stage4 k

theorem compress : Statement .compress := by unfold Statement; decide

theorem decompress : Statement .decompress := by unfold Statement; decide

theorem clear : Statement .clear := by unfold Statement; decide

theorem trim : Statement .trim := by unfold Statement; decide

theorem freq : Statement .freq := by unfold Statement; decide

theorem treeBuild : Statement .treeBuild := by unfold Statement; decide

theorem codeAssign : Statement .codeAssign := by unfold Statement; decide

theorem encode : Statement .encode := by unfold Statement; decide

theorem pad : Statement .pad := by unfold Statement; decide

theorem serialize : Statement .serialize := by unfold Statement; decide

theorem deserialize : Statement .deserialize := by unfold Statement; decide

theorem unpad : Statement .unpad := by unfold Statement; decide

theorem decode : Statement .decode := by unfold Statement; decide

end Sys2Proof.Laws.EncodeDecode
end

