-- ==== Sys2Proof/Laws/State.lean ====
section
/-! SUPPORT. What each named update of the state leaves in each field, so that no proof unfolds a record update. -/

namespace Sys2Proof.Machine

@[simp] theorem State.advance_cfg (i : Instr) (s : State) : (s.advance i).cfg = s.cfg := rfl
@[simp] theorem State.advance_status (i : Instr) (s : State) : (s.advance i).status = s.status := rfl
@[simp] theorem State.advance_txtLen (i : Instr) (s : State) : (s.advance i).txtLen = s.txtLen := rfl
@[simp] theorem State.advance_binLen (i : Instr) (s : State) : (s.advance i).binLen = s.binLen := rfl
@[simp] theorem State.advance_txt (i : Instr) (s : State) : (s.advance i).txt = s.txt := rfl
@[simp] theorem State.advance_bin (i : Instr) (s : State) : (s.advance i).bin = s.bin := rfl
@[simp] theorem State.advance_code (i : Instr) (s : State) : (s.advance i).code = s.code := rfl
@[simp] theorem State.advance_node (i : Instr) (s : State) : (s.advance i).node = s.node := rfl
@[simp] theorem State.advance_root (i : Instr) (s : State) : (s.advance i).root = s.root := rfl
@[simp] theorem State.advance_seq (i : Instr) (s : State) : (s.advance i).seq = stageId i := rfl
@[simp] theorem State.advance_freq (i : Instr) (s : State) : (s.advance i).freq = s.freq := rfl
@[simp] theorem State.advance_pq (i : Instr) (s : State) : (s.advance i).pq = s.pq := rfl
@[simp] theorem State.advance_enc (i : Instr) (s : State) : (s.advance i).enc = s.enc := rfl
@[simp] theorem State.advance_pad (i : Instr) (s : State) : (s.advance i).pad = s.pad := rfl
@[simp] theorem State.advance_wlen (i : Instr) (s : State) : (s.advance i).wlen = s.wlen := rfl
@[simp] theorem State.advance_idx (i : Instr) (s : State) : (s.advance i).idx = s.idx := rfl
@[simp] theorem State.advance_nodeA (i : Instr) (s : State) : (s.advance i).nodeA = s.nodeA := rfl
@[simp] theorem State.advance_nodeB (i : Instr) (s : State) : (s.advance i).nodeB = s.nodeB := rfl
@[simp] theorem State.advance_payloadLen (i : Instr) (s : State) : (s.advance i).payloadLen = s.payloadLen := rfl
@[simp] theorem State.advance_extra (i : Instr) (s : State) : (s.advance i).extra = s.extra := rfl
@[simp] theorem State.advance_cand (i : Instr) (s : State) : (s.advance i).cand = s.cand := rfl
@[simp] theorem State.advance_walker (i : Instr) (s : State) : (s.advance i).walker = s.walker := rfl
@[simp] theorem State.advance_nOut (i : Instr) (s : State) : (s.advance i).nOut = s.nOut := rfl
@[simp] theorem State.advance_stack (i : Instr) (s : State) : (s.advance i).stack = s.stack := rfl
@[simp] theorem State.advance_host (i : Instr) (s : State) : (s.advance i).host = s.host := rfl
@[simp] theorem State.advance_readData (i : Instr) (s : State) : (s.advance i).readData = s.readData := rfl
@[simp] theorem State.advance_freeCount (i : Instr) (s : State) : (s.advance i).freeCount = s.freeCount := rfl

@[simp] theorem State.start_cfg (i : Instr) (s : State) : (s.start i).cfg = s.cfg := rfl
@[simp] theorem State.start_status (i : Instr) (s : State) : (s.start i).status = statusRunning := rfl
@[simp] theorem State.start_txtLen (i : Instr) (s : State) : (s.start i).txtLen = s.txtLen := rfl
@[simp] theorem State.start_binLen (i : Instr) (s : State) : (s.start i).binLen = s.binLen := rfl
@[simp] theorem State.start_txt (i : Instr) (s : State) : (s.start i).txt = s.txt := rfl
@[simp] theorem State.start_bin (i : Instr) (s : State) : (s.start i).bin = s.bin := rfl
@[simp] theorem State.start_code (i : Instr) (s : State) : (s.start i).code = s.code := rfl
@[simp] theorem State.start_node (i : Instr) (s : State) : (s.start i).node = s.node := rfl
@[simp] theorem State.start_root (i : Instr) (s : State) : (s.start i).root = s.root := rfl
@[simp] theorem State.start_seq (i : Instr) (s : State) : (s.start i).seq = stageId i := rfl
@[simp] theorem State.start_freq (i : Instr) (s : State) : (s.start i).freq = s.freq := rfl
@[simp] theorem State.start_pq (i : Instr) (s : State) : (s.start i).pq = s.pq := rfl
@[simp] theorem State.start_enc (i : Instr) (s : State) : (s.start i).enc = s.enc := rfl
@[simp] theorem State.start_pad (i : Instr) (s : State) : (s.start i).pad = s.pad := rfl
@[simp] theorem State.start_wlen (i : Instr) (s : State) : (s.start i).wlen = s.wlen := rfl
@[simp] theorem State.start_idx (i : Instr) (s : State) : (s.start i).idx = s.idx := rfl
@[simp] theorem State.start_nodeA (i : Instr) (s : State) : (s.start i).nodeA = s.nodeA := rfl
@[simp] theorem State.start_nodeB (i : Instr) (s : State) : (s.start i).nodeB = s.nodeB := rfl
@[simp] theorem State.start_payloadLen (i : Instr) (s : State) : (s.start i).payloadLen = s.payloadLen := rfl
@[simp] theorem State.start_extra (i : Instr) (s : State) : (s.start i).extra = s.extra := rfl
@[simp] theorem State.start_cand (i : Instr) (s : State) : (s.start i).cand = s.cand := rfl
@[simp] theorem State.start_walker (i : Instr) (s : State) : (s.start i).walker = s.walker := rfl
@[simp] theorem State.start_nOut (i : Instr) (s : State) : (s.start i).nOut = s.nOut := rfl
@[simp] theorem State.start_stack (i : Instr) (s : State) : (s.start i).stack = s.stack := rfl
@[simp] theorem State.start_host (i : Instr) (s : State) : (s.start i).host = s.host := rfl
@[simp] theorem State.start_readData (i : Instr) (s : State) : (s.start i).readData = s.readData := rfl
@[simp] theorem State.start_freeCount (i : Instr) (s : State) : (s.start i).freeCount = s.freeCount := rfl

@[simp] theorem State.acknowledge_cfg (s : State) : s.acknowledge.cfg = s.cfg := rfl
@[simp] theorem State.acknowledge_status (s : State) : s.acknowledge.status = statusRunning := rfl
@[simp] theorem State.acknowledge_txtLen (s : State) : s.acknowledge.txtLen = s.txtLen := rfl
@[simp] theorem State.acknowledge_binLen (s : State) : s.acknowledge.binLen = s.binLen := rfl
@[simp] theorem State.acknowledge_txt (s : State) : s.acknowledge.txt = s.txt := rfl
@[simp] theorem State.acknowledge_bin (s : State) : s.acknowledge.bin = s.bin := rfl
@[simp] theorem State.acknowledge_code (s : State) : s.acknowledge.code = s.code := rfl
@[simp] theorem State.acknowledge_node (s : State) : s.acknowledge.node = s.node := rfl
@[simp] theorem State.acknowledge_root (s : State) : s.acknowledge.root = s.root := rfl
@[simp] theorem State.acknowledge_seq (s : State) : s.acknowledge.seq = s.seq := rfl
@[simp] theorem State.acknowledge_freq (s : State) : s.acknowledge.freq = s.freq := rfl
@[simp] theorem State.acknowledge_pq (s : State) : s.acknowledge.pq = s.pq := rfl
@[simp] theorem State.acknowledge_enc (s : State) : s.acknowledge.enc = s.enc := rfl
@[simp] theorem State.acknowledge_pad (s : State) : s.acknowledge.pad = s.pad := rfl
@[simp] theorem State.acknowledge_wlen (s : State) : s.acknowledge.wlen = s.wlen := rfl
@[simp] theorem State.acknowledge_idx (s : State) : s.acknowledge.idx = s.idx := rfl
@[simp] theorem State.acknowledge_nodeA (s : State) : s.acknowledge.nodeA = s.nodeA := rfl
@[simp] theorem State.acknowledge_nodeB (s : State) : s.acknowledge.nodeB = s.nodeB := rfl
@[simp] theorem State.acknowledge_payloadLen (s : State) : s.acknowledge.payloadLen = s.payloadLen := rfl
@[simp] theorem State.acknowledge_extra (s : State) : s.acknowledge.extra = s.extra := rfl
@[simp] theorem State.acknowledge_cand (s : State) : s.acknowledge.cand = s.cand := rfl
@[simp] theorem State.acknowledge_walker (s : State) : s.acknowledge.walker = s.walker := rfl
@[simp] theorem State.acknowledge_nOut (s : State) : s.acknowledge.nOut = s.nOut := rfl
@[simp] theorem State.acknowledge_stack (s : State) : s.acknowledge.stack = s.stack := rfl
@[simp] theorem State.acknowledge_host (s : State) : s.acknowledge.host = s.host := rfl
@[simp] theorem State.acknowledge_readData (s : State) : s.acknowledge.readData = s.readData := rfl
@[simp] theorem State.acknowledge_freeCount (s : State) : s.acknowledge.freeCount = s.freeCount := rfl

@[simp] theorem State.succeed_cfg (s : State) : s.succeed.cfg = s.cfg := rfl
@[simp] theorem State.succeed_status (s : State) : s.succeed.status = statusSuccess := rfl
@[simp] theorem State.succeed_txtLen (s : State) : s.succeed.txtLen = s.txtLen := rfl
@[simp] theorem State.succeed_binLen (s : State) : s.succeed.binLen = s.binLen := rfl
@[simp] theorem State.succeed_txt (s : State) : s.succeed.txt = s.txt := rfl
@[simp] theorem State.succeed_bin (s : State) : s.succeed.bin = s.bin := rfl
@[simp] theorem State.succeed_code (s : State) : s.succeed.code = s.code := rfl
@[simp] theorem State.succeed_node (s : State) : s.succeed.node = s.node := rfl
@[simp] theorem State.succeed_root (s : State) : s.succeed.root = s.root := rfl
@[simp] theorem State.succeed_seq (s : State) : s.succeed.seq = 0 := rfl
@[simp] theorem State.succeed_freq (s : State) : s.succeed.freq = s.freq := rfl
@[simp] theorem State.succeed_pq (s : State) : s.succeed.pq = s.pq := rfl
@[simp] theorem State.succeed_enc (s : State) : s.succeed.enc = s.enc := rfl
@[simp] theorem State.succeed_pad (s : State) : s.succeed.pad = s.pad := rfl
@[simp] theorem State.succeed_wlen (s : State) : s.succeed.wlen = s.wlen := rfl
@[simp] theorem State.succeed_idx (s : State) : s.succeed.idx = s.idx := rfl
@[simp] theorem State.succeed_nodeA (s : State) : s.succeed.nodeA = s.nodeA := rfl
@[simp] theorem State.succeed_nodeB (s : State) : s.succeed.nodeB = s.nodeB := rfl
@[simp] theorem State.succeed_payloadLen (s : State) : s.succeed.payloadLen = s.payloadLen := rfl
@[simp] theorem State.succeed_extra (s : State) : s.succeed.extra = s.extra := rfl
@[simp] theorem State.succeed_cand (s : State) : s.succeed.cand = s.cand := rfl
@[simp] theorem State.succeed_walker (s : State) : s.succeed.walker = s.walker := rfl
@[simp] theorem State.succeed_nOut (s : State) : s.succeed.nOut = s.nOut := rfl
@[simp] theorem State.succeed_stack (s : State) : s.succeed.stack = s.stack := rfl
@[simp] theorem State.succeed_host (s : State) : s.succeed.host = s.host := rfl
@[simp] theorem State.succeed_readData (s : State) : s.succeed.readData = s.readData := rfl
@[simp] theorem State.succeed_freeCount (s : State) : s.succeed.freeCount = s.freeCount := rfl

@[simp] theorem State.rejectCommand_cfg (s : State) : s.rejectCommand.cfg = s.cfg := rfl
@[simp] theorem State.rejectCommand_status (s : State) : s.rejectCommand.status = statusError .illegalCommand 0 := rfl
@[simp] theorem State.rejectCommand_txtLen (s : State) : s.rejectCommand.txtLen = s.txtLen := rfl
@[simp] theorem State.rejectCommand_binLen (s : State) : s.rejectCommand.binLen = s.binLen := rfl
@[simp] theorem State.rejectCommand_txt (s : State) : s.rejectCommand.txt = s.txt := rfl
@[simp] theorem State.rejectCommand_bin (s : State) : s.rejectCommand.bin = s.bin := rfl
@[simp] theorem State.rejectCommand_code (s : State) : s.rejectCommand.code = s.code := rfl
@[simp] theorem State.rejectCommand_node (s : State) : s.rejectCommand.node = s.node := rfl
@[simp] theorem State.rejectCommand_root (s : State) : s.rejectCommand.root = s.root := rfl
@[simp] theorem State.rejectCommand_seq (s : State) : s.rejectCommand.seq = s.seq := rfl
@[simp] theorem State.rejectCommand_freq (s : State) : s.rejectCommand.freq = s.freq := rfl
@[simp] theorem State.rejectCommand_pq (s : State) : s.rejectCommand.pq = s.pq := rfl
@[simp] theorem State.rejectCommand_enc (s : State) : s.rejectCommand.enc = s.enc := rfl
@[simp] theorem State.rejectCommand_pad (s : State) : s.rejectCommand.pad = s.pad := rfl
@[simp] theorem State.rejectCommand_wlen (s : State) : s.rejectCommand.wlen = s.wlen := rfl
@[simp] theorem State.rejectCommand_idx (s : State) : s.rejectCommand.idx = s.idx := rfl
@[simp] theorem State.rejectCommand_nodeA (s : State) : s.rejectCommand.nodeA = s.nodeA := rfl
@[simp] theorem State.rejectCommand_nodeB (s : State) : s.rejectCommand.nodeB = s.nodeB := rfl
@[simp] theorem State.rejectCommand_payloadLen (s : State) : s.rejectCommand.payloadLen = s.payloadLen := rfl
@[simp] theorem State.rejectCommand_extra (s : State) : s.rejectCommand.extra = s.extra := rfl
@[simp] theorem State.rejectCommand_cand (s : State) : s.rejectCommand.cand = s.cand := rfl
@[simp] theorem State.rejectCommand_walker (s : State) : s.rejectCommand.walker = s.walker := rfl
@[simp] theorem State.rejectCommand_nOut (s : State) : s.rejectCommand.nOut = s.nOut := rfl
@[simp] theorem State.rejectCommand_stack (s : State) : s.rejectCommand.stack = s.stack := rfl
@[simp] theorem State.rejectCommand_host (s : State) : s.rejectCommand.host = s.host := rfl
@[simp] theorem State.rejectCommand_readData (s : State) : s.rejectCommand.readData = s.readData := rfl
@[simp] theorem State.rejectCommand_freeCount (s : State) : s.rejectCommand.freeCount = s.freeCount := rfl

@[simp] theorem State.clearCodec_cfg (s : State) : s.clearCodec.cfg = s.cfg := rfl
@[simp] theorem State.clearCodec_status (s : State) : s.clearCodec.status = s.status := rfl
@[simp] theorem State.clearCodec_txtLen (s : State) : s.clearCodec.txtLen = s.txtLen := rfl
@[simp] theorem State.clearCodec_binLen (s : State) : s.clearCodec.binLen = s.binLen := rfl
@[simp] theorem State.clearCodec_txt (s : State) : s.clearCodec.txt = s.txt := rfl
@[simp] theorem State.clearCodec_bin (s : State) : s.clearCodec.bin = s.bin := rfl
@[simp] theorem State.clearCodec_code (s : State) : s.clearCodec.code = [] := rfl
@[simp] theorem State.clearCodec_node (s : State) : s.clearCodec.node = [] := rfl
@[simp] theorem State.clearCodec_root (s : State) : s.clearCodec.root = s.root := rfl
@[simp] theorem State.clearCodec_seq (s : State) : s.clearCodec.seq = s.seq := rfl
@[simp] theorem State.clearCodec_freq (s : State) : s.clearCodec.freq = s.freq := rfl
@[simp] theorem State.clearCodec_pq (s : State) : s.clearCodec.pq = s.pq := rfl
@[simp] theorem State.clearCodec_enc (s : State) : s.clearCodec.enc = s.enc := rfl
@[simp] theorem State.clearCodec_pad (s : State) : s.clearCodec.pad = s.pad := rfl
@[simp] theorem State.clearCodec_wlen (s : State) : s.clearCodec.wlen = s.wlen := rfl
@[simp] theorem State.clearCodec_idx (s : State) : s.clearCodec.idx = s.idx := rfl
@[simp] theorem State.clearCodec_nodeA (s : State) : s.clearCodec.nodeA = s.nodeA := rfl
@[simp] theorem State.clearCodec_nodeB (s : State) : s.clearCodec.nodeB = s.nodeB := rfl
@[simp] theorem State.clearCodec_payloadLen (s : State) : s.clearCodec.payloadLen = s.payloadLen := rfl
@[simp] theorem State.clearCodec_extra (s : State) : s.clearCodec.extra = s.extra := rfl
@[simp] theorem State.clearCodec_cand (s : State) : s.clearCodec.cand = s.cand := rfl
@[simp] theorem State.clearCodec_walker (s : State) : s.clearCodec.walker = s.walker := rfl
@[simp] theorem State.clearCodec_nOut (s : State) : s.clearCodec.nOut = s.nOut := rfl
@[simp] theorem State.clearCodec_stack (s : State) : s.clearCodec.stack = s.stack := rfl
@[simp] theorem State.clearCodec_host (s : State) : s.clearCodec.host = s.host := rfl
@[simp] theorem State.clearCodec_readData (s : State) : s.clearCodec.readData = s.readData := rfl
@[simp] theorem State.clearCodec_freeCount (s : State) : s.clearCodec.freeCount = s.freeCount := rfl

@[simp] theorem State.clearForCompress_cfg (s : State) : s.clearForCompress.cfg = s.cfg := rfl
@[simp] theorem State.clearForCompress_status (s : State) : s.clearForCompress.status = s.status := rfl
@[simp] theorem State.clearForCompress_txtLen (s : State) : s.clearForCompress.txtLen = s.txtLen := rfl
@[simp] theorem State.clearForCompress_binLen (s : State) : s.clearForCompress.binLen = s.binLen := rfl
@[simp] theorem State.clearForCompress_txt (s : State) : s.clearForCompress.txt = s.txt := rfl
@[simp] theorem State.clearForCompress_bin (s : State) : s.clearForCompress.bin = s.bin := rfl
@[simp] theorem State.clearForCompress_code (s : State) : s.clearForCompress.code = [] := rfl
@[simp] theorem State.clearForCompress_node (s : State) : s.clearForCompress.node = [] := rfl
@[simp] theorem State.clearForCompress_root (s : State) : s.clearForCompress.root = s.root := rfl
@[simp] theorem State.clearForCompress_seq (s : State) : s.clearForCompress.seq = s.seq := rfl
@[simp] theorem State.clearForCompress_freq (s : State) : s.clearForCompress.freq = List.replicate s.cfg.nSym 0 := rfl
@[simp] theorem State.clearForCompress_pq (s : State) : s.clearForCompress.pq = [] := rfl
@[simp] theorem State.clearForCompress_enc (s : State) : s.clearForCompress.enc = [] := rfl
@[simp] theorem State.clearForCompress_pad (s : State) : s.clearForCompress.pad = [] := rfl
@[simp] theorem State.clearForCompress_wlen (s : State) : s.clearForCompress.wlen = s.wlen := rfl
@[simp] theorem State.clearForCompress_idx (s : State) : s.clearForCompress.idx = s.idx := rfl
@[simp] theorem State.clearForCompress_nodeA (s : State) : s.clearForCompress.nodeA = s.nodeA := rfl
@[simp] theorem State.clearForCompress_nodeB (s : State) : s.clearForCompress.nodeB = s.nodeB := rfl
@[simp] theorem State.clearForCompress_payloadLen (s : State) : s.clearForCompress.payloadLen = s.payloadLen := rfl
@[simp] theorem State.clearForCompress_extra (s : State) : s.clearForCompress.extra = s.extra := rfl
@[simp] theorem State.clearForCompress_cand (s : State) : s.clearForCompress.cand = s.cand := rfl
@[simp] theorem State.clearForCompress_walker (s : State) : s.clearForCompress.walker = s.walker := rfl
@[simp] theorem State.clearForCompress_nOut (s : State) : s.clearForCompress.nOut = s.nOut := rfl
@[simp] theorem State.clearForCompress_stack (s : State) : s.clearForCompress.stack = s.stack := rfl
@[simp] theorem State.clearForCompress_host (s : State) : s.clearForCompress.host = s.host := rfl
@[simp] theorem State.clearForCompress_readData (s : State) : s.clearForCompress.readData = s.readData := rfl
@[simp] theorem State.clearForCompress_freeCount (s : State) : s.clearForCompress.freeCount = s.freeCount := rfl

@[simp] theorem State.abandonCompress_cfg (s : State) : s.abandonCompress.cfg = s.cfg := rfl
@[simp] theorem State.abandonCompress_status (s : State) : s.abandonCompress.status = s.status := rfl
@[simp] theorem State.abandonCompress_txtLen (s : State) : s.abandonCompress.txtLen = s.txtLen := rfl
@[simp] theorem State.abandonCompress_binLen (s : State) : s.abandonCompress.binLen = 0 := rfl
@[simp] theorem State.abandonCompress_txt (s : State) : s.abandonCompress.txt = s.txt := rfl
@[simp] theorem State.abandonCompress_bin (s : State) : s.abandonCompress.bin = s.bin.discard := rfl
@[simp] theorem State.abandonCompress_code (s : State) : s.abandonCompress.code = [] := rfl
@[simp] theorem State.abandonCompress_node (s : State) : s.abandonCompress.node = [] := rfl
@[simp] theorem State.abandonCompress_root (s : State) : s.abandonCompress.root = s.root := rfl
@[simp] theorem State.abandonCompress_seq (s : State) : s.abandonCompress.seq = s.seq := rfl
@[simp] theorem State.abandonCompress_freq (s : State) : s.abandonCompress.freq = s.freq := rfl
@[simp] theorem State.abandonCompress_pq (s : State) : s.abandonCompress.pq = s.pq := rfl
@[simp] theorem State.abandonCompress_enc (s : State) : s.abandonCompress.enc = s.enc := rfl
@[simp] theorem State.abandonCompress_pad (s : State) : s.abandonCompress.pad = s.pad := rfl
@[simp] theorem State.abandonCompress_wlen (s : State) : s.abandonCompress.wlen = s.wlen := rfl
@[simp] theorem State.abandonCompress_idx (s : State) : s.abandonCompress.idx = s.idx := rfl
@[simp] theorem State.abandonCompress_nodeA (s : State) : s.abandonCompress.nodeA = s.nodeA := rfl
@[simp] theorem State.abandonCompress_nodeB (s : State) : s.abandonCompress.nodeB = s.nodeB := rfl
@[simp] theorem State.abandonCompress_payloadLen (s : State) : s.abandonCompress.payloadLen = s.payloadLen := rfl
@[simp] theorem State.abandonCompress_extra (s : State) : s.abandonCompress.extra = s.extra := rfl
@[simp] theorem State.abandonCompress_cand (s : State) : s.abandonCompress.cand = s.cand := rfl
@[simp] theorem State.abandonCompress_walker (s : State) : s.abandonCompress.walker = s.walker := rfl
@[simp] theorem State.abandonCompress_nOut (s : State) : s.abandonCompress.nOut = s.nOut := rfl
@[simp] theorem State.abandonCompress_stack (s : State) : s.abandonCompress.stack = s.stack := rfl
@[simp] theorem State.abandonCompress_host (s : State) : s.abandonCompress.host = s.host := rfl
@[simp] theorem State.abandonCompress_readData (s : State) : s.abandonCompress.readData = s.readData := rfl
@[simp] theorem State.abandonCompress_freeCount (s : State) : s.abandonCompress.freeCount = s.freeCount := rfl

@[simp] theorem State.abandonDecompress_cfg (s : State) : s.abandonDecompress.cfg = s.cfg := rfl
@[simp] theorem State.abandonDecompress_status (s : State) : s.abandonDecompress.status = s.status := rfl
@[simp] theorem State.abandonDecompress_txtLen (s : State) : s.abandonDecompress.txtLen = 0 := rfl
@[simp] theorem State.abandonDecompress_binLen (s : State) : s.abandonDecompress.binLen = s.binLen := rfl
@[simp] theorem State.abandonDecompress_txt (s : State) : s.abandonDecompress.txt = s.txt.discard := rfl
@[simp] theorem State.abandonDecompress_bin (s : State) : s.abandonDecompress.bin = s.bin := rfl
@[simp] theorem State.abandonDecompress_code (s : State) : s.abandonDecompress.code = s.code := rfl
@[simp] theorem State.abandonDecompress_node (s : State) : s.abandonDecompress.node = s.node := rfl
@[simp] theorem State.abandonDecompress_root (s : State) : s.abandonDecompress.root = s.root := rfl
@[simp] theorem State.abandonDecompress_seq (s : State) : s.abandonDecompress.seq = s.seq := rfl
@[simp] theorem State.abandonDecompress_freq (s : State) : s.abandonDecompress.freq = s.freq := rfl
@[simp] theorem State.abandonDecompress_pq (s : State) : s.abandonDecompress.pq = s.pq := rfl
@[simp] theorem State.abandonDecompress_enc (s : State) : s.abandonDecompress.enc = s.enc := rfl
@[simp] theorem State.abandonDecompress_pad (s : State) : s.abandonDecompress.pad = s.pad := rfl
@[simp] theorem State.abandonDecompress_wlen (s : State) : s.abandonDecompress.wlen = s.wlen := rfl
@[simp] theorem State.abandonDecompress_idx (s : State) : s.abandonDecompress.idx = s.idx := rfl
@[simp] theorem State.abandonDecompress_nodeA (s : State) : s.abandonDecompress.nodeA = s.nodeA := rfl
@[simp] theorem State.abandonDecompress_nodeB (s : State) : s.abandonDecompress.nodeB = s.nodeB := rfl
@[simp] theorem State.abandonDecompress_payloadLen (s : State) : s.abandonDecompress.payloadLen = s.payloadLen := rfl
@[simp] theorem State.abandonDecompress_extra (s : State) : s.abandonDecompress.extra = s.extra := rfl
@[simp] theorem State.abandonDecompress_cand (s : State) : s.abandonDecompress.cand = s.cand := rfl
@[simp] theorem State.abandonDecompress_walker (s : State) : s.abandonDecompress.walker = s.walker := rfl
@[simp] theorem State.abandonDecompress_nOut (s : State) : s.abandonDecompress.nOut = s.nOut := rfl
@[simp] theorem State.abandonDecompress_stack (s : State) : s.abandonDecompress.stack = s.stack := rfl
@[simp] theorem State.abandonDecompress_host (s : State) : s.abandonDecompress.host = s.host := rfl
@[simp] theorem State.abandonDecompress_readData (s : State) : s.abandonDecompress.readData = s.readData := rfl
@[simp] theorem State.abandonDecompress_freeCount (s : State) : s.abandonDecompress.freeCount = s.freeCount := rfl

@[simp] theorem State.setTxtLen_cfg (n : Nat) (s : State) : (s.setTxtLen n).cfg = s.cfg := rfl
@[simp] theorem State.setTxtLen_status (n : Nat) (s : State) : (s.setTxtLen n).status = s.status := rfl
@[simp] theorem State.setTxtLen_txtLen (n : Nat) (s : State) : (s.setTxtLen n).txtLen = truncate s.cfg.wTLen n := rfl
@[simp] theorem State.setTxtLen_binLen (n : Nat) (s : State) : (s.setTxtLen n).binLen = s.binLen := rfl
@[simp] theorem State.setTxtLen_txt (n : Nat) (s : State) : (s.setTxtLen n).txt = s.txt := rfl
@[simp] theorem State.setTxtLen_bin (n : Nat) (s : State) : (s.setTxtLen n).bin = s.bin := rfl
@[simp] theorem State.setTxtLen_code (n : Nat) (s : State) : (s.setTxtLen n).code = s.code := rfl
@[simp] theorem State.setTxtLen_node (n : Nat) (s : State) : (s.setTxtLen n).node = s.node := rfl
@[simp] theorem State.setTxtLen_root (n : Nat) (s : State) : (s.setTxtLen n).root = s.root := rfl
@[simp] theorem State.setTxtLen_seq (n : Nat) (s : State) : (s.setTxtLen n).seq = s.seq := rfl
@[simp] theorem State.setTxtLen_freq (n : Nat) (s : State) : (s.setTxtLen n).freq = s.freq := rfl
@[simp] theorem State.setTxtLen_pq (n : Nat) (s : State) : (s.setTxtLen n).pq = s.pq := rfl
@[simp] theorem State.setTxtLen_enc (n : Nat) (s : State) : (s.setTxtLen n).enc = s.enc := rfl
@[simp] theorem State.setTxtLen_pad (n : Nat) (s : State) : (s.setTxtLen n).pad = s.pad := rfl
@[simp] theorem State.setTxtLen_wlen (n : Nat) (s : State) : (s.setTxtLen n).wlen = s.wlen := rfl
@[simp] theorem State.setTxtLen_idx (n : Nat) (s : State) : (s.setTxtLen n).idx = s.idx := rfl
@[simp] theorem State.setTxtLen_nodeA (n : Nat) (s : State) : (s.setTxtLen n).nodeA = s.nodeA := rfl
@[simp] theorem State.setTxtLen_nodeB (n : Nat) (s : State) : (s.setTxtLen n).nodeB = s.nodeB := rfl
@[simp] theorem State.setTxtLen_payloadLen (n : Nat) (s : State) : (s.setTxtLen n).payloadLen = s.payloadLen := rfl
@[simp] theorem State.setTxtLen_extra (n : Nat) (s : State) : (s.setTxtLen n).extra = s.extra := rfl
@[simp] theorem State.setTxtLen_cand (n : Nat) (s : State) : (s.setTxtLen n).cand = s.cand := rfl
@[simp] theorem State.setTxtLen_walker (n : Nat) (s : State) : (s.setTxtLen n).walker = s.walker := rfl
@[simp] theorem State.setTxtLen_nOut (n : Nat) (s : State) : (s.setTxtLen n).nOut = s.nOut := rfl
@[simp] theorem State.setTxtLen_stack (n : Nat) (s : State) : (s.setTxtLen n).stack = s.stack := rfl
@[simp] theorem State.setTxtLen_host (n : Nat) (s : State) : (s.setTxtLen n).host = s.host := rfl
@[simp] theorem State.setTxtLen_readData (n : Nat) (s : State) : (s.setTxtLen n).readData = s.readData := rfl
@[simp] theorem State.setTxtLen_freeCount (n : Nat) (s : State) : (s.setTxtLen n).freeCount = s.freeCount := rfl

@[simp] theorem State.setBinLen_cfg (n : Nat) (s : State) : (s.setBinLen n).cfg = s.cfg := rfl
@[simp] theorem State.setBinLen_status (n : Nat) (s : State) : (s.setBinLen n).status = s.status := rfl
@[simp] theorem State.setBinLen_txtLen (n : Nat) (s : State) : (s.setBinLen n).txtLen = s.txtLen := rfl
@[simp] theorem State.setBinLen_binLen (n : Nat) (s : State) : (s.setBinLen n).binLen = truncate s.cfg.wBLen n := rfl
@[simp] theorem State.setBinLen_txt (n : Nat) (s : State) : (s.setBinLen n).txt = s.txt := rfl
@[simp] theorem State.setBinLen_bin (n : Nat) (s : State) : (s.setBinLen n).bin = s.bin := rfl
@[simp] theorem State.setBinLen_code (n : Nat) (s : State) : (s.setBinLen n).code = s.code := rfl
@[simp] theorem State.setBinLen_node (n : Nat) (s : State) : (s.setBinLen n).node = s.node := rfl
@[simp] theorem State.setBinLen_root (n : Nat) (s : State) : (s.setBinLen n).root = s.root := rfl
@[simp] theorem State.setBinLen_seq (n : Nat) (s : State) : (s.setBinLen n).seq = s.seq := rfl
@[simp] theorem State.setBinLen_freq (n : Nat) (s : State) : (s.setBinLen n).freq = s.freq := rfl
@[simp] theorem State.setBinLen_pq (n : Nat) (s : State) : (s.setBinLen n).pq = s.pq := rfl
@[simp] theorem State.setBinLen_enc (n : Nat) (s : State) : (s.setBinLen n).enc = s.enc := rfl
@[simp] theorem State.setBinLen_pad (n : Nat) (s : State) : (s.setBinLen n).pad = s.pad := rfl
@[simp] theorem State.setBinLen_wlen (n : Nat) (s : State) : (s.setBinLen n).wlen = s.wlen := rfl
@[simp] theorem State.setBinLen_idx (n : Nat) (s : State) : (s.setBinLen n).idx = s.idx := rfl
@[simp] theorem State.setBinLen_nodeA (n : Nat) (s : State) : (s.setBinLen n).nodeA = s.nodeA := rfl
@[simp] theorem State.setBinLen_nodeB (n : Nat) (s : State) : (s.setBinLen n).nodeB = s.nodeB := rfl
@[simp] theorem State.setBinLen_payloadLen (n : Nat) (s : State) : (s.setBinLen n).payloadLen = s.payloadLen := rfl
@[simp] theorem State.setBinLen_extra (n : Nat) (s : State) : (s.setBinLen n).extra = s.extra := rfl
@[simp] theorem State.setBinLen_cand (n : Nat) (s : State) : (s.setBinLen n).cand = s.cand := rfl
@[simp] theorem State.setBinLen_walker (n : Nat) (s : State) : (s.setBinLen n).walker = s.walker := rfl
@[simp] theorem State.setBinLen_nOut (n : Nat) (s : State) : (s.setBinLen n).nOut = s.nOut := rfl
@[simp] theorem State.setBinLen_stack (n : Nat) (s : State) : (s.setBinLen n).stack = s.stack := rfl
@[simp] theorem State.setBinLen_host (n : Nat) (s : State) : (s.setBinLen n).host = s.host := rfl
@[simp] theorem State.setBinLen_readData (n : Nat) (s : State) : (s.setBinLen n).readData = s.readData := rfl
@[simp] theorem State.setBinLen_freeCount (n : Nat) (s : State) : (s.setBinLen n).freeCount = s.freeCount := rfl

@[simp] theorem readFree_cfg (w : Nat) (s : State) : (readFree w s).cfg = s.cfg := rfl
@[simp] theorem readFree_status (w : Nat) (s : State) : (readFree w s).status = s.status := rfl
@[simp] theorem readFree_txtLen (w : Nat) (s : State) : (readFree w s).txtLen = s.txtLen := rfl
@[simp] theorem readFree_binLen (w : Nat) (s : State) : (readFree w s).binLen = s.binLen := rfl
@[simp] theorem readFree_txt (w : Nat) (s : State) : (readFree w s).txt = s.txt := rfl
@[simp] theorem readFree_bin (w : Nat) (s : State) : (readFree w s).bin = s.bin := rfl
@[simp] theorem readFree_code (w : Nat) (s : State) : (readFree w s).code = s.code := rfl
@[simp] theorem readFree_node (w : Nat) (s : State) : (readFree w s).node = s.node := rfl
@[simp] theorem readFree_root (w : Nat) (s : State) : (readFree w s).root = s.root := rfl
@[simp] theorem readFree_seq (w : Nat) (s : State) : (readFree w s).seq = s.seq := rfl
@[simp] theorem readFree_freq (w : Nat) (s : State) : (readFree w s).freq = s.freq := rfl
@[simp] theorem readFree_pq (w : Nat) (s : State) : (readFree w s).pq = s.pq := rfl
@[simp] theorem readFree_enc (w : Nat) (s : State) : (readFree w s).enc = s.enc := rfl
@[simp] theorem readFree_pad (w : Nat) (s : State) : (readFree w s).pad = s.pad := rfl
@[simp] theorem readFree_wlen (w : Nat) (s : State) : (readFree w s).wlen = s.wlen := rfl
@[simp] theorem readFree_idx (w : Nat) (s : State) : (readFree w s).idx = s.idx := rfl
@[simp] theorem readFree_nodeA (w : Nat) (s : State) : (readFree w s).nodeA = s.nodeA := rfl
@[simp] theorem readFree_nodeB (w : Nat) (s : State) : (readFree w s).nodeB = s.nodeB := rfl
@[simp] theorem readFree_payloadLen (w : Nat) (s : State) : (readFree w s).payloadLen = s.payloadLen := rfl
@[simp] theorem readFree_extra (w : Nat) (s : State) : (readFree w s).extra = s.extra := rfl
@[simp] theorem readFree_cand (w : Nat) (s : State) : (readFree w s).cand = s.cand := rfl
@[simp] theorem readFree_walker (w : Nat) (s : State) : (readFree w s).walker = s.walker := rfl
@[simp] theorem readFree_nOut (w : Nat) (s : State) : (readFree w s).nOut = s.nOut := rfl
@[simp] theorem readFree_stack (w : Nat) (s : State) : (readFree w s).stack = s.stack := rfl
@[simp] theorem readFree_host (w : Nat) (s : State) : (readFree w s).host = s.host := rfl
@[simp] theorem readFree_readData (w : Nat) (s : State) : (readFree w s).readData = truncate w (Config.freeRead s.freeCount) := rfl
@[simp] theorem readFree_freeCount (w : Nat) (s : State) : (readFree w s).freeCount = s.freeCount + 1 := rfl

/-- `raise` at a stage of `COMPRESS` is the failure of `COMPRESS`, at another stage that of `DECOMPRESS`. -/
theorem State.raise_eq (e : ErrorKind) (i : Instr) (s : State) :
    s.raise e i = { (if ofCompress i = true then s.abandonCompress else s.abandonDecompress) with
      status := statusError e (stageId i), seq := 0 } := rfl

@[simp] theorem State.raise_status (e : ErrorKind) (i : Instr) (s : State) : (s.raise e i).status = statusError e (stageId i) := rfl
@[simp] theorem State.raise_seq (e : ErrorKind) (i : Instr) (s : State) : (s.raise e i).seq = 0 := rfl
@[simp] theorem State.raise_cfg (e : ErrorKind) (i : Instr) (s : State) :
    (s.raise e i).cfg = s.cfg := by
  cases h : ofCompress i <;> simp [State.raise_eq, h]
@[simp] theorem State.raise_txtLen (e : ErrorKind) (i : Instr) (s : State) :
    (s.raise e i).txtLen = if ofCompress i = true then s.txtLen else 0 := by
  cases h : ofCompress i <;> simp [State.raise_eq, h]
@[simp] theorem State.raise_binLen (e : ErrorKind) (i : Instr) (s : State) :
    (s.raise e i).binLen = if ofCompress i = true then 0 else s.binLen := by
  cases h : ofCompress i <;> simp [State.raise_eq, h]
@[simp] theorem State.raise_txt (e : ErrorKind) (i : Instr) (s : State) :
    (s.raise e i).txt = if ofCompress i = true then s.txt else s.txt.discard := by
  cases h : ofCompress i <;> simp [State.raise_eq, h]
@[simp] theorem State.raise_bin (e : ErrorKind) (i : Instr) (s : State) :
    (s.raise e i).bin = if ofCompress i = true then s.bin.discard else s.bin := by
  cases h : ofCompress i <;> simp [State.raise_eq, h]
@[simp] theorem State.raise_code (e : ErrorKind) (i : Instr) (s : State) :
    (s.raise e i).code = if ofCompress i = true then [] else s.code := by
  cases h : ofCompress i <;> simp [State.raise_eq, h]
@[simp] theorem State.raise_node (e : ErrorKind) (i : Instr) (s : State) :
    (s.raise e i).node = if ofCompress i = true then [] else s.node := by
  cases h : ofCompress i <;> simp [State.raise_eq, h]
@[simp] theorem State.raise_root (e : ErrorKind) (i : Instr) (s : State) :
    (s.raise e i).root = s.root := by
  cases h : ofCompress i <;> simp [State.raise_eq, h]
@[simp] theorem State.raise_freq (e : ErrorKind) (i : Instr) (s : State) :
    (s.raise e i).freq = s.freq := by
  cases h : ofCompress i <;> simp [State.raise_eq, h]
@[simp] theorem State.raise_pq (e : ErrorKind) (i : Instr) (s : State) :
    (s.raise e i).pq = s.pq := by
  cases h : ofCompress i <;> simp [State.raise_eq, h]
@[simp] theorem State.raise_enc (e : ErrorKind) (i : Instr) (s : State) :
    (s.raise e i).enc = s.enc := by
  cases h : ofCompress i <;> simp [State.raise_eq, h]
@[simp] theorem State.raise_pad (e : ErrorKind) (i : Instr) (s : State) :
    (s.raise e i).pad = s.pad := by
  cases h : ofCompress i <;> simp [State.raise_eq, h]
@[simp] theorem State.raise_wlen (e : ErrorKind) (i : Instr) (s : State) :
    (s.raise e i).wlen = s.wlen := by
  cases h : ofCompress i <;> simp [State.raise_eq, h]
@[simp] theorem State.raise_idx (e : ErrorKind) (i : Instr) (s : State) :
    (s.raise e i).idx = s.idx := by
  cases h : ofCompress i <;> simp [State.raise_eq, h]
@[simp] theorem State.raise_nodeA (e : ErrorKind) (i : Instr) (s : State) :
    (s.raise e i).nodeA = s.nodeA := by
  cases h : ofCompress i <;> simp [State.raise_eq, h]
@[simp] theorem State.raise_nodeB (e : ErrorKind) (i : Instr) (s : State) :
    (s.raise e i).nodeB = s.nodeB := by
  cases h : ofCompress i <;> simp [State.raise_eq, h]
@[simp] theorem State.raise_payloadLen (e : ErrorKind) (i : Instr) (s : State) :
    (s.raise e i).payloadLen = s.payloadLen := by
  cases h : ofCompress i <;> simp [State.raise_eq, h]
@[simp] theorem State.raise_extra (e : ErrorKind) (i : Instr) (s : State) :
    (s.raise e i).extra = s.extra := by
  cases h : ofCompress i <;> simp [State.raise_eq, h]
@[simp] theorem State.raise_cand (e : ErrorKind) (i : Instr) (s : State) :
    (s.raise e i).cand = s.cand := by
  cases h : ofCompress i <;> simp [State.raise_eq, h]
@[simp] theorem State.raise_walker (e : ErrorKind) (i : Instr) (s : State) :
    (s.raise e i).walker = s.walker := by
  cases h : ofCompress i <;> simp [State.raise_eq, h]
@[simp] theorem State.raise_nOut (e : ErrorKind) (i : Instr) (s : State) :
    (s.raise e i).nOut = s.nOut := by
  cases h : ofCompress i <;> simp [State.raise_eq, h]
@[simp] theorem State.raise_stack (e : ErrorKind) (i : Instr) (s : State) :
    (s.raise e i).stack = s.stack := by
  cases h : ofCompress i <;> simp [State.raise_eq, h]
@[simp] theorem State.raise_host (e : ErrorKind) (i : Instr) (s : State) :
    (s.raise e i).host = s.host := by
  cases h : ofCompress i <;> simp [State.raise_eq, h]
@[simp] theorem State.raise_readData (e : ErrorKind) (i : Instr) (s : State) :
    (s.raise e i).readData = s.readData := by
  cases h : ofCompress i <;> simp [State.raise_eq, h]
@[simp] theorem State.raise_freeCount (e : ErrorKind) (i : Instr) (s : State) :
    (s.raise e i).freeCount = s.freeCount := by
  cases h : ofCompress i <;> simp [State.raise_eq, h]

@[simp] theorem State.applyReset_cfg (s : State) : s.applyReset.cfg = s.cfg := rfl
@[simp] theorem State.applyReset_host (s : State) : s.applyReset.host = s.host := rfl
@[simp] theorem State.applyReset_readData (s : State) : s.applyReset.readData = s.readData := rfl
@[simp] theorem State.applyReset_freeCount (s : State) : s.applyReset.freeCount = s.freeCount := rfl
@[simp] theorem State.applyReset_txt (s : State) : s.applyReset.txt = s.txt.discard := rfl
@[simp] theorem State.applyReset_bin (s : State) : s.applyReset.bin = s.bin.discard := rfl
@[simp] theorem State.applyReset_status (s : State) : s.applyReset.status = 0 := rfl
@[simp] theorem State.applyReset_txtLen (s : State) : s.applyReset.txtLen = 0 := rfl
@[simp] theorem State.applyReset_binLen (s : State) : s.applyReset.binLen = 0 := rfl
@[simp] theorem State.applyReset_code (s : State) : s.applyReset.code = [] := rfl
@[simp] theorem State.applyReset_node (s : State) : s.applyReset.node = [] := rfl
@[simp] theorem State.applyReset_seq (s : State) : s.applyReset.seq = 0 := rfl

/-! ## The stages as side of the command they belong to -/

@[simp] theorem ofCompress_trim : ofCompress .trim = true := by decide
@[simp] theorem ofCompress_treeBuild : ofCompress .treeBuild = true := by decide
@[simp] theorem ofCompress_encode : ofCompress .encode = true := by decide
@[simp] theorem ofCompress_deserialize : ofCompress .deserialize = false := by decide
@[simp] theorem ofCompress_unpad : ofCompress .unpad = false := by decide
@[simp] theorem ofCompress_decode : ofCompress .decode = false := by decide

/-! ## Issue -/

theorem State.issue_of_busy {s : State} (f : State → State) (h : s.busy = true) : s.issue f = s := if_pos h

theorem State.issue_of_idle {s : State} (f : State → State) (h : s.busy = false) : s.issue f = f s := by
  simp [State.issue, h]

end Sys2Proof.Machine
end

