-- ==== Sys2Proof/Laws/Step.lean ====
section
/-! SUPPORT. One step: what it runs, what it can be, and how steps follow one another. -/

namespace Sys2Proof.Machine

/-- A word that decodes to `i` is the word of `i`. -/
theorem encode_of_decode (w : CodeWord) (i : Instr) : decode w = .ok i → encode i = w := by
  cases w with
  | cmd8 v =>
    simp only [decode, decodeCmd]
    repeat (split; · (intro h; cases h; subst_vars; rfl))
    intro h; cases h
  | stage4 k =>
    simp only [decode, decodeStage]
    repeat (split; · (intro h; cases h; subst_vars; rfl))
    intro h; cases h

theorem decodeStage_zero : decodeStage 0 = .error (.illegalStage 0) := rfl

theorem coreTurn_of_decode {s : State} {i : Instr} (h : decodeStage s.seq = .ok i) : coreTurn s = .run i s := by
  have : s.seq ≠ 0 := fun e => by rw [e, decodeStage_zero] at h; cases h
  rw [coreTurn, if_neg this, h]

/-- The meaning of every instruction answers a next state. -/
theorem exec_next (i : Instr) (s : State) : ∃ t, exec i s = .next t := by
  cases i <;> simp only [exec, execCompress, execDecompress, execClear, execTrim, execFreq, execTreeBuild, execCodeAssign,
    execEncode, execPad, execSerialize, execDeserialize, execUnpad, execDecode] <;> (repeat' split) <;> exact ⟨_, rfl⟩

theorem decodeStage_ok_of_le (k : BitVec 4) (h0 : k ≠ 0) (h : k.toNat ≤ 10) : ∃ i, decodeStage k = .ok i := by
  have : ∀ k : BitVec 4, k ≠ 0 → k.toNat ≤ 10 → (match decodeStage k with | .ok _ => true | .error _ => false) = true := by decide
  have := this k h0 h
  split at this
  · exact ⟨_, ‹_›⟩
  · simp at this

theorem decodeStage_error_of_le (k : BitVec 4) (h : 11 ≤ k.toNat) : decodeStage k = .error (.illegalStage k) := by
  revert k; decide

/-- Everything a step that answers a next state can be. -/
theorem step_cases {s t : State} (h : step s = .next t) :
    (s.host = [] ∧ s.seq = 0 ∧ t = s) ∨
    (∃ i, s.host = [] ∧ decodeStage s.seq = .ok i ∧ exec i s = .next t) ∨
    (∃ rest i, s.host = .idle :: rest ∧ decodeStage s.seq = .ok i ∧ exec i { s with host := rest } = .next t) ∨
    (∃ rest, s.host = .idle :: rest ∧ s.seq = 0 ∧ t = { s with host := rest }) ∨
    (∃ rest, s.host = .pollDone :: rest ∧ s.done = true ∧ t = readCsr 1 { s with host := rest }) ∨
    (∃ rest, s.host = .pollDone :: rest ∧ s.done = false ∧ s.seq = 0 ∧ t = s) ∨
    (∃ rest i, s.host = .pollDone :: rest ∧ s.done = false ∧ decodeStage s.seq = .ok i ∧ exec i s = .next t) ∨
    (∃ rest n, s.host = .csrRead n :: rest ∧ t = readCsr n { s with host := rest }) ∨
    (∃ rest v i, s.host = .csrWrite 0 v :: rest ∧ decodeCmd (BitVec.ofNat 8 v) = .ok i ∧ exec i { s with host := rest } = .next t) ∨
    (∃ rest v, s.host = .csrWrite 0 v :: rest ∧ (∃ e, decodeCmd (BitVec.ofNat 8 v) = .error e) ∧
      t = ({ s with host := rest } : State).issue State.rejectCommand) ∨
    (∃ rest n v, s.host = .csrWrite n v :: rest ∧ n ≠ 0 ∧ t = writeCsr n v { s with host := rest }) ∨
    (∃ rest sp i, s.host = .memRead sp i :: rest ∧ t = readMem sp i { s with host := rest }) ∨
    (∃ rest sp i v, s.host = .memWrite sp i v :: rest ∧ t = writeMem sp i v { s with host := rest }) ∨
    (∃ rest, s.host = .reset :: rest ∧ t = ({ s with host := rest } : State).applyReset) := by
  have core : ∀ u : State, (match coreTurn u with
      | .run i s' => exec i s' | .done s' => .next s' | .stuck id => .fault (.illegalStage id)) = (.next t : Outcome) →
      (u.seq = 0 ∧ t = u) ∨ ∃ i, decodeStage u.seq = .ok i ∧ exec i u = .next t := by
    intro u hu
    unfold coreTurn at hu
    split at hu
    · rename_i i s' heq
      split at heq
      · cases heq
      · split at heq
        · rename_i hd; cases heq; exact .inr ⟨_, hd, hu⟩
        · cases heq
    · rename_i s' heq
      split at heq
      · cases heq; cases hu; exact .inl ⟨‹_›, rfl⟩
      · split at heq <;> cases heq
    · cases hu
  unfold step fetch at h
  match hh : s.host with
  | [] =>
    rw [hh] at h
    rcases core s h with ⟨h1, h2⟩ | ⟨i, h1, h2⟩
    · exact .inl ⟨rfl, h1, h2⟩
    · exact .inr (.inl ⟨i, rfl, h1, h2⟩)
  | .pollDone :: rest =>
    rw [hh] at h
    dsimp only at h
    by_cases hd : s.done = true
    · rw [if_pos hd] at h
      simp only [hostTurn] at h
      cases h
      exact .inr (.inr (.inr (.inr (.inl ⟨rest, rfl, hd, rfl⟩))))
    · rw [if_neg hd] at h
      have hd : s.done = false := by simpa using hd
      rcases core s h with ⟨h1, h2⟩ | ⟨i, h1, h2⟩
      · exact .inr (.inr (.inr (.inr (.inr (.inl ⟨rest, rfl, hd, h1, h2⟩)))))
      · exact .inr (.inr (.inr (.inr (.inr (.inr (.inl ⟨rest, i, rfl, hd, h1, h2⟩))))))
  | .idle :: rest =>
    rw [hh] at h
    rcases core { s with host := rest } h with ⟨h1, h2⟩ | ⟨i, h1, h2⟩
    · exact .inr (.inr (.inr (.inl ⟨rest, rfl, h1, h2⟩)))
    · exact .inr (.inr (.inl ⟨rest, i, rfl, h1, h2⟩))
  | .csrRead n :: rest =>
    rw [hh] at h; simp only [hostTurn] at h; cases h
    exact .inr (.inr (.inr (.inr (.inr (.inr (.inr (.inl ⟨rest, n, rfl, rfl⟩)))))))
  | .csrWrite 0 v :: rest =>
    rw [hh] at h; simp only [hostTurn, writeCmd] at h
    cases hd : decodeCmd (BitVec.ofNat 8 v) with
    | ok i =>
      rw [hd] at h
      exact .inr (.inr (.inr (.inr (.inr (.inr (.inr (.inr (.inl ⟨rest, v, i, rfl, hd, h⟩))))))))
    | error e =>
      rw [hd] at h; cases h
      exact .inr (.inr (.inr (.inr (.inr (.inr (.inr (.inr (.inr (.inl ⟨rest, v, rfl, ⟨e, hd⟩, rfl⟩)))))))))
  | .csrWrite (n + 1) v :: rest =>
    rw [hh] at h; simp only [hostTurn] at h; cases h
    exact .inr (.inr (.inr (.inr (.inr (.inr (.inr (.inr (.inr (.inr (.inl ⟨rest, n + 1, v, rfl, by omega, rfl⟩))))))))))
  | .memRead sp i :: rest =>
    rw [hh] at h; simp only [hostTurn] at h; cases h
    exact .inr (.inr (.inr (.inr (.inr (.inr (.inr (.inr (.inr (.inr (.inr (.inl ⟨rest, sp, i, rfl, rfl⟩)))))))))))
  | .memWrite sp i v :: rest =>
    rw [hh] at h; simp only [hostTurn] at h; cases h
    exact .inr (.inr (.inr (.inr (.inr (.inr (.inr (.inr (.inr (.inr (.inr (.inr (.inl ⟨rest, sp, i, v, rfl, rfl⟩))))))))))))
  | .reset :: rest =>
    rw [hh] at h; simp only [hostTurn] at h; cases h
    exact .inr (.inr (.inr (.inr (.inr (.inr (.inr (.inr (.inr (.inr (.inr (.inr (.inr ⟨rest, rfl, rfl⟩))))))))))))

/-- The sequencer value of a stage. -/
theorem stage_of_decode {k : BitVec 4} {i : Instr} {j : BitVec 4} (hd : decodeStage k = .ok i) (hi : encode i = .stage4 j) : k = j := by
  have := encode_of_decode (.stage4 _) _ hd
  rw [hi] at this; cases this; rfl

theorem exec_freq (s : State) :
    exec .freq s = .next { s with freq := countSymbols s.cfg.nSym s.trimmedText, idx := s.wlen, seq := 3 } := rfl

theorem exec_codeAssign (s : State) :
    exec .codeAssign s = .next { s with code := codeTable s.cfg.degenCode s.node s.root, stack := [], seq := 5 } := rfl

theorem steps_zero (s : State) : steps 0 s = .next s := rfl

theorem steps_succ {s t : State} (h : step s = .next t) (k : Nat) : steps (k + 1) s = steps k t := by
  rw [steps, h]

theorem run_next (M : Host.Core) {s t : M.State} (h : M.step s = .next t) (k : Nat) : M.run (k + 1) s = M.run k t := by
  rw [Host.Core.run, h]

theorem run_fault (M : Host.Core) {s : M.State} {f : M.Fault} (h : M.step s = .fault f) (k : Nat) : M.run (k + 1) s = .fault f := by
  rw [Host.Core.run, h]

theorem run_refused (M : Host.Core) {s : M.State} {r : M.Refusal} (h : M.step s = .refused r) (k : Nat) :
    M.run (k + 1) s = .refused r := by
  rw [Host.Core.run, h]

/-- `steps` is the host's own run of this machine. -/
theorem steps_eq_run (k : Nat) (s : State) : steps k s = Host.Core.run core k s := by
  induction k generalizing s with
  | zero => rfl
  | succ k ih =>
    rw [steps]
    cases h : step s with
    | next t => exact (ih t).trans (run_next core h k).symm
    | fault f => exact (run_fault core h k).symm
    | refused r => exact (run_refused core h k).symm

end Sys2Proof.Machine
end

