-- ==== Sys2Proof/Laws/Widths.lean ====
section
/-! SUPPORT. The widths and capacities of the tables and working registers: what each stage writes fits, so that nothing overflows
(47_commands.md R177). -/

namespace Sys2Proof.Machine

theorem lt_wBLen {c : Config} {n : Nat} (h : n ≤ c.maxBin) : n < 2 ^ c.wBLen := lt_of_le_of_lt h (lt_two_pow_leastWidth _)

/-- A bit count of at most `8 * MAX_BIN` fits a register of `W_BLEN + 3` bits. -/
theorem lt_wBLen_add {c : Config} {n : Nat} (h : n ≤ 8 * c.maxBin) : n < 2 ^ (c.wBLen + 3) := by
  have := lt_wBLen (le_refl c.maxBin)
  rw [pow_add]; omega

theorem lt_index_left {c : Config} {n : Nat} (h : n < 2 ^ c.wTLen) : n < 2 ^ max c.wTLen (c.wBLen + 3) :=
  lt_of_lt_of_le h (Nat.pow_le_pow_right (by omega) (le_max_left _ _))

theorem lt_index_right {c : Config} {n : Nat} (h : n < 2 ^ (c.wBLen + 3)) : n < 2 ^ max c.wTLen (c.wBLen + 3) :=
  lt_of_lt_of_le h (Nat.pow_le_pow_right (by omega) (le_max_right _ _))

/-- The fields that are neither table nor working register do not matter. -/
theorem Widths.side {s : State} (h : Widths s) (txt : Memory Symbol) (bin : Memory Byte) (txtLen binLen : Nat) (status : BitVec 16)
    (seq : BitVec 4) (host : List HostAction) (readData freeCount : Nat) :
    Widths { s with txt := txt, bin := bin, txtLen := txtLen, binLen := binLen, status := status, seq := seq, host := host
                    readData := readData, freeCount := freeCount } :=
  ⟨h.1, h.2, h.3, h.4, h.5, h.6, h.7, h.8, h.9, h.10, h.11, h.12, h.13, h.14, h.15, h.16, h.17, h.18, h.19, h.20⟩

/-- An emptied codec state fits. -/
theorem Widths.clear {s : State} (h : Widths s) : Widths { s with code := [], node := [] } :=
  ⟨by simp, by simp, Nat.zero_le _, h.4, h.5, h.6, h.7, h.8, h.9, h.10, h.11, h.12, h.13, h.14, h.15, h.16, h.17, h.18, h.19, h.20⟩

/-- What `COMPRESS` clears at its start fits. -/
theorem Widths.clearForCompress {s : State} (h : Widths s) : Widths s.clearForCompress :=
  ⟨by simp [State.clearForCompress, State.clearCodec], by simp [State.clearForCompress, State.clearCodec], Nat.zero_le _, h.4,
    List.length_replicate, by simp [State.clearForCompress, State.clearCodec], Nat.zero_le _,
    by simp [State.clearForCompress, State.clearCodec], Nat.zero_le _, Nat.zero_le _, h.11, h.12, h.13, h.14, h.15, h.16, h.17, h.18,
    h.19, h.20⟩

theorem Widths.setWlen {s : State} (h : Widths s) {w : Nat} (hw : w < 2 ^ s.cfg.wTLen) : Widths { s with wlen := w } :=
  ⟨h.1, h.2, h.3, h.4, h.5, h.6, h.7, h.8, h.9, h.10, hw, h.12, h.13, h.14, h.15, h.16, h.17, h.18, h.19, h.20⟩

/-- The counts of the trimmed text fit `W_CNT` together. -/
theorem Widths.setFreq {s : State} (h : Widths s) :
    Widths { s with freq := countSymbols s.cfg.nSym s.trimmedText, idx := s.wlen } :=
  ⟨h.1, h.2, h.3, h.4, length_countSymbols _ _,
    lt_of_eq_of_lt ((sum_countSymbols fun _ h => State.lt_of_mem_trimmedText h).trans s.length_trimmedText) h.wlen_lt, h.7, h.8, h.9,
    h.10, h.11, lt_index_left h.wlen_lt, h.13, h.14, h.15, h.16, h.17, h.18, h.19, h.20⟩

/-- Every node `TREE_BUILD` makes fits its fields, and there are at most `MAX_NODE`. -/
theorem builtTree_fits {c : Config} {f : List Nat} (a b : Nat) (hc : c.wellFormed = true) (hl : f.length = c.nSym)
    (hf : f.sum < 2 ^ c.wCnt) (h : present c.leafOrder f ≠ []) :
    (∀ n ∈ (builtTree c.leafOrder f a b).node, n.fits c) ∧ (builtTree c.leafOrder f a b).node.length ≤ c.maxNode := by
  obtain ⟨-, -, -, -, -, -, -, -, hlen⟩ := builtTree_spec a b (nodup_present hc f) h
  have hcnt : (builtTree c.leafOrder f a b).node.length ≤ c.maxNode := by
    have := length_present_le c.leafOrder f
    rw [Config.length_order hc] at this
    simp only [hlen, Config.maxNode]; omega
  refine ⟨fun n hn => ?_, hcnt⟩
  have hin := (builtTree_nodes a b h).1 n hn
  have hsum := sum_freq (o := c.leafOrder) (f := f) (by rw [hl]; exact Config.order_perm hc)
  have hlt := lt_of_le_of_lt hcnt (Config.maxNode_lt c)
  cases n with
  | leaf s w =>
    obtain ⟨x, hx, e⟩ := List.mem_map.1 hin
    have hw : w ≤ ((leafList c.leafOrder f).map Prod.snd).sum := List.single_le_sum (by simp) _ (List.mem_map.2 ⟨_, hin, rfl⟩)
    cases e
    exact ⟨(Config.mem_order hc).1 (mem_present.1 hx).1, by omega⟩
  | internal w l r => exact ⟨by have := hin.1; omega, lt_trans hin.2.1 hlt, lt_trans hin.2.2 hlt⟩

/-- `TREE_BUILD` leaves `NODE`, `PQ`, `A`, `B` and `ROOT` within their widths. -/
theorem Widths.setTree {s : State} (h : Widths s) (hc : s.cfg.wellFormed = true) (hp : present s.cfg.leafOrder s.freq ≠ []) :
    Widths { s with
      node := (builtTree s.cfg.leafOrder s.freq s.nodeA s.nodeB).node
      pq := (builtTree s.cfg.leafOrder s.freq s.nodeA s.nodeB).pq
      nodeA := (builtTree s.cfg.leafOrder s.freq s.nodeA s.nodeB).nodeA
      nodeB := (builtTree s.cfg.leafOrder s.freq s.nodeA s.nodeB).nodeB
      root := (builtTree s.cfg.leafOrder s.freq s.nodeA s.nodeB).pq.headD 0 } := by
  obtain ⟨hn, hl⟩ := builtTree_fits s.nodeA s.nodeB hc h.freq_len h.freq_sum hp
  obtain ⟨root, t, hpq, -, -, -, -, hr, hlen⟩ := builtTree_spec s.nodeA s.nodeB (nodup_present hc s.freq) hp
  have hpos := List.length_pos_iff.2 hp
  have hlt := lt_of_le_of_lt hl (Config.maxNode_lt s.cfg)
  have hroot : root < 2 ^ s.cfg.wNode := by rw [hr]; split <;> omega
  have hab := (builtTree_nodes s.nodeA s.nodeB hp).2
  have h2 := Config.two_le_nSym hc
  refine ⟨h.1, hn, hl, ?_, h.5, h.6, ?_, ?_, h.9, h.10, h.11, h.12, ?_, ?_, h.15, h.16, h.17, h.18, h.19, h.20⟩
  · dsimp only; rw [hpq]; exact hroot
  · dsimp only; rw [hpq]; simp only [List.length_singleton]; omega
  · dsimp only; rw [hpq]; intro i hi; rw [List.mem_singleton.1 hi]; exact hroot
  · rcases hab with ⟨e, -⟩ | ⟨e, -⟩
    · dsimp only; rw [e]; exact h.nodeA_lt
    · exact lt_trans e hlt
  · rcases hab with ⟨-, e⟩ | ⟨-, e⟩
    · dsimp only; rw [e]; exact h.nodeB_lt
    · exact lt_trans e hlt

/-- The symbols `CODE_ASSIGN` writes are those of nodes in use. -/
theorem Widths.setCode {s : State} (h : Widths s) :
    Widths { s with code := codeTable s.cfg.degenCode s.node s.root, stack := [] } := by
  refine ⟨fun e he => ?_, h.2, h.3, h.4, h.5, h.6, h.7, h.8, h.9, h.10, h.11, h.12, h.13, h.14, h.15, h.16, h.17, h.18, h.19,
    Nat.zero_le _⟩
  obtain ⟨w, hw⟩ := mem_codeTable he
  exact (h.node_fits _ hw).1

/-- A payload whose stream fits `BIN` fits `ENC`, and its length fits `L`. -/
theorem Widths.setEnc {s : State} (h : Widths s) {bits : Bits} (hb : streamLength bits.length ≤ s.cfg.maxBin) :
    Widths { s with enc := bits, payloadLen := bits.length, idx := s.wlen } := by
  have hl : bits.length ≤ 8 * s.cfg.maxBin := by simp only [streamLength] at hb; omega
  exact ⟨h.1, h.2, h.3, h.4, h.5, h.6, h.7, h.8, hl, h.10, h.11, lt_index_left h.wlen_lt, h.13, h.14, lt_wBLen_add hl, h.16, h.17, h.18,
    h.19, h.20⟩

/-- The length of a padded payload (44_bit_packer.md R144). -/
theorem length_padded (enc : Bits) : (padded (paddingCount enc.length) enc).length = 8 * streamLength enc.length := by
  simp only [padded, paddingCount, streamLength, List.length_append, length_bin8, List.length_replicate]; omega

/-- A payload whose stream fits `BIN` fits `PAD` when it is padded. -/
theorem Widths.setPad {s : State} (h : Widths s) (hl : s.payloadLen = s.enc.length) (hb : streamLength s.payloadLen ≤ s.cfg.maxBin) :
    Widths { s with extra := paddingCount s.payloadLen, pad := padded (paddingCount s.payloadLen) s.enc } := by
  refine ⟨h.1, h.2, h.3, h.4, h.5, h.6, h.7, h.8, h.9, ?_, h.11, h.12, h.13, h.14, h.15, ?_, h.17, h.18, h.19, h.20⟩
  · dsimp only
    rw [hl] at hb ⊢
    rw [length_padded]; omega
  · show paddingCount s.payloadLen < 2 ^ 8
    simp only [paddingCount]; omega

theorem Widths.setIdx {s : State} (h : Widths s) {i : Nat} (hi : i ≤ 8 * s.cfg.maxBin) : Widths { s with idx := i } :=
  ⟨h.1, h.2, h.3, h.4, h.5, h.6, h.7, h.8, h.9, h.10, h.11, lt_index_right (lt_wBLen_add hi), h.13, h.14, h.15, h.16, h.17, h.18, h.19,
    h.20⟩

/-- A loaded stream that fits `BIN` fits `PAD` as bits. -/
theorem Widths.setStream {s : State} (h : Widths s) (hb : s.binLen ≤ s.cfg.maxBin) :
    Widths { s with pad := deserializeBytes s.stream, idx := s.binLen } := by
  refine ⟨h.1, h.2, h.3, h.4, h.5, h.6, h.7, h.8, h.9, ?_, h.11, lt_index_right (lt_wBLen_add (by show s.binLen ≤ 8 * s.cfg.maxBin; omega)), h.13, h.14, h.15,
    h.16, h.17, h.18, h.19, h.20⟩
  dsimp only
  rw [length_deserializeBytes, State.length_stream]; omega

/-- What `UNPAD` takes out of `PAD` fits. -/
theorem Widths.setPayload {s : State} (h : Widths s) {extra : Nat} (he : extra < 2 ^ 8) (n : Nat) (hn : n ≤ s.pad.length) :
    Widths { s with extra := extra, payloadLen := n, enc := (s.pad.drop 8).take n } := by
  have hp := h.pad_len
  refine ⟨h.1, h.2, h.3, h.4, h.5, h.6, h.7, h.8, ?_, h.10, h.11, h.12, h.13, h.14,
    lt_wBLen_add (by show n ≤ 8 * s.cfg.maxBin; omega), he, h.17, h.18, h.19, h.20⟩
  simp only [List.length_take, List.length_drop]; omega

/-- What `DECODE` leaves in its registers fits. -/
theorem Widths.setDecoded {s : State} (h : Widths s) {n : Nat} (hn : n ≤ s.cfg.maxTxt) :
    Widths { s with idx := s.enc.length, cand := [], walker := walkerRest s, nOut := n } := by
  refine ⟨h.1, h.2, h.3, h.4, h.5, h.6, h.7, h.8, h.9, h.10, h.11, lt_index_right (lt_wBLen_add h.enc_len), h.13, h.14, h.15, h.16,
    Nat.zero_le _, ?_, lt_of_le_of_lt hn (lt_two_pow_leastWidth _), h.20⟩
  show walkerRest s < _
  unfold walkerRest
  split
  · exact h.root_lt
  · exact h.walker_lt

/-- The tables and working registers of the reset state fit. -/
theorem Widths.reset (c : Config) : Widths (State.resetOf c) :=
  ⟨by simp [State.resetOf], by simp [State.resetOf], Nat.zero_le _, Nat.two_pow_pos _, List.length_replicate,
    by simp [State.resetOf], Nat.zero_le _, by simp [State.resetOf], Nat.zero_le _, Nat.zero_le _, Nat.two_pow_pos _,
    Nat.two_pow_pos _, Nat.two_pow_pos _, Nat.two_pow_pos _, Nat.two_pow_pos _, Nat.two_pow_pos _, Nat.zero_le _, Nat.two_pow_pos _,
    Nat.two_pow_pos _, Nat.zero_le _⟩

end Sys2Proof.Machine
end

