-- ==== Sys2Proof/Tests/Slice0.lean ====
section
/-! SUPPORT. The model's own tests. Expected results are from spec/95_test_vectors.md and the tables of spec/30_encoding.md and
spec/10_state.md, never from the model. The witnesses at the end meet the hypotheses of the statements. -/

set_option maxRecDepth 100000

namespace Sys2Proof.Tests

open Sys2Proof.Machine

/-! ## Helpers -/

/-- A core of configuration `c`, freshly reset, with a text loaded. -/
def textIn (c : Config) (t : List Symbol) : State :=
  { State.resetOf c with txt := { cells := cellsFrom 0 t, epoch := 0 }, txtLen := t.length }

/-- A core of configuration `c`, freshly reset, with a stream loaded. -/
def streamIn (c : Config) (b : List Byte) : State :=
  { State.resetOf c with bin := { cells := cellsFrom 0 b, epoch := 0 }, binLen := b.length }

/-- The outcome is a next state with this property. -/
def gives (o : Outcome) (p : State → Bool) : Bool :=
  match o with
  | .next t => p t
  | .fault _ => false
  | .refused _ => false

/-- The outcome is this `STATUS`, with the core idle. -/
def ends (o : Outcome) (status : BitVec 16) : Bool := gives o (fun t => t.status == status && t.seq == 0)

/-- Bits written as digits, most significant first. -/
def digits (ds : List Nat) : Bits := ds.map (fun d => d == 1)

/-! ## Well-formedness: each check refuses an ill-formed term -/

/-- The smallest configuration: two symbol values, one symbol of text, two bytes of stream. -/
def smallest : Config := { wSym := 1, maxTxt := 1, maxBin := 2, ws := [1], degenBit := true, leafOrder := [1, 0] }

theorem test_config_smallest : smallest.wellFormed = true := by decide

theorem test_config_needs_symbol_width : Config.wellFormed { smallest with wSym := 0, ws := [], leafOrder := [0] } = false := by decide

theorem test_config_needs_text_room : Config.wellFormed { smallest with maxTxt := 0 } = false := by decide

theorem test_config_needs_stream_room : Config.wellFormed { smallest with maxBin := 1 } = false := by decide

theorem test_config_whitespace_not_a_symbol : Config.wellFormed { smallest with ws := [2] } = false := by decide

theorem test_config_leaf_order_repeats : Config.wellFormed { smallest with leafOrder := [0, 0] } = false := by decide

/-- The decision's values, and the derived ones of 00_scope.md R5. -/
theorem test_config_chosen :
    Config.chosen.wellFormed = true ∧ Config.chosen.nSym = 256 ∧ Config.chosen.maxNode = 511 ∧ Config.chosen.wNode = 9 ∧
      Config.chosen.maxCodeLen = 255 ∧ Config.chosen.degenCode = [false] := by decide

/-- `W_CNT` is the least `w` with `MAX_TXT < 2^w`. -/
theorem test_count_width : ([1, 2, 255, 256].map fun n => { Config.chosen with maxTxt := n }.wCnt) = [1, 2, 8, 9] := by decide

theorem test_opcode_zero_illegal : (CodeWord.cmd8 0x00).wellFormed = false := by decide

theorem test_opcode_four_illegal : (CodeWord.cmd8 0x04).wellFormed = false := by decide

theorem test_stage_zero_illegal : (CodeWord.stage4 0).wellFormed = false := by decide

theorem test_stage_eleven_illegal : (CodeWord.stage4 11).wellFormed = false := by decide

/-- `BUSY` and `DONE` are never both set (10_state.md R23). -/
theorem test_status_busy_and_done_illegal : statusLegal 0x0003 = false := by decide

/-- `ERR_CODE` 4 is never written (60_exceptions.md R204). -/
theorem test_status_io_error_illegal : statusLegal 0x0046 = false := by decide

theorem test_cmd_write_wider_than_cmd : (HostAction.csrWrite 0 256).wellFormed Config.chosen = false := by decide

/-- `W_TLEN = 10` where `MAX_TXT = 1000` (95_test_vectors.md V-TRIM). -/
theorem test_length_write_wider_than_txtLen : (HostAction.csrWrite 2 1024).wellFormed Config.chosen = false := by decide

theorem test_length_write_wider_than_binLen : (HostAction.csrWrite 3 1024).wellFormed Config.chosen = false := by decide

theorem test_length_write_above_capacity_allowed : (HostAction.csrWrite 2 1001).wellFormed Config.chosen = true := by decide

theorem test_symbol_write_wider_than_symbol : (HostAction.memWrite .txt 0 256).wellFormed Config.chosen = false := by decide

theorem test_byte_write_wider_than_byte : (HostAction.memWrite .bin 0 256).wellFormed Config.chosen = false := by decide

theorem test_buffer_out_of_order : (Memory.mk [(1, 0x61), (0, 0x62)] 0 : Memory Symbol).wf 2 = false := by decide

theorem test_buffer_repeated_index : (Memory.mk [(0, 0x61), (0, 0x62)] 0 : Memory Symbol).wf 2 = false := by decide

theorem test_buffer_beyond_capacity : (Memory.mk [(2, 0x61)] 0 : Memory Symbol).wf 2 = false := by decide

/-! ## Encodings, bit by bit from 30_encoding.md R71 and R73 -/

theorem test_word_compress : decodeCmd 0b00000001 = .ok .compress ∧ encode .compress = .cmd8 0b00000001 := by decide

theorem test_word_decompress : decodeCmd 0b00000010 = .ok .decompress ∧ encode .decompress = .cmd8 0b00000010 := by decide

theorem test_word_clear : decodeCmd 0b00000011 = .ok .clear ∧ encode .clear = .cmd8 0b00000011 := by decide

theorem test_word_trim : decodeStage 0b0001 = .ok .trim ∧ encode .trim = .stage4 0b0001 := by decide

theorem test_word_freq : decodeStage 0b0010 = .ok .freq ∧ encode .freq = .stage4 0b0010 := by decide

theorem test_word_treeBuild : decodeStage 0b0011 = .ok .treeBuild ∧ encode .treeBuild = .stage4 0b0011 := by decide

theorem test_word_codeAssign : decodeStage 0b0100 = .ok .codeAssign ∧ encode .codeAssign = .stage4 0b0100 := by decide

theorem test_word_encode : decodeStage 0b0101 = .ok .encode ∧ encode .encode = .stage4 0b0101 := by decide

theorem test_word_pad : decodeStage 0b0110 = .ok .pad ∧ encode .pad = .stage4 0b0110 := by decide

theorem test_word_serialize : decodeStage 0b0111 = .ok .serialize ∧ encode .serialize = .stage4 0b0111 := by decide

theorem test_word_deserialize : decodeStage 0b1000 = .ok .deserialize ∧ encode .deserialize = .stage4 0b1000 := by decide

theorem test_word_unpad : decodeStage 0b1001 = .ok .unpad ∧ encode .unpad = .stage4 0b1001 := by decide

theorem test_word_decode : decodeStage 0b1010 = .ok .decode ∧ encode .decode = .stage4 0b1010 := by decide

theorem test_word_illegal : decodeCmd 0xFF = .error (.illegalOpcode 0xFF) ∧ decodeStage 0b1111 = .error (.illegalStage 0b1111) := by
  decide

/-- The rows of the opcode table, each by its own bits. -/
theorem test_table_words :
    ([1, 2, 3].map (decodeTableWord 8) = [some .compress, some .decompress, some .clear]) ∧
      ([1, 2, 3, 4, 5, 6, 7, 8, 9, 10].map (decodeTableWord 4) =
        [some .trim, some .freq, some .treeBuild, some .codeAssign, some .encode, some .pad, some .serialize, some .deserialize,
          some .unpad, some .decode]) := by
  decide

/-- A command placed in the reset state is accepted by the next step. -/
theorem test_placed_command_runs : gives (step (State.reset.withFetchWord 8 1)) (fun t => t.status == 0x0001 && t.seq == 1) = true := by
  decide

/-- A stage placed in the reset state runs in the next step: the empty text has no symbol (95_test_vectors.md V-TREE). -/
theorem test_placed_stage_runs : ends (step (State.reset.withFetchWord 4 3)) 0x0316 = true := by decide

/-! ## The commands (47_commands.md) -/

theorem test_compress_accepted : gives (exec .compress { State.reset with code := [(0x61, [false])], node := [.leaf 0x61 1] })
    (fun t => t.status == 0x0001 && t.seq == 1 && t.code == [] && t.node == []) = true := by decide

theorem test_compress_ignored_while_busy :
    gives (exec .compress { State.reset with status := 0x0001, seq := 9, code := [(0x61, [false])] })
      (fun t => t.status == 0x0001 && t.seq == 9 && t.code == [(0x61, [false])]) = true := by decide

theorem test_decompress_accepted : gives (exec .decompress { State.reset with status := 0x0316, code := [(0x61, [false])] })
    (fun t => t.status == 0x0001 && t.seq == 8 && t.code == [(0x61, [false])]) = true := by decide

theorem test_clear_completes : gives (exec .clear { State.reset with code := [(0x61, [false])], node := [.leaf 0x61 1], binLen := 2 })
    (fun t => t.status == 0x0002 && t.seq == 0 && t.code == [] && t.node == [] && t.binLen == 2) = true := by decide

/-! ## The stages, on the rows of 95_test_vectors.md -/

/-- V-TRIM: "ab \n" has `WLEN = 2`, `TXT_LEN` unchanged. -/
theorem test_trim_drops_trailing : gives (exec .trim (textIn Config.chosen [0x61, 0x62, 0x20, 0x0A]))
    (fun t => t.wlen == 2 && t.txtLen == 4 && t.seq == 2) = true := by decide

/-- V-TRIM: `TXT_LEN = 1001` where `MAX_TXT = 1000`. -/
theorem test_trim_capacity : ends (exec .trim { State.reset with txtLen := 1001 }) 0x0156 = true := by decide

/-- V-FREQ: "aabbbcc". -/
theorem test_freq_counts : gives (exec .freq { textIn Config.chosen [0x61, 0x61, 0x62, 0x62, 0x62, 0x63, 0x63] with wlen := 7 })
    (fun t => freqAt t.freq 0x61 == 2 && freqAt t.freq 0x62 == 3 && freqAt t.freq 0x63 == 2 && freqAt t.freq 0x64 == 0) = true := by
  decide

/-- V-TREE: "aabbbcc", merges (0,2->3,4) and (1,3->4,7). -/
theorem test_treeBuild_merges :
    gives (exec .treeBuild { State.reset with freq := countSymbols 256 [0x61, 0x61, 0x62, 0x62, 0x62, 0x63, 0x63] })
      (fun t => t.node == [.leaf 0x61 2, .leaf 0x62 3, .leaf 0x63 2, .internal 4 0 2, .internal 7 1 3] && t.root == 4 && t.pq == [4])
      = true := by
  decide

/-- V-TREE: the empty text; and leaves made in the order `LEAF_ORDER` gives (42_tree_builder.md R121), here 1 before 0. -/
theorem test_treeBuild_empty_and_order :
    ends (exec .treeBuild State.reset) 0x0316 = true ∧
      gives (exec .treeBuild { State.resetOf smallest with freq := [3, 5] })
        (fun t => t.node == [.leaf 1 5, .leaf 0 3, .internal 8 1 0]) = true := by decide

/-- V-CODE: "aabbbcc" has b:0, a:10, c:11. -/
theorem test_codeAssign_paths :
    gives (exec .codeAssign { State.reset with
        node := [.leaf 0x61 2, .leaf 0x62 3, .leaf 0x63 2, .internal 4 0 2, .internal 7 1 3], root := 4 })
      (fun t => t.code == [(0x61, digits [1, 0]), (0x62, digits [0]), (0x63, digits [1, 1])]) = true := by decide

/-- V-CODE: "aaaa" has a:0; with the other bit for `DEGEN_CODE` (43_code_generator.md R131) it would be a:1. -/
theorem test_codeAssign_one_symbol :
    gives (exec .codeAssign { State.reset with node := [.leaf 0x61 4], root := 0 }) (fun t => t.code == [(0x61, digits [0])]) = true ∧
      gives (exec .codeAssign { State.resetOf smallest with node := [.leaf 1 4], root := 0 }) (fun t => t.code == [(1, digits [1])]) = true := by
  decide

/-- V-CODE, V-PACK: the table and the payload of "aabbbcc". -/
def tableA : CodeTable := [(0x61, digits [1, 0]), (0x62, digits [0]), (0x63, digits [1, 1])]

def payloadA : Bits := digits [1, 0, 1, 0, 0, 0, 0, 1, 1, 1, 1]

/-- V-PACK: "aabbbcc" has `L = 11`. -/
theorem test_encode_payload :
    gives (exec .encode { textIn Config.chosen [0x61, 0x61, 0x62, 0x62, 0x62, 0x63, 0x63] with wlen := 7, code := tableA })
      (fun t => t.enc == payloadA && t.payloadLen == 11 && t.seq == 6) = true := by decide

/-- V-PACK: "aabbbcc" where `MAX_BIN = 2`. -/
theorem test_encode_capacity :
    gives (exec .encode { textIn { Config.chosen with maxTxt := 7, maxBin := 2 } [0x61, 0x61, 0x62, 0x62, 0x62, 0x63, 0x63] with
        wlen := 7, code := tableA, binLen := 1 })
      (fun t => t.status == 0x0556 && t.binLen == 0 && t.code == [] && t.txtLen == 7) = true := by decide

/-- V-PACK: "aabbbcc" has `EXTRA = 5` and the bytes 05 A1 E0. -/
theorem test_pad_header : gives (exec .pad { State.reset with enc := payloadA, payloadLen := 11 })
    (fun t => t.extra == 5 && t.pad == digits [0, 0, 0, 0, 0, 1, 0, 1, 1, 0, 1, 0, 0, 0, 0, 1, 1, 1, 1, 0, 0, 0, 0, 0]) = true := by
  decide

/-- V-PACK: "abababab" has `L = 8` and a full byte of padding. -/
theorem test_pad_aligned : gives (exec .pad { State.reset with enc := digits [0, 1, 0, 1, 0, 1, 0, 1], payloadLen := 8 })
    (fun t => t.extra == 8 && t.pad.length == 24) = true := by decide

/-- V-PACK, V-SER: 05 A1 E0, most significant bit first. -/
theorem test_serialize_bytes :
    gives (exec .serialize { State.reset with
        pad := digits [0, 0, 0, 0, 0, 1, 0, 1, 1, 0, 1, 0, 0, 0, 0, 1, 1, 1, 1, 0, 0, 0, 0, 0] })
      (fun t => t.bin.cells == [(0, 0x05), (1, 0xA1), (2, 0xE0)] && t.binLen == 3 && t.status == 0x0002 && t.seq == 0) = true := by
  decide

/-- V-SER read right to left. -/
theorem test_deserialize_bits : gives (exec .deserialize (streamIn Config.chosen [0x05, 0xA1]))
    (fun t => t.pad == digits [0, 0, 0, 0, 0, 1, 0, 1, 1, 0, 1, 0, 0, 0, 0, 1] && t.seq == 9) = true := by decide

/-- V-SER: `BIN_LEN = MAX_BIN + 1`. -/
theorem test_deserialize_capacity : ends (exec .deserialize { State.reset with binLen := 1001, txtLen := 3 }) 0x0856 = true := by decide

/-- V-UNPAD: 05 A1 FF, padding not looked at. -/
theorem test_unpad_strips : gives (exec .unpad { State.reset with pad := deserializeBytes [0x05, 0xA1, 0xFF] })
    (fun t => t.extra == 5 && t.payloadLen == 11 && t.enc == payloadA) = true := by decide

/-- V-UNPAD: 09 00. -/
theorem test_unpad_header_too_large : ends (exec .unpad { State.reset with pad := deserializeBytes [0x09, 0x00] }) 0x0936 = true := by
  decide

/-- V-DEC: table A on the payload of 05 A1 E0. -/
theorem test_decode_text : gives (exec .decode { State.reset with code := tableA, enc := payloadA })
    (fun t => t.txt.cells == cellsFrom 0 [0x61, 0x61, 0x62, 0x62, 0x62, 0x63, 0x63] && t.txtLen == 7 && t.status == 0x0002) = true := by
  decide

/-- V-DEC: table A, `MAX_TXT = 4`, on the payload of 00 A1: the fifth match comes before the end of the payload. -/
theorem test_decode_capacity :
    ends (exec .decode { State.resetOf { Config.chosen with maxTxt := 4, maxBin := 2 } with
      code := tableA, enc := digits [1, 0, 1, 0, 0, 0, 0, 1] }) 0x0A56 = true := by decide

/-! ## The queue, the walker, truncation, the host and reset -/

/-- 46_decoder.md R167 (1): the stream of "abababab" without its last byte decodes to the empty text, without error. -/
theorem test_truncation_unnoticed : decompressFn [0x08, 0x55] [(0x61, digits [0]), (0x62, digits [1])] = .ok [] := by decide


/-- V-PQ: weights [2, 3, 2]. -/
theorem test_pq_ties_by_index :
    pqExtractMin [.leaf 0x61 2, .leaf 0x62 3, .leaf 0x63 2] [0, 1, 2] = some (0, [1, 2]) ∧
      pqExtractMin [.leaf 0x61 2, .leaf 0x62 3, .leaf 0x63 2] [1, 2] = some (2, [1]) := by decide

/-- V-DEC: table D on 04 40, by the tree and by the table. -/
theorem test_walker_one_symbol :
    walkPayload false [.leaf 0x61 4] 0 9 (digits [0, 1, 0, 0]) = .corrupt ∧
      decodePayload [(0x61, digits [0])] 9 (digits [0, 1, 0, 0]) = .corrupt := by decide

/-- An illegal command reports itself and nothing else (47_commands.md R174). -/
theorem test_illegal_command : gives (step (State.reset.doing [.csrWrite 0 0x04])) (fun t => t.status == 0x0066 && t.seq == 0) = true := by
  decide

/-- A length above the capacity is stored as written (10_state.md R24). -/
theorem test_length_above_capacity : gives (step (State.reset.doing [.csrWrite 2 1001])) (fun t => t.txtLen == 1001) = true := by decide

/-- A read of `CMD` returns 0 (20_memory.md R55). -/
theorem test_read_cmd : gives (step ({ State.reset with readData := 7 }.doing [.csrRead 0])) (fun t => t.readData == 0) = true := by
  decide

/-- Reset while busy (70_reset_and_hazards.md R232). -/
theorem test_reset_aborts :
    gives (step ({ State.reset with status := 0x0001, seq := 9, binLen := 3, code := [(0x61, [false])] }.doing [.reset]))
      (fun t => t.status == 0 && t.seq == 0 && t.binLen == 0 && t.code == []) = true := by decide

/-! ## Witnesses: states and operands that meet the hypotheses of the statements, at boundary values -/

/-- One symbol of text, two bytes of stream. -/
def tiny : Config := { Config.chosen with maxTxt := 1, maxBin := 2, ws := [0x20] }

/-- A running core: stage `k` is next. -/
def running (k : BitVec 4) : State := { State.reset with status := 0x0001, seq := k }

/-- The tree of "ab" (95_test_vectors.md V-TREE, as for "ba"). -/
def treeAB : List Node := [.leaf 0x61 1, .leaf 0x62 1, .internal 2 0 1]

theorem treeAB_isTree : IsTree treeAB 2 (.fork (.leaf 0x61 1) (.leaf 0x62 1)) :=
  ⟨⟨0, 1, rfl, rfl, rfl⟩, by decide, by decide, by decide⟩

theorem treeA_isTree : IsTree [.leaf 0x61 4] 0 (.leaf 0x61 4) := ⟨rfl, by decide, by decide, by decide⟩

theorem reset_struct (c : Config) (h : c.wellFormed = true) : StructInv (State.resetOf c) where
  cfg_ok := h
  txt_wf := Memory.wf_empty _ _
  txt_fits := by simp [State.resetOf]
  bin_wf := Memory.wf_empty _ _
  txtLen_lt := Nat.two_pow_pos _
  binLen_lt := Nat.two_pow_pos _
  status_legal := (by decide : statusLegal 0 = true)
  busy_iff := (by decide : (0 : BitVec 16).getLsbD 0 = true ↔ (0 : BitVec 4) ≠ 0)
  seq_le := (by decide : (0 : BitVec 4).toNat ≤ 10)
  encoded := fun e => absurd (show (0 : BitVec 4) = 6 from e) (by decide)
  widths := Widths.reset c

theorem reset_codec (s : State) (h0 : s.seq = 0) (h : CodecKept s) : CodecInv s := by
  refine ⟨fun _ => h, ?_, ?_, ?_, ?_, ?_, ?_, ?_, ?_⟩ <;> intro e <;> rw [h0] at e <;> simp at e

/-- Two symbols of text, two bytes of stream. -/
def two : Config := { Config.chosen with maxTxt := 2, maxBin := 2 }

/-- A core at stage `k` of a command on "ab". -/
def atStage (k : BitVec 4) : State :=
  { textIn two [0x61, 0x62] with
    status := 0x0001, seq := k, wlen := 2, freq := countSymbols 256 [0x61, 0x62], pq := [2], root := 2
    node := if k.toNat ≤ 3 then [] else treeAB
    code := if k.toNat ≤ 4 then [] else [(0x61, [false]), (0x62, [true])]
    enc := [false, true], payloadLen := 2, extra := 6, pad := padded 6 [false, true] }

theorem atStage_text (k : BitVec 4) : (atStage k).trimmedText = [0x61, 0x62] := by
  show (textIn two [0x61, 0x62]).text = _
  decide

theorem atStage_trimmed (k : BitVec 4) : Trimmed (atStage k) :=
  ⟨(by decide : 2 ≤ 2), (by decide : 2 = trimmedLength Config.defaultWs (textIn two [0x61, 0x62]).txtAt 2)⟩

theorem atStage_tree : ∃ t, IsTree treeAB 2 t ∧ ∀ x, x ∈ t.symbols ↔ x ∈ ([0x61, 0x62] : List Symbol) :=
  ⟨_, treeAB_isTree, fun _ => Iff.rfl⟩

theorem atStage_codec (k : BitVec 4) (h1 : 1 ≤ k.toNat) : CodecInv (atStage k) := by
  have ht := atStage_trimmed
  have hx := atStage_text
  have hc : ∀ k : BitVec 4, 5 ≤ k.toNat → (atStage k).node = treeAB ∧ (atStage k).code = codeTable [false] treeAB 2 := by decide
  have ha : ∀ k : BitVec 4, 5 ≤ k.toNat → Assigned (atStage k) := fun k h =>
    ⟨ht k, by rw [hx]; decide, by rw [(hc k h).1, (hc k h).2]; rfl, by rw [(hc k h).1, hx]; exact atStage_tree⟩
  have he : ∀ k : BitVec 4, 5 ≤ k.toNat → Encoded (atStage k) := fun k h =>
    ⟨ha k h, by rw [hx, (hc k h).2]; exact (by decide : payload (codeTable [false] treeAB 2) [0x61, 0x62] = some [false, true]), rfl, (by decide : streamLength 2 ≤ 2)⟩
  refine ⟨?_, ?_, ?_, ?_, ?_, ?_, ?_, ?_, fun h8 => ?_⟩
  · rintro (rfl : k = 0); simp at h1
  · rintro (rfl : k = 1); exact ⟨rfl, rfl⟩
  · rintro (rfl : k = 2); exact ⟨rfl, rfl, ht 2⟩
  · rintro (rfl : k = 3); exact ⟨rfl, rfl, ht 3, by rw [hx]; rfl⟩
  · rintro (rfl : k = 4); exact ⟨rfl, ht 4, by rw [hx]; decide, by rw [hx]; exact atStage_tree⟩
  · rintro (rfl : k = 5); exact ha 5 (by decide)
  · rintro (rfl : k = 6); exact he 6 (by decide)
  · rintro (rfl : k = 7); exact ⟨he 7 (by decide), rfl⟩
  · have h5 : 5 ≤ k.toNat := le_trans (by decide) (show 8 ≤ k.toNat from h8)
    exact .inr ⟨_, (by rw [(hc k h5).1]; exact treeAB_isTree), by rw [(hc k h5).1, (hc k h5).2]; rfl⟩

theorem atStage_struct (k : BitVec 4) (h1 : 1 ≤ k.toNat) (h : k.toNat ≤ 10) : StructInv (atStage k) where
  cfg_ok := (by decide : two.wellFormed = true)
  txt_wf := (by decide : (Memory.mk [(0, 0x61), (1, 0x62)] 0 : Memory Symbol).wf 2 = true)
  txt_fits := (by decide : ∀ e ∈ ([(0, 0x61), (1, 0x62)] : List (Nat × Symbol)), e.2 < 256)
  bin_wf := Memory.wf_empty _ _
  txtLen_lt := (by decide : 2 < 2 ^ leastWidth 2)
  binLen_lt := Nat.two_pow_pos _
  status_legal := (by decide : statusLegal 0x0001 = true)
  busy_iff := ⟨fun _ => (by rintro (rfl : k = 0); simp at h1), fun _ => (by decide : (0x0001 : BitVec 16).getLsbD 0 = true)⟩
  seq_le := h
  encoded := fun _ => ⟨rfl, (by decide : streamLength 2 ≤ 2)⟩
  widths := by
    constructor
    · show ∀ e ∈ (if k.toNat ≤ 4 then [] else [(0x61, [false]), (0x62, [true])]), e.1 < 256
      split <;> decide
    · show ∀ n ∈ (if k.toNat ≤ 3 then [] else treeAB), n.fits _
      split
      · intro n hn; cases hn
      · intro n hn
        rcases List.mem_cons.1 hn with rfl | hn
        · exact (by decide : 0x61 < 2 ^ 8 ∧ 1 < 2 ^ leastWidth 2)
        · rcases List.mem_cons.1 hn with rfl | hn
          · exact (by decide : 0x62 < 2 ^ 8 ∧ 1 < 2 ^ leastWidth 2)
          · rw [List.mem_singleton.1 hn]; exact (by decide : 2 < 2 ^ leastWidth 2 ∧ 0 < 2 ^ 9 ∧ 1 < 2 ^ 9)
    · show (if k.toNat ≤ 3 then [] else treeAB).length ≤ 511
      split <;> decide
    · exact (by decide : 2 < 2 ^ 9)
    · exact length_countSymbols _ _
    · exact (by decide : (countSymbols 256 [0x61, 0x62]).sum < 2 ^ leastWidth 2)
    · exact (by decide : 1 ≤ 256)
    · exact (by decide : ∀ i ∈ [2], i < 2 ^ 9)
    · exact (by decide : 2 ≤ 8 * 2)
    · exact (by decide : (padded 6 [false, true]).length ≤ 8 * 2)
    · exact (by decide : 2 < 2 ^ leastWidth 2)
    · exact Nat.two_pow_pos _
    · exact Nat.two_pow_pos _
    · exact Nat.two_pow_pos _
    · exact (by decide : 2 < 2 ^ (leastWidth 2 + 3))
    · exact (by decide : 6 < 2 ^ 8)
    · exact Nat.zero_le _
    · exact Nat.two_pow_pos _
    · exact Nat.two_pow_pos _
    · exact Nat.zero_le _

theorem chosen_wellFormed : Config.chosen.wellFormed = true := by decide

theorem freq_a_one : (present Config.chosen.leafOrder (countSymbols 256 [0x61])).length = 1 := by decide

theorem freq_ab_two : (present Config.chosen.leafOrder (countSymbols 256 [0x61, 0x62])).length = 2 := by decide

theorem freq_a_present : present Config.chosen.leafOrder (countSymbols 256 [0x61]) ≠ [] := List.ne_nil_of_length_pos (by rw [freq_a_one]; decide)

theorem exec_answers (i : Instr) (s : State) : ∃ t, exec i s = .next t := exec_next i s

theorem witness_DecodeEncodeAgree : Instr.decode.wellFormed = true ∧ decode (.stage4 10) = .ok .decode ∧ decode (.cmd8 1) = .ok .compress := by
  decide

theorem witness_IllegalWords :
    (CodeWord.cmd8 0).wellFormed = false ∧ (CodeWord.cmd8 4).wellFormed = false ∧ (CodeWord.cmd8 255).wellFormed = false ∧
      (CodeWord.stage4 0).wellFormed = false ∧ (CodeWord.stage4 11).wellFormed = false ∧ (CodeWord.stage4 15).wellFormed = false := by
  decide

theorem witness_StepRunsWrittenCommand :
    (State.reset.doing [.csrWrite 0 1, .idle]).host = .csrWrite 0 1 :: [.idle] ∧ decodeCmd (BitVec.ofNat 8 1) = .ok .compress ∧
      (State.reset.doing [.csrWrite 0 3]).host = .csrWrite 0 3 :: [] ∧ decodeCmd (BitVec.ofNat 8 3) = .ok .clear := by decide

theorem witness_StepRunsSequencedStage :
    decodeStage (running 1).seq = .ok .trim ∧ (running 1).host = [] ∧
      decodeStage ((running 10).doing [.idle]).seq = .ok .decode ∧ ((running 10).doing [.idle]).host = .idle :: [] ∧
      ((running 7).doing [.pollDone]).host = .pollDone :: [] ∧ ((running 7).doing [.pollDone]).done = false := by decide

theorem witness_IdleCoreWaits :
    State.reset.seq = 0 ∧ State.reset.host = [] ∧ (State.reset.doing [.idle]).host = .idle :: [] ∧
      (State.reset.doing [.pollDone]).host = .pollDone :: [] ∧ (State.reset.doing [.pollDone]).done = false ∧
      ({ State.reset with status := 0x0002 }.doing [.pollDone]).seq = 0 ∧
      ({ State.reset with status := 0x0002 }.doing [.pollDone]).host = .pollDone :: [] ∧
      ({ State.reset with status := 0x0002 }.doing [.pollDone]).done = true := by decide

theorem witness_StepStops :
    (running 0).seq.toNat ≤ 10 ∧ (running 10).seq.toNat ≤ 10 ∧ 11 ≤ (running 11).seq.toNat ∧ (running 11).host = [] ∧
      11 ≤ (running 15).seq.toNat ∧ (running 15).host = [] := by decide

theorem witness_BusyCommandWriteIgnored :
    (running 1).busy = true ∧ Instr.clear.isCommand = true ∧ ((running 1).doing [.csrWrite 0 255]).busy = true ∧
      ((running 1).doing [.csrWrite 0 255]).host = .csrWrite 0 255 :: [] := by decide

theorem witness_idle : State.reset.busy = false ∧ ({ State.reset with status := 0x0A56 } : State).busy = false := by decide

theorem witness_IllegalCommand :
    ∀ v ∈ [0, 4, 255], (State.reset.doing [.csrWrite 0 v]).host = .csrWrite 0 v :: [] ∧
      (State.reset.doing [.csrWrite 0 v]).busy = false ∧ v < 2 ^ 8 ∧ v ≠ 1 ∧ v ≠ 2 ∧ v ≠ 3 := by decide

theorem witness_Trim :
    ({ State.reset with txtLen := 1000 } : State).txtLen ≤ Config.chosen.maxTxt ∧
      Config.chosen.maxTxt < ({ State.reset with txtLen := 1001 } : State).txtLen ∧ State.reset.cfg = Config.chosen := by decide

theorem witness_CountsSum : ∃ t, exec .freq { textIn tiny [0x61] with wlen := 1 } = .next t := exec_answers _ _

theorem witness_Queue : (0 : Nat) ≠ 1 ∧ ([0, 1] : List Nat) ≠ [] ∧ ([0, 1] : List Nat).Nodup ∧ ([0, 1] : List Nat).Pairwise (· < ·) := by
  decide

/-- A configuration whose `LEAF_ORDER` is not ascending, and the decision's. -/
theorem witness_Leaves : smallest.wellFormed = true ∧ Config.chosen.leafOrder = Config.ascending Config.chosen.wSym :=
  ⟨by decide, by simp only [Config.chosen]⟩

theorem witness_Merge :
    ([0, 1] : List Nat).Pairwise (· < ·) ∧ (∀ i ∈ [0, 1], i < [Node.leaf 0x61 1, Node.leaf 0x62 1].length) ∧ 2 ≤ ([0, 1] : List Nat).length := by
  decide

theorem witness_NoSymbol : (∀ x, freqAt State.reset.freq x = 0) ∧ ∃ t, exec .freq State.reset = .next t :=
  ⟨freqAt_replicate _, exec_answers _ _⟩

theorem witness_TreeBuild :
    State.reset.cfg.wellFormed = true ∧ present State.reset.cfg.leafOrder (countSymbols 256 [0x61]) ≠ [] ∧
      ∃ t, exec .treeBuild { State.reset with freq := countSymbols 256 [0x61] } = .next t :=
  ⟨chosen_wellFormed, freq_a_present, exec_answers _ _⟩

/-- The merge steps' clause: with two symbols there is the step `k = 0`, and the counts are those of the trimmed text. -/
theorem witness_HuffmanTree :
    0 < (present (atStage 3).cfg.leafOrder (atStage 3).freq).length - 1 ∧
      (atStage 3).freq = countSymbols (atStage 3).cfg.nSym (atStage 3).trimmedText :=
  ⟨(by decide : 0 < (present Config.chosen.leafOrder (countSymbols 256 [0x61, 0x62])).length - 1), by rw [atStage_text]; rfl⟩

theorem witness_OneSymbol :
    tiny.wellFormed = true ∧ ({ textIn tiny [0x61] with wlen := 1, freq := countSymbols 256 [0x61] } : State).trimmedText = [0x61] ∧
      ({ textIn tiny [0x61] with wlen := 1, freq := countSymbols 256 [0x61] } : State).freq = countSymbols 256 [0x61] ∧
      ([0x61] : List Symbol) ≠ [] ∧ ∀ y ∈ ([0x61] : List Symbol), y = 0x61 :=
  ⟨by decide, by decide, rfl, by decide, by decide⟩

theorem witness_CodeAssign : IsTree ({ State.reset with node := treeAB, root := 2 } : State).node 2 (.fork (.leaf 0x61 1) (.leaf 0x62 1)) :=
  treeAB_isTree

theorem witness_LeafRoot : ({ State.reset with node := [.leaf 0x61 4] } : State).node[0]? = some (.leaf 0x61 4) := by decide

/-- With one symbol and with two. -/
theorem witness_Codes : ∀ text ∈ ([[0x61], [0x61, 0x62]] : List (List Symbol)), ∃ t u,
    State.reset.cfg.wellFormed = true ∧ present State.reset.cfg.leafOrder (countSymbols 256 text) ≠ [] ∧
      exec .treeBuild { State.reset with freq := countSymbols 256 text } = .next t ∧ exec .codeAssign t = .next u := by
  intro text h
  obtain ⟨t, ht⟩ := exec_answers .treeBuild { State.reset with freq := countSymbols 256 text }
  obtain ⟨u, hu⟩ := exec_answers .codeAssign t
  refine ⟨t, u, chosen_wellFormed, ?_, ht, hu⟩
  show present Config.chosen.leafOrder _ ≠ []
  simp only [List.mem_cons, List.not_mem_nil, or_false] at h
  rcases h with rfl | rfl
  · exact freq_a_present
  · exact List.ne_nil_of_length_pos (by rw [freq_ab_two]; decide)

theorem witness_TreeAndTable :
    IsTree treeAB 2 (.fork (.leaf 0x61 1) (.leaf 0x62 1)) ∧ 2 ≤ (HuffTree.fork (.leaf 0x61 1) (.leaf 0x62 1)).symbols.length ∧
      IsTree [.leaf 0x61 4] 0 (.leaf 0x61 4) ∧ (HuffTree.leaf 0x61 4).symbols.length = 1 :=
  ⟨treeAB_isTree, by decide, treeA_isTree, by decide⟩

/-- A text of one symbol, whose payload of one bit just fits. -/
theorem witness_Encode :
    ({ textIn tiny [0x61] with wlen := 1, code := [(0x61, [false])] } : State).trimmedText = [0x61] ∧
      List.Forall₂ (fun x c => codeOf [(0x61, [false])] x = some c) ([0x61] : List Symbol) [[false]] ∧
      2 + ([[false]] : List Bits).flatten.length / 8 ≤ tiny.maxBin :=
  ⟨by decide, .cons (by decide) .nil, by decide⟩

/-- A code of eight bits, one more than fits. -/
theorem witness_EncodeOversized :
    ({ textIn tiny [0x61] with wlen := 1, code := [(0x61, List.replicate 8 true)] } : State).trimmedText = [0x61] ∧
      List.Forall₂ (fun x c => codeOf [(0x61, List.replicate 8 true)] x = some c) ([0x61] : List Symbol) [List.replicate 8 true] ∧
      tiny.maxBin < 2 + ([List.replicate 8 true] : List Bits).flatten.length / 8 :=
  ⟨by decide, .cons (by decide) .nil, by decide⟩

theorem witness_EncodeUnknown :
    0x61 ∈ ({ textIn tiny [0x61] with wlen := 1 } : State).trimmedText ∧ codeOf ({ textIn tiny [0x61] with wlen := 1 } : State).code 0x61 = none := by
  decide

theorem witness_Pad :
    ({ State.reset with enc := [true], payloadLen := 1 } : State).payloadLen = [true].length ∧ (8 : Nat) % 8 = 0 ∧
      ({ State.reset with enc := List.replicate 8 true, payloadLen := 8 } : State).payloadLen = (List.replicate 8 true).length := by decide

theorem witness_Serialize :
    (List.replicate 16 false).length % 8 = 0 ∧ (List.replicate 16 false).length / 8 ≤ tiny.maxBin ∧ 1 < (List.replicate 16 false).length / 8 := by
  decide

theorem witness_ByteBits : (7 : Nat) < 8 ∧ (List.replicate 8 true).length = 8 := by decide

theorem witness_MostSignificantBitFirst : (0 : Nat) < 8 * [(0xA1 : Byte)].length ∧ 15 < 8 * [(0xA1 : Byte), 0xE0].length := by decide

theorem witness_SerializeDeserialize : ([] : Bits).length % 8 = 0 ∧ (List.replicate 16 true).length % 8 = 0 := by decide

theorem witness_Deserialize :
    (streamIn tiny [0x07, 0x00]).binLen ≤ (streamIn tiny [0x07, 0x00]).cfg.maxBin ∧
      (streamIn tiny [0x07, 0x00, 0x00]).cfg.maxBin < (streamIn tiny [0x07, 0x00, 0x00]).binLen := by decide

theorem witness_Unpad :
    ([true, false, false, false, false, false, false] : Bits).length < 8 ∧
      8 ≤ (bin8 1).length ∧ (bin8 1).length - 8 < bitsVal ((bin8 1).take 8) ∧
      deserializeBytes [0x08, 0x00] = bin8 8 ++ [] ++ List.replicate 8 false ∧ (bin8 8).length = 8 ∧
      bitsVal (bin8 8) = (List.replicate 8 false).length := by decide

/-- The three endings, where `MAX_TXT = 1`: one code word, one and a rest that matches nothing, two. -/
theorem witness_Decode :
    Recovers [(0x61, [false])] [[false]] [0x61] ∧ (∀ c ∈ [[false]], c ≠ []) ∧ [(0x61 : Symbol)].length ≤ tiny.maxTxt ∧ 0x61 < tiny.nSym ∧
      ([true] : Bits) ≠ [] ∧ (∀ p, p ≠ [] → p <+: [true] → rctLookup [(0x61, [false])] p = none) ∧
      Recovers [(0x61, [false])] [[false], [false]] [0x61, 0x61] ∧ [(0x61 : Symbol), 0x61].length = tiny.maxTxt + 1 := by
  have one : rctLookup [(0x61, [false])] [false] = some 0x61 ∧
      ∀ p, p ≠ [] → p <+: [false] → p ≠ [false] → rctLookup [(0x61, [false])] p = none := by
    refine ⟨by decide, fun p h1 h2 h3 => ?_⟩
    rw [List.prefix_cons_iff] at h2
    rcases h2 with h2 | ⟨t, rfl, ht⟩
    · exact absurd h2 h1
    · rw [List.prefix_nil] at ht; subst ht; exact absurd rfl h3
  refine ⟨.cons one .nil, by decide, by decide, by decide, by decide, fun p h1 h2 => ?_, .cons one (.cons one .nil), by decide⟩
  rw [List.prefix_cons_iff] at h2
  rcases h2 with h2 | ⟨t, rfl, ht⟩
  · exact absurd h2 h1
  · rw [List.prefix_nil] at ht; subst ht; decide

theorem witness_EmptyTable : State.reset.code = [] ∧ ({ State.reset with enc := [true] } : State).enc ≠ [] ∧ State.reset.enc = [] := by
  decide

theorem witness_CodecKept : CodecKept State.reset ∧ CodecKept { State.reset with node := treeAB, root := 2, code := codeTable [false] treeAB 2 } :=
  ⟨.inl ⟨rfl, rfl⟩, .inr ⟨_, treeAB_isTree, rfl⟩⟩

/-- `PAD` on one state; `UNPAD` on another that holds what `PAD` made and nothing else of it. -/
theorem witness_DecodeInvertsEncode :
    ({ State.reset with enc := [false], payloadLen := 1 } : State).payloadLen = [false].length ∧
      (∃ t, exec .pad { State.reset with enc := [false], payloadLen := 1 } = .next t ∧
        ({ State.reset with pad := digits [0, 0, 0, 0, 0, 1, 1, 1, 0, 0, 0, 0, 0, 0, 0, 0] } : State).pad = t.pad) ∧
      tiny.wellFormed = true ∧ ([0x61] : List Symbol) ≠ [] ∧
      ([0x61] : List Symbol).length ≤ tiny.maxTxt ∧ payload (codeTableOf tiny [0x61]) [0x61] = some [false] :=
  ⟨rfl, ⟨_, rfl, by decide⟩, by decide, by decide, by decide, by decide⟩

/-- Every error a stage can raise, from a running `STATUS`. -/
theorem witness_Error :
    ∀ p ∈ ([(.trim, { running 1 with txtLen := 1001 }), (.treeBuild, running 3),
        (.encode, { textIn tiny [0x61] with status := 0x0001, seq := 5, wlen := 1 }),
        (.encode, { textIn tiny [0x61] with status := 0x0001, seq := 5, wlen := 1, code := [(0x61, List.replicate 8 true)] }),
        (.deserialize, { running 8 with binLen := 1001 }), (.unpad, running 9),
        (.unpad, { running 9 with pad := deserializeBytes [0x09, 0x00] }),
        (.decode, { running 10 with enc := [true] }),
        (.decode, { running 10 with cfg := tiny, enc := [false, false], code := [(0x61, [false])] })] : List (Instr × State)),
      p.2.status = 0x0001 ∧ gives (exec p.1 p.2) (fun t => t.err) = true := by decide

/-- The invariants hold at every stage of a command, and the core takes a step there. -/
theorem witness_UnknownSymbol (k : BitVec 4) (h1 : 1 ≤ k.toNat) (h : k.toNat ≤ 10) :
    StructInv (atStage k) ∧ CodecInv (atStage k) ∧ (atStage k).status ≠ 0x0526 ∧ ∃ t, step (atStage k) = .next t := by
  refine ⟨atStage_struct k h1 h, atStage_codec k h1, (by decide : (0x0001 : BitVec 16) ≠ 0x0526), ?_⟩
  have h0 : (atStage k).seq ≠ 0 := by rintro (rfl : k = 0); simp at h1
  obtain ⟨i, hi⟩ := decodeStage_ok_of_le (atStage k).seq h0 h
  obtain ⟨t, ht⟩ := exec_answers i (atStage k)
  exact ⟨t, by rw [step, fetch, show (atStage k).host = [] from rfl]; dsimp only; rw [coreTurn_of_decode hi]; exact ht⟩

theorem witness_IdleHostAccess :
    (∀ a ∈ [HostAction.csrRead 1, .csrRead 2, .csrRead 3, .csrWrite 2 1023, .csrWrite 3 1023, .memRead .txt 999, .memRead .bin 999,
        .memWrite .txt 999 0xFF, .memWrite .bin 0 0], (State.reset.doing [a]).busy = false ∧ (State.reset.doing [a]).host = a :: []) ∧
      0xFF < 2 ^ State.reset.cfg.wSym ∧ 1023 < 2 ^ State.reset.cfg.wTLen ∧ 1023 < 2 ^ State.reset.cfg.wBLen ∧ 999 < State.reset.cfg.maxTxt ∧ 999 < State.reset.cfg.maxBin := by
  decide

theorem witness_BusyHostAccess :
    ∀ a ∈ [HostAction.csrRead 1, .csrRead 2, .csrRead 3, .csrWrite 0 1, .csrWrite 2 5, .memRead .txt 0, .memWrite .bin 0 0],
      ((running 7).doing [a]).busy = true ∧ ((running 7).doing [a]).host = a :: [] := by decide

theorem witness_AccessOutside :
    (∀ a ∈ [HostAction.csrRead 0, .csrRead 4, .csrWrite 1 0, .csrWrite 4 0, .memWrite .txt 1000 0, .memRead .bin 1000],
      (State.reset.doing [a]).host = a :: []) ∧
      State.reset.cfg.capacity .txt ≤ 1000 ∧ State.reset.cfg.capacity .bin ≤ 1000 := by decide

theorem witness_HostCannotDisturb :
    ((running 1).doing [.csrWrite 0 3]).busy = true ∧ ((running 1).doing [.csrWrite 0 3]).host = .csrWrite 0 3 :: [] ∧
      HostAction.csrWrite 0 3 ≠ .reset ∧ HostAction.csrWrite 0 3 ≠ .idle ∧ HostAction.csrWrite 0 3 ≠ .pollDone := by decide

theorem witness_ResetAborts : ((running 9).doing [.reset]).host = .reset :: [] := by decide

theorem witness_ResetMeetsInvariants : tiny.wellFormed = true ∧ smallest.wellFormed = true ∧ Config.chosen.wellFormed = true := by decide

/-- The reset state meets both invariants, and takes a step; for the stages of a command see `witness_UnknownSymbol`. -/
theorem witness_Invariants : StructInv State.reset ∧ CodecInv State.reset ∧ State.reset.busy = false ∧ step State.reset = .next State.reset :=
  ⟨reset_struct _ (by decide), reset_codec _ rfl (.inl ⟨rfl, rfl⟩), by decide, rfl⟩

theorem witness_CommandsLeave :
    ofCompress .trim = true ∧ (∃ t, exec .trim State.reset = .next t) ∧ (∃ t, exec .decode State.reset = .next t) ∧
      ∃ t, exec .clear State.reset = .next t := ⟨by decide, exec_answers _ _, exec_answers _ _, exec_answers _ _⟩

/-- Each way: a reset, `CLEAR` on a core that holds a table, and a stage of `COMPRESS` run while the host waits. -/
theorem witness_OnlyChangeCode :
    ∀ s ∈ [{ State.reset with code := [(0x61, [false])] }.doing [.reset], { State.reset with code := [(0x61, [false])] }.doing [.csrWrite 0 3],
        { running 4 with node := [.leaf 0x61 4] }, { running 4 with node := [.leaf 0x61 4] }.doing [.idle],
        { running 4 with node := [.leaf 0x61 4] }.doing [.pollDone]],
      gives (step s) (fun t => t.code != s.code) = true := by decide

theorem witness_RunningCommandEnds :
    StructInv (atStage 1) ∧ (atStage 1).busy = true ∧ (atStage 1).host = [] ∧
      StructInv ((atStage 10).doing [.pollDone]) ∧ ((atStage 10).doing [.pollDone]).busy = true ∧
      ((atStage 10).doing [.pollDone]).host = [.pollDone] :=
  ⟨atStage_struct 1 (by decide) (by decide), by decide, rfl,
    (let h := atStage_struct 10 (by decide) (by decide)
     ⟨h.1, h.2, h.3, h.4, h.5, h.6, h.7, h.8, h.9, h.10, h.widths.side _ _ _ _ _ _ _ _ _⟩), by decide, rfl⟩

/-- The endings of `COMPRESS`: a text too long, nothing but whitespace, a stream that fits. -/
theorem witness_Compress :
    tiny.wellFormed = true ∧ (textIn tiny [0x61, 0x61]).busy = false ∧ tiny.maxTxt < (textIn tiny [0x61, 0x61]).txtLen ∧
      (textIn tiny [0x20]).txtLen ≤ tiny.maxTxt ∧ trimText tiny.ws (textIn tiny [0x20]).text = [] ∧
      (textIn tiny [0x61]).txtLen ≤ tiny.maxTxt ∧ trimText tiny.ws (textIn tiny [0x61]).text ≠ [] ∧
      ([0x07, 0x00] : List Byte).length ≤ tiny.maxBin := by decide

/-- Eight symbols of text, two bytes of stream. -/
def eight : Config := { Config.chosen with maxTxt := 8, maxBin := 2 }

/-- V-PACK: "a" gives 07 00; "abababab" gives 08 55 00, one byte more than `eight` holds. -/
theorem witness_Compress_streams :
    compressFn tiny [0x61] = .ok ([0x07, 0x00], [(0x61, [false])]) ∧
      eight.wellFormed = true ∧ (textIn eight [0x61, 0x62, 0x61, 0x62, 0x61, 0x62, 0x61, 0x62]).busy = false ∧
      (textIn eight [0x61, 0x62, 0x61, 0x62, 0x61, 0x62, 0x61, 0x62]).txtLen ≤ eight.maxTxt ∧
      compressFn eight (textIn eight [0x61, 0x62, 0x61, 0x62, 0x61, 0x62, 0x61, 0x62]).text =
        .ok ([0x08, 0x55, 0x00], [(0x61, [false]), (0x62, [true])]) ∧
      eight.maxBin < ([0x08, 0x55, 0x00] : List Byte).length := by decide

/-- The endings of `DECOMPRESS`: a stream too long, a text, a text too long, no byte at all. -/
theorem witness_Decompress :
    (streamIn tiny [0x07, 0x00]).busy = false ∧ tiny.maxBin < (streamIn tiny [0x07, 0x00, 0x00]).binLen ∧
      (streamIn tiny [0x07, 0x00]).binLen ≤ tiny.maxBin ∧ decompressFn [0x07, 0x00] [(0x61, [false])] = .ok [0x61] ∧
      [(0x61 : Symbol)].length ≤ tiny.maxTxt ∧ (∀ e ∈ [((0x61 : Symbol), [false])], e.1 < tiny.nSym) ∧
      decompressFn [0x06, 0x00] [(0x61, [false])] = .ok [0x61, 0x61] ∧
      tiny.maxTxt < [(0x61 : Symbol), 0x61].length ∧ decompressFn [] [] = .error .corruptStream ∧
      (deserializeBytes []).length < 8 := by decide

/-- The damage: a header above the rest, a symbol too many before the damage, and neither. -/
theorem witness_Decompress_damage :
    decompressFn [0x09, 0x00] [(0x61, [false])] = .error .corruptStream ∧
      (deserializeBytes [0x09, 0x00]).length - 8 < bitsVal ((deserializeBytes [0x09, 0x00]).take 8) ∧
      decompressFn [0x05, 0x20] [(0x61, [false])] = .error .corruptStream ∧
      bitsVal ((deserializeBytes [0x05, 0x20]).take 8) ≤ (deserializeBytes [0x05, 0x20]).length - 8 ∧
      ((deserializeBytes [0x05, 0x20]).drop 8).take 3 = digits [0, 0, 1] ∧
      TooManySymbols [(0x61, [false])] tiny.maxTxt (digits [0, 0, 1]) ∧
      decompressFn [0x06, 0x40] [(0x61, [false])] = .error .corruptStream ∧
      ((deserializeBytes [0x06, 0x40]).drop 8).take 2 = digits [0, 1] ∧
      ¬ TooManySymbols [(0x61, [false])] tiny.maxTxt (digits [0, 1]) :=
  ⟨by decide, by decide, by decide, by decide, by decide, decodePayload_overflow.1 (by decide), by decide, by decide,
    fun h => absurd (decodePayload_overflow.2 h) (by decide)⟩

theorem witness_RoundTrip :
    tiny.wellFormed = true ∧ (textIn tiny [0x61]).busy = false ∧ (textIn tiny [0x61]).txtLen ≤ tiny.maxTxt ∧ trimText tiny.ws (textIn tiny [0x61]).text = [0x61] ∧
      payload (codeTableOf tiny [0x61]) [0x61] = some [false] ∧ 2 + [false].length / 8 ≤ tiny.maxBin := by decide

/-- Two cores with the same text, one fresh and one that holds another table. -/
theorem witness_Determinism :
    tiny.wellFormed = true ∧ (textIn tiny [0x61]).busy = false ∧ ({ textIn tiny [0x61] with code := [(0x62, [false])] } : State).busy = false ∧
      ({ textIn tiny [0x61] with code := [(0x62, [false])] } : State).text = (textIn tiny [0x61]).text ∧
      (∃ t, steps 8 ((textIn tiny [0x61]).doing [.csrWrite 0 1]) = .next t) ∧
      ∃ t, steps 8 ({ textIn tiny [0x61] with code := [(0x62, [false])] }.doing [.csrWrite 0 1]) = .next t := by
  have runs : ∀ (k : Nat) (s : State), gives (steps k s) (fun _ => true) = true → ∃ t, steps k s = .next t := by
    intro k s h
    cases h' : steps k s with
    | next t => exact ⟨t, rfl⟩
    | fault f => rw [h'] at h; cases h
    | refused r => rw [h'] at h; cases h
  exact ⟨by decide, by decide, by decide, rfl, runs _ _ (by decide), runs _ _ (by decide)⟩

end Sys2Proof.Tests
end

section
/-! The laws of 00_scope.md R8 about bit strings and bytes. -/

namespace Sys2Proof.Machine

/-- Settles O33: each law of 00_scope.md R8 is a law of `Sys2Proof/Laws/Bits.lean`. -/
theorem byteBitsInverse : Obligations.ByteBitsInverse := by
  unfold Obligations.ByteBitsInverse
  refine ⟨?index, ?length, ?empty, ?append, ?byte, ?string⟩
  case index => exact fun v _ hi => getElem?_bin8 v hi
  case length => exact length_bin8
  case empty => exact bitsVal_nil
  case append => exact bitsVal_append_singleton
  case byte => exact bitsVal_bin8
  case string => exact fun _ hs => bin8_bitsVal hs

end Sys2Proof.Machine
end

section
/-! What one step can do, said once: what a stage ends with, and what a step makes of the state beside the host's own side. -/

namespace Sys2Proof.Machine

/-- When a stage raises which error (60_exceptions.md R200, R208). -/
inductive Raises (s : State) : ErrorKind → Instr → Prop
  | textTooLong (h : s.cfg.maxTxt < s.txtLen) : Raises s .capacity .trim
  | noSymbol (h : present s.cfg.leafOrder s.freq = []) : Raises s .emptyInput .treeBuild
  | noCode (h : payload s.code s.trimmedText = none) : Raises s .unknownSymbol .encode
  | streamTooLong {bits : Bits} (h : payload s.code s.trimmedText = some bits)
      (hl : s.cfg.maxBin < streamLength bits.length) : Raises s .capacity .encode
  | inputTooLong (h : s.cfg.maxBin < s.binLen) : Raises s .capacity .deserialize
  | noHeader (h : s.pad.length < 8) : Raises s .corruptStream .unpad
  | badHeader (h : 8 ≤ s.pad.length) (hl : s.pad.length - 8 < bitsVal (s.pad.take 8)) : Raises s .corruptStream .unpad
  | leftOver (h : decodePayload s.code s.cfg.maxTxt s.enc = .corrupt) : Raises s .corruptStream .decode
  | outOfRoom (h : decodePayload s.code s.cfg.maxTxt s.enc = .overflow) : Raises s .capacity .decode

/-- An error a stage raises leaves a legal `STATUS` (10_state.md R23). -/
theorem Raises.statusLegal {s : State} {e : ErrorKind} {i : Instr} (h : Raises s e i) :
    statusLegal (statusError e (stageId i)) = true := by
  cases h <;> decide

/-- How a stage can end (40_frequency_counter.md to 46_decoder.md): each with its success, and all with their errors. -/
inductive StageEnds (s : State) : Instr → State → Prop
  | trim (h : s.txtLen ≤ s.cfg.maxTxt) :
      StageEnds s .trim ({ s with wlen := trimmedLength s.cfg.ws s.txtAt s.txtLen }.advance .freq)
  | freq : StageEnds s .freq ({ s with freq := countSymbols s.cfg.nSym s.trimmedText, idx := s.wlen }.advance .treeBuild)
  | treeBuild (h : present s.cfg.leafOrder s.freq ≠ []) :
      StageEnds s .treeBuild
        ({ s with
            node := (builtTree s.cfg.leafOrder s.freq s.nodeA s.nodeB).node
            pq := (builtTree s.cfg.leafOrder s.freq s.nodeA s.nodeB).pq
            nodeA := (builtTree s.cfg.leafOrder s.freq s.nodeA s.nodeB).nodeA
            nodeB := (builtTree s.cfg.leafOrder s.freq s.nodeA s.nodeB).nodeB
            root := (builtTree s.cfg.leafOrder s.freq s.nodeA s.nodeB).pq.headD 0 }.advance .codeAssign)
  | codeAssign :
      StageEnds s .codeAssign ({ s with code := codeTable s.cfg.degenCode s.node s.root, stack := [] }.advance .encode)
  | encode {bits : Bits} (h : payload s.code s.trimmedText = some bits) (hl : streamLength bits.length ≤ s.cfg.maxBin) :
      StageEnds s .encode ({ s with enc := bits, payloadLen := bits.length, idx := s.wlen }.advance .pad)
  | pad :
      StageEnds s .pad
        ({ s with extra := paddingCount s.payloadLen, pad := padded (paddingCount s.payloadLen) s.enc }.advance .serialize)
  | serialize :
      StageEnds s .serialize
        (({ s with bin := s.bin.fill s.cfg.maxBin (serializeBits s.pad), idx := s.pad.length / 8 }.setBinLen
          (s.pad.length / 8)).succeed)
  | deserialize (h : s.binLen ≤ s.cfg.maxBin) :
      StageEnds s .deserialize ({ s with pad := deserializeBytes s.stream, idx := s.binLen }.advance .unpad)
  | unpad {n : Nat} (h : 8 ≤ s.pad.length) (hn : n + bitsVal (s.pad.take 8) = s.pad.length - 8) :
      StageEnds s .unpad
        ({ s with extra := bitsVal (s.pad.take 8), payloadLen := n, enc := (s.pad.drop 8).take n }.advance .decode)
  | decode {symbols : List Symbol} (h : decodePayload s.code s.cfg.maxTxt s.enc = .text symbols) :
      StageEnds s .decode
        (({ s with
            txt := s.txt.fill s.cfg.maxTxt symbols
            idx := s.enc.length
            cand := []
            walker := walkerRest s
            nOut := symbols.length }.setTxtLen symbols.length).succeed)
  | error {e : ErrorKind} {i : Instr} (h : Raises s e i) : StageEnds s i (s.raise e i)

theorem execTrim_ends {s t : State} (h : execTrim s = .next t) : StageEnds s .trim t := by
  unfold execTrim at h
  split at h <;> cases h
  · exact .error (.textTooLong ‹_›)
  · exact .trim (not_lt.1 ‹_›)

theorem execTreeBuild_ends {s t : State} (h : execTreeBuild s = .next t) : StageEnds s .treeBuild t := by
  unfold execTreeBuild at h
  split at h <;> cases h
  · exact .error (.noSymbol (loaded_pq_nil.1 ‹_›))
  · exact .treeBuild fun hp => absurd (loaded_pq_nil.2 hp) ‹_›

theorem execEncode_ends {s t : State} (h : execEncode s = .next t) : StageEnds s .encode t := by
  unfold execEncode at h
  split at h
  · cases h; exact .error (.noCode ‹_›)
  · split at h <;> cases h
    · exact .error (.streamTooLong ‹_› ‹_›)
    · exact .encode ‹_› (not_lt.1 ‹_›)

theorem execDeserialize_ends {s t : State} (h : execDeserialize s = .next t) : StageEnds s .deserialize t := by
  unfold execDeserialize at h
  split at h <;> cases h
  · exact .error (.inputTooLong ‹_›)
  · exact .deserialize (not_lt.1 ‹_›)

theorem execUnpad_ends {s t : State} (h : execUnpad s = .next t) : StageEnds s .unpad t := by
  unfold execUnpad at h
  dsimp only at h
  rw [List.length_drop] at h
  split at h
  · cases h; exact .error (.noHeader ‹_›)
  · split at h <;> cases h
    · exact .error (.badHeader (not_lt.1 ‹_›) ‹_›)
    · exact .unpad (not_lt.1 ‹_›) (Nat.sub_add_cancel (not_lt.1 ‹_›))

theorem execDecode_ends {s t : State} (h : execDecode s = .next t) : StageEnds s .decode t := by
  unfold execDecode at h
  split at h <;> cases h
  · exact .error (.outOfRoom ‹_›)
  · exact .error (.leftOver ‹_›)
  · exact .decode ‹_›

/-- A stage ends in one of the ways of `StageEnds`. -/
theorem exec_stage_ends {i : Instr} {s t : State} (hi : i.isCommand = false) (h : exec i s = .next t) : StageEnds s i t := by
  cases i with
  | compress | decompress | clear => cases hi
  | trim => exact execTrim_ends h
  | freq => cases h; exact .freq
  | treeBuild => exact execTreeBuild_ends h
  | codeAssign => cases h; exact .codeAssign
  | encode => exact execEncode_ends h
  | pad => cases h; exact .pad
  | serialize => cases h; exact .serialize
  | deserialize => exact execDeserialize_ends h
  | unpad => exact execUnpad_ends h
  | decode => exact execDecode_ends h

/-- The state with another host's side: the pending actions and what the reads returned, the model's own (log 5, log 6, log 8). -/
def State.withHost (host : List HostAction) (readData freeCount : Nat) (s : State) : State :=
  { s with host := host, readData := readData, freeCount := freeCount }

/-- What a step can make of a state, once the host's own side is set: the core waits, a stage ends, a host write on an idle core has its
effect (20_memory.md R51, 47_commands.md R170), or the reset input is applied. -/
inductive Turn (s : State) : State → Prop
  | wait : Turn s s
  | stage {i : Instr} {t : State} (hseq : s.seq = stageId i) (hi : i.isCommand = false) (h : StageEnds s i t) : Turn s t
  | compress (h : s.busy = false) : Turn s (s.clearForCompress.start .trim)
  | decompress (h : s.busy = false) : Turn s (s.start .deserialize)
  | clear (h : s.busy = false) : Turn s s.clearCodec.succeed
  | reject (h : s.busy = false) : Turn s s.rejectCommand
  | writeTxtLen (h : s.busy = false) (n : Nat) : Turn s (s.setTxtLen n)
  | writeBinLen (h : s.busy = false) (n : Nat) : Turn s (s.setBinLen n)
  | writeTxt (h : s.busy = false) (i v : Nat) :
      Turn s { s with txt := s.txt.write s.cfg.maxTxt i (truncate s.cfg.wSym v) }
  | writeBin (h : s.busy = false) (i v : Nat) :
      Turn s { s with bin := s.bin.write s.cfg.maxBin i (BitVec.ofNat 8 v) }
  | reset : Turn s s.applyReset

/-- A `CMD` write is ignored while busy and has its action's effect on an idle core. -/
theorem Turn.issue {s : State} {action : State → State} (h : s.busy = false → Turn s (action s)) : Turn s (s.issue action) := by
  cases hb : s.busy with
  | true => rw [State.issue_busy _ hb]; exact .wait
  | false => rw [State.issue_idle _ hb]; exact h hb

theorem decodeStage_isCommand {k : BitVec 4} {i : Instr} (h : decodeStage k = .ok i) : i.isCommand = false ∧ k = stageId i := by
  have henc := encode_of_decode (.stage4 k) i h
  cases i <;> cases henc <;> exact ⟨rfl, rfl⟩

theorem decodeCmd_isCommand {v : BitVec 8} {i : Instr} (h : decodeCmd v = .ok i) : i.isCommand = true := by
  have henc := encode_of_decode (.cmd8 v) i h
  cases i <;> cases henc <;> rfl

/-- The core's turn with a stage in the sequencer. -/
theorem Turn.of_decodeStage {s t : State} {i : Instr} (hd : decodeStage s.seq = .ok i) (h : exec i s = .next t) : Turn s t := by
  obtain ⟨hi, hseq⟩ := decodeStage_isCommand hd
  exact .stage hseq hi (exec_stage_ends hi h)

/-- The host's turn with a command for `CMD`. -/
theorem Turn.of_decodeCmd {s t : State} {v : BitVec 8} {i : Instr} (hd : decodeCmd v = .ok i) (h : exec i s = .next t) : Turn s t := by
  have hi := decodeCmd_isCommand hd
  cases i with
  | compress => cases h; exact .issue .compress
  | decompress => cases h; exact .issue .decompress
  | clear => cases h; exact .issue .clear
  | trim | freq | treeBuild | codeAssign | encode | pad | serialize | deserialize | unpad | decode => cases hi

theorem Turn.writeCsr (s : State) (n v : Nat) : Turn s (writeCsr n v s) := by
  unfold Machine.writeCsr
  split
  · exact .wait
  · have hb : s.busy = false := Bool.eq_false_iff.2 ‹_›
    split
    · exact .writeTxtLen hb v
    · split
      · exact .writeBinLen hb v
      · exact .wait

theorem Turn.writeMem (s : State) (sp : Space) (i v : Nat) : Turn s (writeMem sp i v s) := by
  unfold Machine.writeMem
  split
  · exact .wait
  · have hb : s.busy = false := Bool.eq_false_iff.2 ‹_›
    cases sp with
    | txt => exact .writeTxt hb i v
    | bin => exact .writeBin hb i v

/-- A register read changes the host's own side alone. -/
theorem readCsr_eq_withHost (n : Nat) (s : State) : ∃ r k, readCsr n s = s.withHost s.host r k := by
  unfold readCsr readFree
  repeat' split
  all_goals exact ⟨_, _, rfl⟩

/-- A buffer read changes the host's own side alone. -/
theorem readMem_eq_withHost (sp : Space) (i : Nat) (s : State) : ∃ r k, readMem sp i s = s.withHost s.host r k := by
  unfold readMem readFree
  split <;> exact ⟨_, _, rfl⟩

/-- Every step is a turn, on the state whose host's own side the step has set. -/
theorem step_turn {s t : State} (h : step s = .next t) : ∃ host r k, Turn (s.withHost host r k) t := by
  have on : ∀ host, Turn { s with host := host } t → ∃ host r k, Turn (s.withHost host r k) t :=
    fun host ht => ⟨host, s.readData, s.freeCount, ht⟩
  have read : ∀ rest, (∃ r k, t = State.withHost rest r k { s with host := rest }) →
      ∃ host r k, Turn (s.withHost host r k) t := by
    rintro rest ⟨r, k, rfl⟩
    exact ⟨rest, r, k, .wait⟩
  rcases step_cases h with ⟨-, -, rfl⟩ | ⟨i, -, hd, hx⟩ | ⟨rest, i, -, hd, hx⟩ | ⟨rest, -, -, rfl⟩ | ⟨rest, -, -, rfl⟩ |
    ⟨rest, -, -, -, rfl⟩ | ⟨rest, i, -, -, hd, hx⟩ | ⟨rest, n, -, rfl⟩ | ⟨rest, v, i, -, hd, hx⟩ | ⟨rest, v, -, -, rfl⟩ |
    ⟨rest, n, v, -, -, rfl⟩ | ⟨rest, sp, i, -, rfl⟩ | ⟨rest, sp, i, v, -, rfl⟩ | ⟨rest, -, rfl⟩
  · exact on t.host .wait
  · exact on s.host (.of_decodeStage hd hx)
  · exact on rest (.of_decodeStage hd hx)
  · exact on rest .wait
  · exact read rest (readCsr_eq_withHost 1 _)
  · exact on t.host .wait
  · exact on s.host (.of_decodeStage hd hx)
  · exact read rest (readCsr_eq_withHost n _)
  · exact on rest (.of_decodeCmd hd hx)
  · exact on rest (.issue .reject)
  · exact on rest (.writeCsr _ n v)
  · exact read rest (readMem_eq_withHost sp i _)
  · exact on rest (.writeMem _ sp i v)
  · exact on rest .reset

end Sys2Proof.Machine
end

section
/-! The structure of the state (`StructInv`): what each shared operation keeps of it, each turn, and so each step. -/

namespace Sys2Proof.Machine

/-! ## Registers and buffers -/

theorem StructInv.seq_eq_zero {s : State} (h : StructInv s) (hb : s.busy = false) : s.seq = 0 := by
  by_contra hs
  rw [h.busy_iff.2 hs] at hb
  cases hb

theorem StructInv.withHost {s : State} (h : StructInv s) (host : List HostAction) (r k : Nat) : StructInv (s.withHost host r k) :=
  { h with widths := h.widths.side s.txt s.bin s.txtLen s.binLen s.status s.seq host r k }

theorem StructInv.setTxtLen {s : State} (h : StructInv s) (n : Nat) : StructInv (s.setTxtLen n) :=
  { h with
    txtLen_lt := truncate_lt _ _
    widths := h.widths.side s.txt s.bin _ s.binLen s.status s.seq s.host s.readData s.freeCount }

theorem StructInv.setBinLen {s : State} (h : StructInv s) (n : Nat) : StructInv (s.setBinLen n) :=
  { h with
    binLen_lt := truncate_lt _ _
    widths := h.widths.side s.txt s.bin s.txtLen _ s.status s.seq s.host s.readData s.freeCount }

theorem StructInv.setTxt {s : State} (h : StructInv s) {m : Memory Symbol} (hm : m.wf s.cfg.maxTxt = true)
    (hfit : ∀ e ∈ m.cells, e.2 < s.cfg.nSym) : StructInv { s with txt := m } :=
  { h with
    txt_wf := hm
    txt_fits := hfit
    widths := h.widths.side m s.bin s.txtLen s.binLen s.status s.seq s.host s.readData s.freeCount }

theorem StructInv.setBin {s : State} (h : StructInv s) {m : Memory Byte} (hm : m.wf s.cfg.maxBin = true) :
    StructInv { s with bin := m } :=
  { h with
    bin_wf := hm
    widths := h.widths.side s.txt m s.txtLen s.binLen s.status s.seq s.host s.readData s.freeCount }

/-- A host write to `TXT` keeps the buffer in form, its elements cut to `W_SYM` bits. -/
theorem StructInv.writeTxt {s : State} (h : StructInv s) (i v : Nat) :
    StructInv { s with txt := s.txt.write s.cfg.maxTxt i (truncate s.cfg.wSym v) } := by
  refine h.setTxt (Memory.wf_write i _ h.txt_wf) fun e he => ?_
  rcases Memory.mem_write he with rfl | he
  · exact truncate_lt _ _
  · exact h.txt_fits e he

/-! ## Commands, stages and errors -/

/-- Between commands any legal idle `STATUS` may stand. -/
theorem StructInv.idle {s : State} (h : StructInv s) {w : BitVec 16} (hl : statusLegal w = true) (hb : w.getLsbD 0 = false) :
    StructInv { s with status := w, seq := 0 } :=
  { h with
    status_legal := hl
    busy_iff := iff_of_false (Bool.eq_false_iff.1 hb) (not_not.2 rfl)
    seq_le := Nat.zero_le _
    encoded := nofun
    widths := h.widths.side s.txt s.bin s.txtLen s.binLen _ _ s.host s.readData s.freeCount }

theorem StructInv.succeed {s : State} (h : StructInv s) : StructInv s.succeed := h.idle (by decide) (by decide)

theorem StructInv.rejectCommand {s : State} (h : StructInv s) (hb : s.busy = false) : StructInv s.rejectCommand := by
  have hi : StructInv { s.rejectCommand with seq := 0 } :=
    h.idle (w := statusError .illegalCommand 0) (by decide) (by decide)
  rwa [← h.seq_eq_zero hb] at hi

/-- A stage's id is one that the sequencer may hold. -/
theorem stageId_toNat_le (i : Instr) : (stageId i).toNat ≤ 10 := by
  cases i <;> decide

/-- Only `PAD` has the sequencer value before which a payload stands in `ENC`. -/
theorem stageId_eq_six {i : Instr} (h : stageId i = 6) : i = .pad := by
  revert h; cases i <;> decide

theorem stageId_ne_zero {i : Instr} (h : i.isCommand = false) : stageId i ≠ 0 := by
  revert h; cases i <;> decide

theorem statusRunning_legal : statusLegal statusRunning = true := by decide

theorem statusRunning_busy : statusRunning.getLsbD 0 = true := by decide

theorem StructInv.start {s : State} (h : StructInv s) {i : Instr} (hi : i.isCommand = false) (hp : i ≠ .pad) : StructInv (s.start i) :=
  { h with
    status_legal := statusRunning_legal
    busy_iff := iff_of_true statusRunning_busy (stageId_ne_zero hi)
    seq_le := stageId_toNat_le i
    encoded := fun h6 => absurd (stageId_eq_six h6) hp
    widths := h.widths.side s.txt s.bin s.txtLen s.binLen _ _ s.host s.readData s.freeCount }

/-- Passing the turn to another stage; before `PAD` the payload must be there and its stream must fit. -/
theorem StructInv.advance {s : State} {i : Instr} (h : StructInv s) (hs : s.seq ≠ 0) (hi : i.isCommand = false)
    (hp : i = .pad → s.payloadLen = s.enc.length ∧ streamLength s.payloadLen ≤ s.cfg.maxBin) : StructInv (s.advance i) :=
  { h with
    busy_iff := iff_of_true (h.busy_iff.2 hs) (stageId_ne_zero hi)
    seq_le := stageId_toNat_le i
    encoded := fun h6 => hp (stageId_eq_six h6)
    widths := h.widths.side s.txt s.bin s.txtLen s.binLen s.status _ s.host s.readData s.freeCount }

/-- Clearing the codec state leaves the rest in form. -/
theorem StructInv.clearCodec {s : State} (h : StructInv s) : StructInv s.clearCodec := { h with widths := h.widths.clear }

theorem StructInv.clearForCompress {s : State} (h : StructInv s) (hb : s.busy = false) : StructInv s.clearForCompress :=
  { h with
    encoded := fun h6 => absurd ((h.seq_eq_zero hb).symm.trans h6) (by decide)
    widths := h.widths.clearForCompress }

theorem StructInv.abandonCompress {s : State} (h : StructInv s) : StructInv s.abandonCompress :=
  { h.clearCodec.setBin (Memory.wf_discard s.bin _) with
    binLen_lt := Nat.two_pow_pos _
    widths := h.widths.clear.side s.txt _ s.txtLen _ s.status s.seq s.host s.readData s.freeCount }

theorem StructInv.abandonDecompress {s : State} (h : StructInv s) : StructInv s.abandonDecompress :=
  { h.setTxt (Memory.wf_discard s.txt _) (by simp [Memory.discard]) with
    txtLen_lt := Nat.two_pow_pos _
    widths := h.widths.side _ s.bin _ s.binLen s.status s.seq s.host s.readData s.freeCount }

/-- Whatever error a stage raises, it leaves the state in form. -/
theorem StructInv.raise {s : State} (h : StructInv s) {e : ErrorKind} {i : Instr} (he : Raises s e i) : StructInv (s.raise e i) := by
  have hb : (statusError e (stageId i)).getLsbD 0 = false := (packStatus_fields _ _ _ _ _).1
  rw [State.raise_eq]
  split
  · exact h.abandonCompress.idle he.statusLegal hb
  · exact h.abandonDecompress.idle he.statusLegal hb

/-- The reset state of a well-formed configuration is in form (its scratch: log 12). -/
theorem structInv_resetOf {c : Config} (hc : c.wellFormed = true) : StructInv (State.resetOf c) where
  cfg_ok := hc
  txt_wf := Memory.wf_empty _ _
  txt_fits := by simp [State.resetOf]
  bin_wf := Memory.wf_empty _ _
  txtLen_lt := Nat.two_pow_pos _
  binLen_lt := Nat.two_pow_pos _
  status_legal := rfl
  busy_iff := by simp [State.resetOf, State.busy]
  seq_le := Nat.zero_le _
  encoded := nofun
  widths := .reset c

theorem StructInv.applyReset {s : State} (h : StructInv s) : StructInv s.applyReset :=
  (((structInv_resetOf h.cfg_ok).setTxt (Memory.wf_discard s.txt _) (by simp [Memory.discard])).setBin
    (Memory.wf_discard s.bin _)).withHost s.host s.readData s.freeCount

/-! ## What `TRIM` and `DECODE` compute fits -/

/-- `DECODE` answers at most `MAX_TXT` symbols, each of them one of the table's. -/
theorem decodeLoop_text {code : CodeTable} {maxTxt : Nat} {enc cand : Bits} {out symbols : List Symbol}
    (h : decodeLoop code maxTxt enc cand out = .text symbols) (hout : out.length ≤ maxTxt) :
    symbols.length ≤ maxTxt ∧ ∀ x ∈ symbols, x ∈ out ∨ ∃ c, (x, c) ∈ code := by
  induction enc generalizing cand out with
  | nil =>
    rw [decodeLoop] at h
    split at h <;> cases h
    exact ⟨hout, fun x hx => .inl hx⟩
  | cons b bs ih =>
    rw [decodeLoop] at h
    split at h
    · rename_i y hy
      split at h
      · cases h
      · obtain ⟨hlen, hmem⟩ := ih h (by rw [List.length_append, List.length_singleton]; omega)
        refine ⟨hlen, fun x hx => ?_⟩
        rcases hmem x hx with hx | hx
        · rcases List.mem_append.1 hx with hx | hx
          · exact .inl hx
          · rw [List.mem_singleton.1 hx]; exact .inr ⟨_, mem_of_rctLookup hy⟩
        · exact .inr hx
    · exact ih h hout

theorem decodePayload_text {code : CodeTable} {maxTxt : Nat} {enc : Bits} {symbols : List Symbol}
    (h : decodePayload code maxTxt enc = .text symbols) :
    symbols.length ≤ maxTxt ∧ ∀ x ∈ symbols, ∃ c, (x, c) ∈ code := by
  obtain ⟨hlen, hmem⟩ := decodeLoop_text h (Nat.zero_le _)
  exact ⟨hlen, fun x hx => (hmem x hx).resolve_left List.not_mem_nil⟩

/-- What `TRIM` leaves in `WLEN` has `W_TLEN` bits. -/
theorem StructInv.trimmedLength_lt {s : State} (h : StructInv s) : trimmedLength s.cfg.ws s.txtAt s.txtLen < 2 ^ s.cfg.wTLen :=
  lt_of_le_of_lt (trimmedLength_spec _ _ _).1 h.txtLen_lt

/-! ## Turns and steps -/

/-- However a stage ends, what it wrote is within its width, and `PAD` is next only after a payload whose stream fits. -/
theorem StructInv.stageEnds {s t : State} {i : Instr} (h : StructInv s) (hseq : s.seq = stageId i) (hi : i.isCommand = false)
    (he : StageEnds s i t) : StructInv t := by
  have hs : s.seq ≠ 0 := hseq ▸ stageId_ne_zero hi
  have h6 : i ≠ .pad → s.seq ≠ 6 := fun hp e => hp (stageId_eq_six (hseq.symm.trans e))
  cases he with
  | trim hl =>
    have hu : StructInv { s with wlen := trimmedLength s.cfg.ws s.txtAt s.txtLen } :=
      { h with widths := h.widths.setWlen h.trimmedLength_lt }
    exact hu.advance hs rfl nofun
  | freq =>
    have hu : StructInv { s with freq := countSymbols s.cfg.nSym s.trimmedText, idx := s.wlen } := { h with widths := h.widths.setFreq }
    exact hu.advance hs rfl nofun
  | treeBuild hp => exact StructInv.advance { h with widths := h.widths.setTree h.cfg_ok hp } hs rfl nofun
  | codeAssign => exact StructInv.advance { h with widths := h.widths.setCode } hs rfl nofun
  | encode hb hl =>
    exact StructInv.advance { h with encoded := fun e => absurd e (h6 nofun), widths := h.widths.setEnc hl } hs rfl
      fun _ => ⟨rfl, hl⟩
  | pad =>
    obtain ⟨hlen, hfit⟩ := h.encoded hseq
    exact StructInv.advance { h with widths := h.widths.setPad hlen hfit } hs rfl nofun
  | serialize =>
    have hu : StructInv { s with idx := s.pad.length / 8 } :=
      { h with widths := h.widths.setIdx ((Nat.div_le_self _ _).trans h.widths.pad_len) }
    exact ((hu.setBin (Memory.wf_fill s.bin _ _)).setBinLen _).succeed
  | deserialize hl => exact StructInv.advance { h with widths := h.widths.setStream hl } hs rfl nofun
  | @unpad n hlen hn =>
    have hx : bitsVal (s.pad.take 8) < 2 ^ 8 := by
      have := bitsVal_lt (s.pad.take 8)
      rwa [List.length_take, Nat.min_eq_left hlen] at this
    exact StructInv.advance { h with encoded := fun e => absurd e (h6 nofun), widths := h.widths.setPayload hx n (by omega) } hs rfl nofun
  | @decode symbols hd =>
    obtain ⟨hlen, hmem⟩ := decodePayload_text hd
    have hu : StructInv { s with idx := s.enc.length, cand := [], walker := walkerRest s, nOut := symbols.length } :=
      { h with widths := h.widths.setDecoded hlen }
    refine ((hu.setTxt (Memory.wf_fill s.txt _ symbols) fun e he => ?_).setTxtLen _).succeed
    obtain ⟨c, hc⟩ := hmem _ (Memory.mem_fill he)
    exact h.widths.code_sym _ hc
  | error he => exact h.raise he

theorem StructInv.turn {s t : State} (h : StructInv s) (ht : Turn s t) : StructInv t := by
  cases ht with
  | wait => exact h
  | stage hseq hi he => exact h.stageEnds hseq hi he
  | compress hb => exact (h.clearForCompress hb).start rfl nofun
  | decompress hb => exact h.start rfl nofun
  | clear hb => exact h.clearCodec.succeed
  | reject hb => exact h.rejectCommand hb
  | writeTxtLen hb n => exact h.setTxtLen n
  | writeBinLen hb n => exact h.setBinLen n
  | writeTxt hb i v => exact h.writeTxt i v
  | writeBin hb i v => exact h.setBin (Memory.wf_write i _ h.bin_wf)
  | reset => exact h.applyReset

/-- Settles O50: a step is a turn (`step_turn`), and every turn keeps the structure. -/
theorem stepKeepsStructure : Obligations.StepKeepsStructure := by
  unfold Obligations.StepKeepsStructure
  intro s t h hstep
  obtain ⟨host, r, k, ht⟩ := step_turn hstep
  exact (h.withHost host r k).turn ht

end Sys2Proof.Machine
end

section
/-! The codec state (`CodecInv`): what holds before each stage, that each stage hands it on to the next, and what is left between
commands. -/

namespace Sys2Proof.Machine

/-! ## The invariant by the sequencer's value -/

theorem codecInv_idle {s : State} (hs : s.seq = 0) : CodecInv s ↔ CodecKept s := by simp [CodecInv, hs]

theorem codecInv_trim {s : State} (hs : s.seq = stageId .trim) : CodecInv s ↔ s.code = [] ∧ s.node = [] := by
  simp [CodecInv, hs, stageId, encode]

theorem codecInv_freq {s : State} (hs : s.seq = stageId .freq) : CodecInv s ↔ s.code = [] ∧ s.node = [] ∧ Trimmed s := by
  simp [CodecInv, hs, stageId, encode]

theorem codecInv_treeBuild {s : State} (hs : s.seq = stageId .treeBuild) :
    CodecInv s ↔ s.code = [] ∧ s.node = [] ∧ Trimmed s ∧ s.freq = countSymbols s.cfg.nSym s.trimmedText := by
  simp [CodecInv, hs, stageId, encode]

theorem codecInv_codeAssign {s : State} (hs : s.seq = stageId .codeAssign) :
    CodecInv s ↔ s.code = [] ∧ Trimmed s ∧ s.trimmedText ≠ [] ∧
      ∃ t, IsTree s.node s.root t ∧ ∀ x, x ∈ t.symbols ↔ x ∈ s.trimmedText := by
  simp [CodecInv, hs, stageId, encode]

theorem codecInv_encode {s : State} (hs : s.seq = stageId .encode) : CodecInv s ↔ Assigned s := by
  simp [CodecInv, hs, stageId, encode]

theorem codecInv_pad {s : State} (hs : s.seq = stageId .pad) : CodecInv s ↔ Encoded s := by
  simp [CodecInv, hs, stageId, encode]

theorem codecInv_serialize {s : State} (hs : s.seq = stageId .serialize) :
    CodecInv s ↔ Encoded s ∧ s.pad = padded (paddingCount s.payloadLen) s.enc := by
  simp [CodecInv, hs, stageId, encode]

/-- The stages of `DECOMPRESS` have the ids from 8 on. -/
theorem codecInv_decompress {s : State} (i : Instr) (hs : s.seq = stageId i) (h8 : 8 ≤ (stageId i).toNat) :
    CodecInv s ↔ CodecKept s := by
  rw [← hs] at h8
  have off : ∀ {k : BitVec 4} {p : Prop}, k.toNat < 8 → s.seq = k → p := fun hk e => absurd h8 (by rw [e]; omega)
  constructor
  · rintro ⟨-, -, -, -, -, -, -, -, h⟩
    exact h h8
  · exact fun h => ⟨fun _ => h, off (by decide), off (by decide), off (by decide), off (by decide), off (by decide),
      off (by decide), off (by decide), fun _ => h⟩

/-! ## What the stages hand on -/

theorem codecKept_of_empty {s : State} (hc : s.code = []) (hn : s.node = []) : CodecKept s := .inl ⟨hc, hn⟩

theorem Assigned.codecKept {s : State} (h : Assigned s) : CodecKept s := by
  obtain ⟨-, -, hcode, t, ht, -⟩ := h
  exact .inr ⟨t, ht, hcode⟩

/-- The tree `TREE_BUILD` makes of the counts of the trimmed text has that text's symbols for its leaves. -/
theorem builtTree_of_trimmedText {s : State} (hc : s.cfg.wellFormed = true) (hf : s.freq = countSymbols s.cfg.nSym s.trimmedText)
    (hp : present s.cfg.leafOrder s.freq ≠ []) :
    ∃ t, IsTree (builtTree s.cfg.leafOrder s.freq s.nodeA s.nodeB).node
        ((builtTree s.cfg.leafOrder s.freq s.nodeA s.nodeB).pq.headD 0) t ∧ ∀ x, x ∈ t.symbols ↔ x ∈ s.trimmedText := by
  obtain ⟨root, t, hpq, ht, hleaves, -⟩ := builtTree_spec s.nodeA s.nodeB (nodup_present hc s.freq) hp
  refine ⟨t, by rw [hpq]; exact ht, fun x => ?_⟩
  have hcount : freqAt s.freq x = s.trimmedText.count x := by
    rw [hf]; exact freqAt_countSymbols (fun _ hy => State.lt_of_mem_trimmedText hy) x
  rw [(symbols_perm hleaves).mem_iff, mem_present, Config.mem_order hc, hcount, List.one_le_count_iff]
  exact ⟨And.right, fun hx => ⟨State.lt_of_mem_trimmedText hx, hx⟩⟩

/-- Where some symbol is present the trimmed text is not empty. -/
theorem trimmedText_ne_nil_of_present {s : State} (hf : s.freq = countSymbols s.cfg.nSym s.trimmedText)
    (hp : present s.cfg.leafOrder s.freq ≠ []) : s.trimmedText ≠ [] := by
  intro he
  rw [he] at hf
  exact hp (present_eq_nil.2 fun x _ => by rw [hf]; exact freqAt_countSymbols (fun _ hy => absurd hy List.not_mem_nil) x)

/-- An error of `COMPRESS` empties the codec state, one of `DECOMPRESS` leaves it (60_exceptions.md R208). -/
theorem CodecKept.raise {s : State} {e : ErrorKind} {i : Instr} (h : ofCompress i = false → CodecKept s) : CodecKept (s.raise e i) := by
  cases hi : ofCompress i with
  | true => rw [State.raise_of_compress e s hi]; exact codecKept_of_empty rfl rfl
  | false => rw [State.raise_of_decompress e s hi]; exact h hi

theorem eight_le_stageId {i : Instr} (hi : i.isCommand = false) (hd : ofCompress i = false) : 8 ≤ (stageId i).toNat := by
  revert hi hd; cases i <;> decide

/-! ## Turns and steps -/

theorem CodecInv.stageEnds {s t : State} {i : Instr} (hw : s.cfg.wellFormed = true) (h : CodecInv s) (hseq : s.seq = stageId i)
    (hi : i.isCommand = false) (he : StageEnds s i t) : CodecInv t := by
  cases he with
  | trim hl =>
    obtain ⟨hcode, hnode⟩ := (codecInv_trim hseq).1 h
    exact (codecInv_freq rfl).2 ⟨hcode, hnode, hl, rfl⟩
  | freq =>
    obtain ⟨hcode, hnode, htrim⟩ := (codecInv_freq hseq).1 h
    exact (codecInv_treeBuild rfl).2 ⟨hcode, hnode, htrim, rfl⟩
  | treeBuild hp =>
    obtain ⟨hcode, -, htrim, hf⟩ := (codecInv_treeBuild hseq).1 h
    exact (codecInv_codeAssign rfl).2 ⟨hcode, htrim, trimmedText_ne_nil_of_present hf hp, builtTree_of_trimmedText hw hf hp⟩
  | codeAssign =>
    obtain ⟨-, htrim, hne, htree⟩ := (codecInv_codeAssign hseq).1 h
    exact (codecInv_encode rfl).2 ⟨htrim, hne, rfl, htree⟩
  | encode hb hl => exact (codecInv_pad rfl).2 ⟨(codecInv_encode hseq).1 h, hb, rfl, hl⟩
  | pad => exact (codecInv_serialize rfl).2 ⟨(codecInv_pad hseq).1 h, rfl⟩
  | serialize =>
    obtain ⟨⟨hassigned, -⟩, -⟩ := (codecInv_serialize hseq).1 h
    exact (codecInv_idle rfl).2 hassigned.codecKept
  | deserialize hl => exact (codecInv_decompress .unpad rfl (by decide)).2 ((codecInv_decompress .deserialize hseq (by decide)).1 h)
  | unpad hlen hn => exact (codecInv_decompress .decode rfl (by decide)).2 ((codecInv_decompress .unpad hseq (by decide)).1 h)
  | decode hd => exact (codecInv_idle rfl).2 ((codecInv_decompress .decode hseq (by decide)).1 h)
  | error he =>
    exact (codecInv_idle rfl).2 (.raise fun hd => (codecInv_decompress i hseq (eight_le_stageId hi hd)).1 h)

theorem CodecInv.turn {s t : State} (hs : StructInv s) (h : CodecInv s) (ht : Turn s t) : CodecInv t := by
  have kept : s.busy = false → CodecKept s := fun hb => (codecInv_idle (hs.seq_eq_zero hb)).1 h
  have idle : ∀ {u : State}, u.seq = s.seq → s.busy = false → CodecKept u → CodecInv u :=
    fun hu hb => (codecInv_idle (hu.trans (hs.seq_eq_zero hb))).2
  cases ht with
  | wait => exact h
  | stage hseq hi he => exact h.stageEnds hs.cfg_ok hseq hi he
  | compress hb => exact (codecInv_trim rfl).2 ⟨rfl, rfl⟩
  | decompress hb => exact (codecInv_decompress .deserialize rfl (by decide)).2 (kept hb)
  | clear hb => exact (codecInv_idle rfl).2 (codecKept_of_empty rfl rfl)
  | reject hb => exact idle rfl hb (kept hb)
  | writeTxtLen hb n => exact idle rfl hb (kept hb)
  | writeBinLen hb n => exact idle rfl hb (kept hb)
  | writeTxt hb i v => exact idle rfl hb (kept hb)
  | writeBin hb i v => exact idle rfl hb (kept hb)
  | reset => exact (codecInv_idle rfl).2 (codecKept_of_empty rfl rfl)

theorem CodecInv.withHost {s : State} (h : CodecInv s) (host : List HostAction) (r k : Nat) : CodecInv (s.withHost host r k) := h

/-- Settles O52: a step is a turn (`step_turn`), and every turn hands the codec state on. -/
theorem stepKeepsCodecState : Obligations.StepKeepsCodecState := by
  unfold Obligations.StepKeepsCodecState
  intro s t hs h hstep
  obtain ⟨host, r, k, ht⟩ := step_turn hstep
  exact (h.withHost host r k).turn (hs.withHost host r k) ht

/-! ## Between commands -/

theorem betweenCommands_of_empty {s : State} (hs : StructInv s) (hcode : s.code = []) (hnode : s.node = []) : BetweenCommands s where
  kept := codecKept_of_empty hcode hnode
  prefix_free := by intro a b c d ha; rw [hcode] at ha; cases ha
  code_len := by intro a c ha; rw [hcode] at ha; cases ha
  rct_inverse := by simp [hcode]
  node_cnt := fun hne => absurd hcode hne
  status_legal := hs.status_legal

/-- The symbols of a tree whose table fits are symbol values. -/
theorem IsTree.symbols_lt {s : State} {t : HuffTree} (hs : StructInv s) (ht : IsTree s.node s.root t)
    (hcode : s.code = codeTable s.cfg.degenCode s.node s.root) {x : Symbol} (hx : x ∈ t.symbols) : x < s.cfg.nSym := by
  obtain ⟨c, hc⟩ := Option.ne_none_iff_exists'.1 ((ht.codeOf_ne_none (cfg := s.cfg) x).2 hx)
  have hmem := (lookup_eq_some_iff_mem rising_codeTable).1 hc
  rw [← hcode] at hmem
  exact hs.widths.code_sym _ hmem

/-- `NODE_CNT = 2n - 1` for a table of `n` entries (42_tree_builder.md R123). -/
theorem IsTree.length_node {node : List Node} {root : Nat} {t : HuffTree} (cfg : Config) (h : IsTree node root t) :
    node.length + 1 = 2 * (codeTable cfg.degenCode node root).length := by
  have ⟨_, _, hcount, _⟩ := h
  rw [h.length_code, hcount]

/-- The root of a tree is a node in use. -/
theorem IsTree.root_lt {node : List Node} {root : Nat} {t : HuffTree} (h : IsTree node root t) : root < node.length := by
  obtain ⟨hspells, -⟩ := h
  cases t with
  | leaf s w => exact (List.getElem?_eq_some_iff.1 hspells).1
  | fork l r =>
    obtain ⟨a, b, hroot, -⟩ := hspells
    exact (List.getElem?_eq_some_iff.1 hroot).1

theorem betweenCommands_of_tree {s : State} {t : HuffTree} (hs : StructInv s) (ht : IsTree s.node s.root t)
    (hcode : s.code = codeTable s.cfg.degenCode s.node s.root) : BetweenCommands s where
  kept := .inr ⟨t, ht, hcode⟩
  prefix_free := by rw [hcode]; exact ht.prefixFree
  code_len := by
    intro a c hc
    rw [hcode] at hc
    exact ⟨(ht.code_length hc).1, ht.code_length_le hs.cfg_ok (fun _ hx => ht.symbols_lt hs hcode hx) hc⟩
  rct_inverse := by intro a c; rw [hcode, ht.rct_iff, ht.codeOf_iff]
  node_cnt := fun _ => ⟨by rw [hcode]; exact ht.length_node s.cfg, ht.root_lt⟩
  status_legal := hs.status_legal

/-- Settles O53: the sequencer is 0 while the core is idle, so the codec state is empty or one tree with its table. -/
theorem invariantBetweenCommands : Obligations.InvariantBetweenCommands := by
  unfold Obligations.InvariantBetweenCommands
  intro s hs h hb
  rcases (codecInv_idle (hs.seq_eq_zero hb)).1 h with ⟨hcode, hnode⟩ | ⟨t, ht, hcode⟩
  · exact betweenCommands_of_empty hs hcode hnode
  · exact betweenCommands_of_tree hs ht hcode

end Sys2Proof.Machine
end

section
/-! What the commands leave of their operands, and the reset state. -/

namespace Sys2Proof.Machine

/-- A stage of `COMPRESS` leaves the text it reads. -/
theorem StageEnds.text_of_compress {s t : State} {i : Instr} (h : StageEnds s i t) (hi : ofCompress i = true) :
    t.txt = s.txt ∧ t.txtLen = s.txtLen := by
  cases h with
  | trim | freq | treeBuild | codeAssign | encode | pad | serialize => exact ⟨rfl, rfl⟩
  | deserialize | unpad | decode => exact absurd hi (by decide)
  | error he => simp [hi]

/-- A stage of `DECOMPRESS` leaves the stream it reads and the codec state. -/
theorem StageEnds.stream_codec_of_decompress {s t : State} {i : Instr} (h : StageEnds s i t) (hi : ofCompress i = false) :
    t.bin = s.bin ∧ t.binLen = s.binLen ∧ t.code = s.code ∧ t.node = s.node ∧ t.root = s.root := by
  cases h with
  | trim | freq | treeBuild | codeAssign | encode | pad | serialize => exact absurd hi (by decide)
  | deserialize | unpad | decode => exact ⟨rfl, rfl, rfl, rfl, rfl⟩
  | error he => simp [hi]

theorem isCommand_of_ofCompress {i : Instr} (h : ofCompress i = true) : i.isCommand = false := by
  revert h; cases i <;> decide

/-- What a command's action leaves, its issue leaves too. -/
theorem State.issue_cases {p : State → Prop} {s : State} {action : State → State} (hs : p s) (ha : p (action s)) :
    p (s.issue action) := by
  unfold State.issue
  split
  · exact hs
  · exact ha

theorem compress_leaves_text {s t : State} {i : Instr} (hi : i = .compress ∨ ofCompress i = true) (h : exec i s = .next t) :
    t.txt = s.txt ∧ t.txtLen = s.txtLen := by
  rcases hi with rfl | hi
  · cases h
    exact State.issue_cases (p := fun u => u.txt = s.txt ∧ u.txtLen = s.txtLen) ⟨rfl, rfl⟩ ⟨rfl, rfl⟩
  · exact (exec_stage_ends (isCommand_of_ofCompress hi) h).text_of_compress hi

theorem decompress_leaves_stream_codec {s t : State} {i : Instr} (hi : i = .decompress ∨ i = .deserialize ∨ i = .unpad ∨ i = .decode)
    (h : exec i s = .next t) : t.bin = s.bin ∧ t.binLen = s.binLen ∧ t.code = s.code ∧ t.node = s.node ∧ t.root = s.root := by
  rcases hi with rfl | rfl | rfl | rfl
  · cases h
    exact State.issue_cases
      (p := fun u => u.bin = s.bin ∧ u.binLen = s.binLen ∧ u.code = s.code ∧ u.node = s.node ∧ u.root = s.root)
      ⟨rfl, rfl, rfl, rfl, rfl⟩ ⟨rfl, rfl, rfl, rfl, rfl⟩
  all_goals exact (exec_stage_ends rfl h).stream_codec_of_decompress (by decide)

theorem clear_leaves_buffers {s t : State} (h : exec .clear s = .next t) :
    t.txt = s.txt ∧ t.txtLen = s.txtLen ∧ t.bin = s.bin ∧ t.binLen = s.binLen := by
  cases h
  exact State.issue_cases (p := fun u => u.txt = s.txt ∧ u.txtLen = s.txtLen ∧ u.bin = s.bin ∧ u.binLen = s.binLen)
    ⟨rfl, rfl, rfl, rfl⟩ ⟨rfl, rfl, rfl, rfl⟩

/-- Settles O54: by the ways a stage can end (`StageEnds`) and by what the issue of a command does. -/
theorem commandsLeaveTheirOperands : Obligations.CommandsLeaveTheirOperands := by
  unfold Obligations.CommandsLeaveTheirOperands
  exact fun s t => ⟨fun _ => compress_leaves_text, fun _ => decompress_leaves_stream_codec, clear_leaves_buffers⟩

/-- Settles O48: every field named is a field of `State.resetOf`. -/
theorem resetState : Obligations.ResetState := by
  unfold Obligations.ResetState
  exact fun c => ⟨rfl, rfl, rfl, rfl, rctLookup_nil, rfl, rfl, rfl, fun _ => rfl, fun _ => rfl, rfl⟩

/-- Settles O51: the reset state is in form and idle, its codec state empty. -/
theorem resetMeetsInvariants : Obligations.ResetMeetsInvariants := by
  unfold Obligations.ResetMeetsInvariants
  exact fun c hc => ⟨structInv_resetOf hc, (codecInv_idle rfl).2 (codecKept_of_empty rfl rfl)⟩

end Sys2Proof.Machine
end

section
/-! The two memories as the host reaches them (20_memory.md): the order of the bits in `BIN`, and what each host access does, by whether
a command runs and by whether the register or element exists. -/

namespace Sys2Proof.Machine

/-! ## The order of the bits (R52) -/

/-- The bits past the string are those of the bytes past the list: there are none. -/
theorem getElem?_deserializeBytes (bytes : List Byte) (k : Nat) :
    (deserializeBytes bytes)[k]? = (bytes[k / 8]?).map (fun v => v.getLsbD (7 - k % 8)) := by
  induction bytes generalizing k with
  | nil => rfl
  | cons v vs ih =>
    have hcons : deserializeBytes (v :: vs) = bin8 v ++ deserializeBytes vs := rfl
    rw [hcons]
    rcases Nat.lt_or_ge k 8 with hk | hk
    · rw [List.getElem?_append_left (by rwa [length_bin8]), getElem?_bin8 v hk, Nat.div_eq_of_lt hk, Nat.mod_eq_of_lt hk]
      rfl
    · have hdiv : k / 8 = (k - 8) / 8 + 1 := by omega
      have hmod : k % 8 = (k - 8) % 8 := by omega
      rw [List.getElem?_append_right (by rwa [length_bin8]), length_bin8, ih, hdiv, hmod, List.getElem?_cons_succ]

/-- Settles O34: by induction on the bytes; the first eight bits are those of the first byte. -/
theorem mostSignificantBitFirst : Obligations.MostSignificantBitFirst := by
  unfold Obligations.MostSignificantBitFirst
  exact fun bytes k _ => getElem?_deserializeBytes bytes k

/-! ## The step of each host access -/

section
variable {s t : State} {rest : List HostAction}

theorem step_csrRead {n : Nat} (h : s.host = .csrRead n :: rest) (ht : readCsr n { s with host := rest } = t) :
    step s = .next t := by
  rw [step, fetch, h, ← ht]; rfl

theorem step_csrWrite {n v : Nat} (hn : n ≠ 0) (h : s.host = .csrWrite n v :: rest)
    (ht : writeCsr n v { s with host := rest } = t) : step s = .next t := by
  obtain ⟨m, rfl⟩ := Nat.exists_eq_succ_of_ne_zero hn
  rw [step, fetch, h, ← ht]; rfl

theorem step_memRead {space : Space} {i : Nat} (h : s.host = .memRead space i :: rest)
    (ht : readMem space i { s with host := rest } = t) : step s = .next t := by
  rw [step, fetch, h, ← ht]; rfl

theorem step_memWrite {space : Space} {i v : Nat} (h : s.host = .memWrite space i v :: rest)
    (ht : writeMem space i v { s with host := rest } = t) : step s = .next t := by
  rw [step, fetch, h, ← ht]; rfl

/-- A step that reads a free value returns some value of the width read. -/
theorem step_readFree {w : Nat} (h : step s = .next (readFree w { s with host := rest })) :
    ∃ r k, r < 2 ^ w ∧ step s = .next { s with host := rest, readData := r, freeCount := k } :=
  ⟨_, _, truncate_lt _ _, h⟩

end

/-! ## What each access does -/

section
variable {s : State}

theorem readCsr_status : readCsr 1 s = { s with readData := s.status.toNat } := rfl

theorem readCsr_txtLen_idle (h : s.busy = false) : readCsr 2 s = { s with readData := s.txtLen } := by
  simp [readCsr, h]

theorem readCsr_binLen_idle (h : s.busy = false) : readCsr 3 s = { s with readData := s.binLen } := by
  simp [readCsr, h]

theorem readCsr_txtLen_busy (h : s.busy = true) : readCsr 2 s = readFree s.cfg.wTLen s := by
  simp [readCsr, h]

theorem readCsr_binLen_busy (h : s.busy = true) : readCsr 3 s = readFree s.cfg.wBLen s := by
  simp [readCsr, h]

/-- `CMD` and the registers that do not exist (10_state.md R21, R22). -/
theorem readCsr_zero {n : Nat} (hn : n = 0 ∨ 4 ≤ n) : readCsr n s = { s with readData := 0 } := by
  rw [readCsr, if_neg (by omega), if_neg (by omega), if_neg (by omega)]

theorem writeCsr_busy {n v : Nat} (h : s.busy = true) : writeCsr n v s = s := if_pos h

theorem writeCsr_txtLen_idle {v : Nat} (h : s.busy = false) (hv : v < 2 ^ s.cfg.wTLen) :
    writeCsr 2 v s = { s with txtLen := v } := by
  simp [writeCsr, h, State.setTxtLen, truncate_of_lt hv]

theorem writeCsr_binLen_idle {v : Nat} (h : s.busy = false) (hv : v < 2 ^ s.cfg.wBLen) :
    writeCsr 3 v s = { s with binLen := v } := by
  simp [writeCsr, h, State.setBinLen, truncate_of_lt hv]

/-- `STATUS` is read only, and no register from 4 on exists (10_state.md R21, R23). -/
theorem writeCsr_outside {n v : Nat} (hn : n = 1 ∨ 4 ≤ n) : writeCsr n v s = s := by
  rw [writeCsr, if_neg (by omega : ¬n = 2), if_neg (by omega : ¬n = 3), ite_self]

theorem readMem_idle {space : Space} {i : Nat} (h : s.busy = false) (hi : i < s.cfg.capacity space) :
    readMem space i s = { s with readData := elementAt space i s } := by
  simp [readMem, h, hi]

theorem readMem_busy {space : Space} {i : Nat} (h : s.busy = true) :
    readMem space i s = readFree (s.cfg.elementWidth space) s := by
  simp [readMem, h]

theorem readMem_outside {space : Space} {i : Nat} (hi : s.cfg.capacity space ≤ i) :
    readMem space i s = readFree (s.cfg.elementWidth space) s := by
  simp [readMem, hi]

theorem writeMem_busy {space : Space} {i v : Nat} (h : s.busy = true) : writeMem space i v s = s := if_pos h

theorem writeMem_txt_idle {i v : Nat} (h : s.busy = false) :
    writeMem .txt i v s = { s with txt := s.txt.write s.cfg.maxTxt i (truncate s.cfg.wSym v) } := by
  simp [writeMem, h]

theorem writeMem_bin_idle {i v : Nat} (h : s.busy = false) :
    writeMem .bin i v s = { s with bin := s.bin.write s.cfg.maxBin i (BitVec.ofNat 8 v) } := by
  simp [writeMem, h]

theorem Memory.write_of_le {α : Type} {m : Memory α} {n i : Nat} {v : α} (h : n ≤ i) : m.write n i v = m :=
  if_neg (Nat.not_lt.2 h)

theorem writeMem_outside {space : Space} {i v : Nat} (hi : s.cfg.capacity space ≤ i) : writeMem space i v s = s := by
  cases hb : s.busy with
  | true => exact writeMem_busy hb
  | false =>
    cases space with
    | txt => rw [writeMem_txt_idle hb, Memory.write_of_le (n := s.cfg.maxTxt) hi]
    | bin => rw [writeMem_bin_idle hb, Memory.write_of_le (n := s.cfg.maxBin) hi]

/-! ## The elements of a buffer after a write -/

theorem txtAt_write_self {i v : Nat} (hi : i < s.cfg.maxTxt) (hv : v < 2 ^ s.cfg.wSym) :
    ({ s with txt := s.txt.write s.cfg.maxTxt i (truncate s.cfg.wSym v) } : State).txtAt i = v := by
  simp only [State.txtAt, Memory.read_write_self _ _ hi, truncate_of_lt hv]

theorem txtAt_write_of_ne {i j : Nat} (v : Symbol) (hj : j ≠ i) :
    ({ s with txt := s.txt.write s.cfg.maxTxt i v } : State).txtAt j = s.txtAt j := by
  simp only [State.txtAt, Memory.read_write_of_ne _ v hj]

theorem binAt_write_self {i v : Nat} (hi : i < s.cfg.maxBin) (hv : v < 2 ^ 8) :
    (({ s with bin := s.bin.write s.cfg.maxBin i (BitVec.ofNat 8 v) } : State).binAt i).toNat = v := by
  rw [State.binAt, Memory.read_write_self _ _ hi, BitVec.toNat_ofNat, Nat.mod_eq_of_lt hv]

theorem binAt_write_of_ne {i j : Nat} (v : Byte) (hj : j ≠ i) :
    ({ s with bin := s.bin.write s.cfg.maxBin i v } : State).binAt j = s.binAt j :=
  Memory.read_write_of_ne _ v hj

end

/-! ## Accesses while a command runs -/

section
variable {s : State} {rest : List HostAction}

theorem exec_command_busy {i : Instr} (hi : i.isCommand = true) (h : s.busy = true) : exec i s = .next s := by
  cases i with
  | compress | decompress | clear => exact congrArg Host.Outcome.next (State.issue_busy _ h)
  | trim | freq | treeBuild | codeAssign | encode | pad | serialize | deserialize | unpad | decode => cases hi

/-- A `CMD` write while busy is ignored before its opcode matters (47_commands.md R170). -/
theorem step_cmdWrite_busy {v : Nat} (hb : s.busy = true) (h : s.host = .csrWrite 0 v :: rest) :
    step s = .next { s with host := rest } := by
  have hfetch : fetch s = writeCmd v { s with host := rest } := by rw [fetch, h]; rfl
  rw [step, hfetch, writeCmd]
  cases hd : decodeCmd (BitVec.ofNat 8 v) with
  | ok i => exact exec_command_busy (decodeCmd_isCommand hd) hb
  | error e => exact congrArg Host.Outcome.next (State.issue_busy _ hb)

theorem step_csrWrite_busy {n v : Nat} (hb : s.busy = true)
    (h : s.host = .csrWrite n v :: rest) : step s = .next { s with host := rest } := by
  rcases eq_or_ne n 0 with rfl | hn
  · exact step_cmdWrite_busy hb h
  · exact step_csrWrite hn h (writeCsr_busy hb)

theorem step_memWrite_busy {space : Space} {i v : Nat} (hb : s.busy = true)
    (h : s.host = .memWrite space i v :: rest) : step s = .next { s with host := rest } :=
  step_memWrite h (writeMem_busy hb)

end

/-! ## The obligations -/

/-- Settles O44: each access is its step's lemma, then what the access does on an idle core. -/
theorem idleHostAccess : Obligations.IdleHostAccess := by
  unfold Obligations.IdleHostAccess
  intro s rest hb
  refine ⟨?status, ?txtLen, ?binLen, ?setTxtLen, ?setBinLen, ?readTxt, ?readBin, ?writeTxt, ?writeBin⟩
  case status => exact fun h => step_csrRead h readCsr_status
  case txtLen => exact fun h => step_csrRead h (readCsr_txtLen_idle hb)
  case binLen => exact fun h => step_csrRead h (readCsr_binLen_idle hb)
  case setTxtLen => exact fun _ hv h => step_csrWrite (by decide) h (writeCsr_txtLen_idle hb hv)
  case setBinLen => exact fun _ hv h => step_csrWrite (by decide) h (writeCsr_binLen_idle hb hv)
  case readTxt => exact fun _ hi h => step_memRead h (readMem_idle hb hi)
  case readBin => exact fun _ hi h => step_memRead h (readMem_idle hb hi)
  case writeTxt =>
    intro i v hi hv h
    exact ⟨_, _, rfl, step_memWrite h (writeMem_txt_idle hb), txtAt_write_self hi hv, fun _ => txtAt_write_of_ne _⟩
  case writeBin =>
    intro i v hi hv h
    exact ⟨_, _, rfl, step_memWrite h (writeMem_bin_idle hb), binAt_write_self hi hv, fun _ => binAt_write_of_ne _⟩

/-- Settles O45: every write is dropped, and every read but that of `STATUS` is a free one. -/
theorem busyHostAccess : Obligations.BusyHostAccess := by
  unfold Obligations.BusyHostAccess
  intro s rest hb
  refine ⟨?status, ?writeCsr, ?writeMem, ?txtLen, ?binLen, ?element⟩
  case status => exact fun h => step_csrRead h readCsr_status
  case writeCsr => exact fun _ _ => step_csrWrite_busy hb
  case writeMem => exact fun _ _ _ => step_memWrite_busy hb
  case txtLen => exact fun h => step_readFree (step_csrRead h (readCsr_txtLen_busy hb))
  case binLen => exact fun h => step_readFree (step_csrRead h (readCsr_binLen_busy hb))
  case element => exact fun _ _ h => step_readFree (step_memRead h (readMem_busy hb))

/-- Settles O46: what does not exist is neither written nor read, whether a command runs or not. -/
theorem accessOutsideHasNoEffect : Obligations.AccessOutsideHasNoEffect := by
  unfold Obligations.AccessOutsideHasNoEffect
  intro s rest
  refine ⟨?readCsr, ?writeCsr, ?writeMem, ?readMem⟩
  case readCsr => exact fun _ hn h => step_csrRead h (readCsr_zero hn)
  case writeCsr => exact fun _ _ hn h => step_csrWrite (by omega) h (writeCsr_outside hn)
  case writeMem => exact fun _ _ _ hi h => step_memWrite h (writeMem_outside hi)
  case readMem => exact fun _ _ hi h => step_readFree (step_memRead h (readMem_outside hi))

/-- Settles O47: a write while busy is dropped, and a read changes the host's own side alone. -/
theorem hostCannotDisturbCommand : Obligations.HostCannotDisturbCommand := by
  unfold Obligations.HostCannotDisturbCommand
  intro s a rest hb h hreset hidle hpoll
  cases a with
  | csrRead n =>
    obtain ⟨r, k, hread⟩ := readCsr_eq_withHost n { s with host := rest }
    exact ⟨r, k, step_csrRead h hread⟩
  | csrWrite n v => exact ⟨s.readData, s.freeCount, step_csrWrite_busy hb h⟩
  | memRead space i =>
    obtain ⟨r, k, hread⟩ := readMem_eq_withHost space i { s with host := rest }
    exact ⟨r, k, step_memRead h hread⟩
  | memWrite space i v => exact ⟨s.readData, s.freeCount, step_memWrite_busy hb h⟩
  | pollDone => exact absurd rfl hpoll
  | idle => exact absurd rfl hidle
  | reset => exact absurd rfl hreset

end Sys2Proof.Machine
end

section
/-! The words of the two formats (30_encoding.md): which words name an instruction, and what the decoder answers to the others. -/

namespace Sys2Proof.Machine

/-! ## Words and instructions -/

theorem decode_encode (i : Instr) : decode (encode i) = .ok i := by
  cases i <;> rfl

theorem encode_wellFormed (i : Instr) : (encode i).wellFormed = true := by
  cases i <;> rfl

/-- The words that decode are the words of the instructions. -/
theorem decode_eq_ok_iff {w : CodeWord} {i : Instr} : decode w = .ok i ↔ encode i = w :=
  ⟨encode_of_decode w i, fun h => h ▸ decode_encode i⟩

/-! ## The opcodes (R71, R72) -/

theorem cmd8_wellFormed_iff {v : BitVec 8} : (CodeWord.cmd8 v).wellFormed = true ↔ v = 1 ∨ v = 2 ∨ v = 3 := by
  simp only [CodeWord.wellFormed, Bool.and_eq_true, decide_eq_true_eq]
  bv_omega

theorem decodeCmd_ok_of_wellFormed {v : BitVec 8} (h : (CodeWord.cmd8 v).wellFormed = true) : ∃ i, decodeCmd v = .ok i := by
  obtain rfl | rfl | rfl := cmd8_wellFormed_iff.1 h
  · exact ⟨.compress, rfl⟩
  · exact ⟨.decompress, rfl⟩
  · exact ⟨.clear, rfl⟩

theorem decodeCmd_error_of_not_wellFormed {v : BitVec 8} (h : (CodeWord.cmd8 v).wellFormed = false) :
    decodeCmd v = .error (.illegalOpcode v) := by
  have hv : ¬ (v = 1 ∨ v = 2 ∨ v = 3) := fun hv => by simp [cmd8_wellFormed_iff.2 hv] at h
  obtain ⟨h1, h2, h3⟩ : v ≠ 1 ∧ v ≠ 2 ∧ v ≠ 3 := by simpa only [not_or] using hv
  rw [decodeCmd, if_neg h1, if_neg h2, if_neg h3]

/-! ## The stage ids (R73) -/

theorem stage4_wellFormed_iff {k : BitVec 4} : (CodeWord.stage4 k).wellFormed = true ↔ k ≠ 0 ∧ k.toNat ≤ 10 := by
  simp only [CodeWord.wellFormed, Bool.and_eq_true, decide_eq_true_eq]
  bv_omega

theorem decodeStage_ok_of_wellFormed {k : BitVec 4} (h : (CodeWord.stage4 k).wellFormed = true) : ∃ i, decodeStage k = .ok i := by
  obtain ⟨hzero, hle⟩ := stage4_wellFormed_iff.1 h
  exact decodeStage_ok_of_le k hzero hle

theorem decodeStage_error_of_not_wellFormed {k : BitVec 4} (h : (CodeWord.stage4 k).wellFormed = false) :
    decodeStage k = .error (.illegalStage k) := by
  obtain rfl | hzero := eq_or_ne k 0
  · exact decodeStage_zero
  · have hgt : ¬ k.toNat ≤ 10 := fun hle => by simp [stage4_wellFormed_iff.2 ⟨hzero, hle⟩] at h
    exact decodeStage_error_of_le k (by omega)

/-! ## Both formats -/

/-- The well-formed words are those that decode. -/
theorem wellFormed_iff_decode_ok {w : CodeWord} : w.wellFormed = true ↔ ∃ i, decode w = .ok i := by
  constructor
  · intro h
    cases w with
    | cmd8 v => exact decodeCmd_ok_of_wellFormed h
    | stage4 k => exact decodeStage_ok_of_wellFormed h
  · rintro ⟨i, hi⟩
    obtain rfl := decode_eq_ok_iff.1 hi
    exact encode_wellFormed i

/-! ## The obligations -/

/-- Settles O1: each word is the word `encode` gives its instruction, so it decodes to it. -/
theorem specWordsDecode : Obligations.SpecWordsDecode := by
  unfold Obligations.SpecWordsDecode
  exact ⟨decode_encode .compress, decode_encode .decompress, decode_encode .clear, decode_encode .trim, decode_encode .freq,
    decode_encode .treeBuild, decode_encode .codeAssign, decode_encode .encode, decode_encode .pad, decode_encode .serialize,
    decode_encode .deserialize, decode_encode .unpad, decode_encode .decode⟩

/-- Settles O2: the decoder inverts the encoder on every instruction, and accepts no other word. -/
theorem decodeEncodeAgree : Obligations.DecodeEncodeAgree := by
  unfold Obligations.DecodeEncodeAgree
  exact ⟨fun i _ => decode_encode i, fun _ _ => decode_eq_ok_iff.1⟩

/-- Settles O3: acceptance by the ranges of both formats, then each format's refusal. -/
theorem illegalWordsRefusedByName : Obligations.IllegalWordsRefusedByName := by
  unfold Obligations.IllegalWordsRefusedByName
  exact ⟨fun _ => wellFormed_iff_decode_ok, fun _ => decodeCmd_error_of_not_wellFormed,
    fun _ => decodeStage_error_of_not_wellFormed⟩

end Sys2Proof.Machine
end

section
/-! Stages 1 and 2 (40_frequency_counter.md): `TRIM` by whether the text fits its buffer, and the counts `FREQ` makes of the trimmed
text. -/

namespace Sys2Proof.Machine

/-! ## TRIM (R100) -/

theorem exec_trim_of_le {s : State} (h : s.txtLen ≤ s.cfg.maxTxt) :
    exec .trim s = .next { s with wlen := trimmedLength s.cfg.ws s.txtAt s.txtLen, seq := 2 } :=
  if_neg (not_lt.2 h)

theorem exec_trim_of_lt {s : State} (h : s.cfg.maxTxt < s.txtLen) : exec .trim s = .next (s.raise .capacity .trim) :=
  if_pos h

/-- Settles O12: the trimmed length stands before whitespace only (`trimmedLength_spec`) and cuts off the trimmed text (`map_trim`). -/
theorem trimFindsTrimmedLength : Obligations.TrimFindsTrimmedLength := by
  unfold Obligations.TrimFindsTrimmedLength
  intro s
  refine ⟨fun hfits => ?fits, fun hlong => ?tooLong⟩
  case fits =>
    obtain ⟨hle, hlast, hafter⟩ := trimmedLength_spec s.cfg.ws s.txtAt s.txtLen
    exact ⟨_, exec_trim_of_le hfits, hle, hlast, hafter, map_trim s.cfg.ws s.txtAt s.txtLen⟩
  case tooLong =>
    rw [exec_trim_of_lt hlong, State.raise_of_compress .capacity s rfl]
    rfl

/-! ## FREQ (R101, R102) -/

/-- Every symbol of the trimmed text has a counter, so `FREQ` counts each one. -/
theorem freqAt_countSymbols_trimmedText (s : State) (x : Symbol) :
    freqAt (countSymbols s.cfg.nSym s.trimmedText) x = s.trimmedText.count x :=
  freqAt_countSymbols (fun _ => State.lt_of_mem_trimmedText) x

theorem sum_countSymbols_trimmedText (s : State) : (countSymbols s.cfg.nSym s.trimmedText).sum = s.wlen := by
  rw [sum_countSymbols fun _ => State.lt_of_mem_trimmedText, State.length_trimmedText]

theorem count_trimmedText_le (s : State) (x : Symbol) : s.trimmedText.count x ≤ s.wlen :=
  List.count_le_length.trans_eq s.length_trimmedText

/-- Settles O13: the counters `FREQ` leaves are the counts of the trimmed text. -/
theorem freqCountsOccurrences : Obligations.FreqCountsOccurrences := by
  unfold Obligations.FreqCountsOccurrences
  intro s
  refine ⟨_, _, exec_freq s, length_countSymbols _ _, fun x => ?_⟩
  rw [freqAt_countSymbols_trimmedText]
  exact ⟨rfl, count_trimmedText_le s x⟩

/-- Settles O14: the counts add up to the length of the trimmed text, and a symbol is counted where it occurs. -/
theorem countsSumToTrimmedLength : Obligations.CountsSumToTrimmedLength := by
  unfold Obligations.CountsSumToTrimmedLength
  intro s t h
  rw [exec_freq] at h
  cases h
  refine ⟨sum_countSymbols_trimmedText s, fun x => ?_⟩
  rw [freqAt_countSymbols_trimmedText]
  exact List.one_le_count_iff

end Sys2Proof.Machine
end

section
/-! The priority queue (41_priority_queue.md): its order has one least member, and its two primitives are those of a set. -/

namespace Sys2Proof.Machine

/-! ## The order (R110) -/

theorem keyLess_asymm {node : List Node} {i j : Nat} (h : keyLess node i j = true) : ¬ keyLess node j i = true := by
  rw [keyLess_iff] at *; omega

/-- The key is injective, so no two members both come before all others. -/
theorem least_unique {node : List Node} {pq : List Nat} {m n : Nat}
    (hm : m ∈ pq) (hmLeast : ∀ j ∈ pq, j ≠ m → keyLess node m j = true)
    (hn : n ∈ pq) (hnLeast : ∀ j ∈ pq, j ≠ n → keyLess node n j = true) : n = m := by
  by_contra hne
  exact keyLess_asymm (hmLeast n hn hne) (hnLeast m hm (Ne.symm hne))

theorem existsUnique_least (node : List Node) {pq : List Nat} (h : pq ≠ []) :
    ∃! m, m ∈ pq ∧ ∀ j ∈ pq, j ≠ m → keyLess node m j = true := by
  obtain ⟨m, -, hm, hleast⟩ := pqMin_spec node pq h
  exact ⟨m, ⟨hm, hleast⟩, fun _ ⟨hn, hnLeast⟩ => least_unique hm hleast hn hnLeast⟩

/-- Settles O15: the order is total and asymmetric, and the member `pqMin` finds is the least one. -/
theorem queueOrderIsWeightThenIndex : Obligations.QueueOrderIsWeightThenIndex := by
  unfold Obligations.QueueOrderIsWeightThenIndex
  exact fun node => ⟨keyLess_iff node, fun _ _ => keyLess_total, fun _ => existsUnique_least node⟩

/-! ## The primitives (R111, R112) -/

/-- Settles O16: an insert is a union with one index, and an extraction erases the least member, which a set holds once. -/
theorem queuePrimitives : Obligations.QueuePrimitives := by
  unfold Obligations.QueuePrimitives
  refine ⟨fun i pq => ⟨mem_pqInsert i pq, pairwise_pqInsert i pq⟩, fun node pq hne hnodup => ?extract⟩
  case extract =>
    obtain ⟨m, hext, hm, hleast⟩ := pqExtractMin_spec node pq hne
    exact ⟨m, pq.erase m, hext, hm, hleast, fun _ => hnodup.mem_erase_iff.trans and_comm⟩

end Sys2Proof.Machine
end

section
/-! Stage 3 (42_tree_builder.md): what `TREE_BUILD` answers, the loaded leaves, what one merge joins, and the merges before the last. -/

namespace Sys2Proof.Machine

/-! ## What the stage answers (R120, R125) -/

theorem exec_treeBuild_of_absent {s : State} (h : present s.cfg.leafOrder s.freq = []) :
    exec .treeBuild s = .next (s.raise .emptyInput .treeBuild) :=
  if_pos (loaded_pq_nil.2 h)

theorem exec_treeBuild_of_present {s : State} {w : TreeWork} {root : Nat} (h : present s.cfg.leafOrder s.freq ≠ [])
    (hw : builtTree s.cfg.leafOrder s.freq s.nodeA s.nodeB = w) (hroot : w.pq = [root]) :
    exec .treeBuild s =
      .next { s with node := w.node, pq := [root], nodeA := w.nodeA, nodeB := w.nodeB, root := root, seq := 4 } := by
  have hne : (loadedLeaves s.cfg.leafOrder s.freq s.nodeA s.nodeB).pq ≠ [] := mt loaded_pq_nil.1 h
  subst hw
  simp only [exec, execTreeBuild, if_neg hne, hroot]
  rfl

/-! ## The loaded leaves (R121) -/

theorem mem_present_leafOrder {c : Config} (hc : c.wellFormed = true) {f : List Nat} {x : Symbol} :
    x ∈ present c.leafOrder f ↔ x < c.nSym ∧ 1 ≤ freqAt f x := by
  rw [mem_present, Config.mem_order hc]

theorem present_ascending_rises (w : Nat) (f : List Nat) : (present (Config.ascending w) f).Pairwise (· < ·) :=
  List.pairwise_lt_range.sublist (present_sublist _ f)

/-- Settles O17: the load filters the order by the counts (`loadedLeaves_eq`), and the order names every symbol value once. -/
theorem leavesLoadedInSymbolOrder : Obligations.LeavesLoadedInSymbolOrder := by
  unfold Obligations.LeavesLoadedInSymbolOrder
  refine ⟨fun c f a b hc => ?load, fun c f hasc => ?rises, ?chosen⟩
  case load =>
    rw [loadedLeaves_eq]
    exact ⟨present_sublist _ f, nodup_present hc f, fun _ => mem_present_leafOrder hc, rfl, rfl⟩
  case rises =>
    rw [hasc]
    exact present_ascending_rises c.wSym f
  case chosen => simp only [Config.chosen]

/-! ## One merge (R122) -/

/-- The member extracted second comes after the first and before all others. -/
theorem mergeStep_joins_least {t : TreeWork} (hrise : t.pq.Pairwise (· < ·)) (hlt : ∀ i ∈ t.pq, i < t.node.length)
    (h2 : 2 ≤ t.pq.length) :
    ∃ a b, a ∈ t.pq ∧ b ∈ t.pq ∧ keyLess t.node a b = true ∧
      (∀ j ∈ t.pq, j ≠ a → j ≠ b → keyLess t.node b j = true) ∧
      mergeStep t =
        { node := t.node ++ [.internal (weightAt t.node a + weightAt t.node b) a b]
          pq := ((t.pq.erase a).erase b) ++ [t.node.length], nodeA := a, nodeB := b } := by
  have hnodup : t.pq.Nodup := hrise.imp Nat.ne_of_lt
  obtain ⟨a, hext, ha, haLeast⟩ := pqExtractMin_spec t.node t.pq (List.ne_nil_of_length_pos (by omega))
  have hrest : 0 < (t.pq.erase a).length := by rw [List.length_erase_of_mem ha]; omega
  obtain ⟨b, hext', hb, hbLeast⟩ := pqExtractMin_spec t.node (t.pq.erase a) (List.ne_nil_of_length_pos hrest)
  obtain ⟨hba, hbIn⟩ := hnodup.mem_erase_iff.1 hb
  have hnew : ∀ j ∈ (t.pq.erase a).erase b, j < t.node.length :=
    fun j hj => hlt j (List.mem_of_mem_erase (List.mem_of_mem_erase hj))
  refine ⟨a, b, ha, hbIn, haLeast b hbIn hba, fun j hj hja hjb => hbLeast j (hnodup.mem_erase_iff.2 ⟨hja, hj⟩) hjb, ?_⟩
  simp only [mergeStep, hext, hext', pushNode, pqInsert_of_lt _ _ hnew]

/-- Settles O18: each extraction takes the least of what the queue holds, and the new index is above all others. -/
theorem mergeJoinsTwoLeast : Obligations.MergeJoinsTwoLeast := by
  unfold Obligations.MergeJoinsTwoLeast
  exact fun _ => mergeStep_joins_least

/-! ## No symbol (R125) -/

theorem countSymbols_trimmedText_eq_zero_iff (s : State) :
    (∀ x, freqAt (countSymbols s.cfg.nSym s.trimmedText) x = 0) ↔ s.wlen = 0 := by
  simp only [freqAt_countSymbols_trimmedText, List.count_eq_zero]
  rw [← s.length_trimmedText, List.length_eq_zero_iff, List.eq_nil_iff_forall_not_mem]

/-- Settles O19: with no count no leaf is loaded, and a text has no symbol to count exactly when it is empty. -/
theorem noSymbolRaisesEmptyInput : Obligations.NoSymbolRaisesEmptyInput := by
  unfold Obligations.NoSymbolRaisesEmptyInput
  refine ⟨fun s hzero => ?raises, fun s t h => ?empty⟩
  case raises =>
    rw [exec_treeBuild_of_absent (present_eq_nil.2 fun x _ => hzero x), State.raise_of_compress .emptyInput s rfl]
    rfl
  case empty =>
    rw [exec_freq] at h
    cases h
    exact countSymbols_trimmedText_eq_zero_iff s

/-! ## The nodes counted (R123) -/

/-- Settles O20: the loop is `n - 1` merges of the loaded leaves (`builtTree_spec`), and there are at most `NSYM` symbols. -/
theorem treeBuildCountsNodes : Obligations.TreeBuildCountsNodes := by
  unfold Obligations.TreeBuildCountsNodes
  intro s hc hp
  obtain ⟨root, -, hpq, -, -, hiter, -, hroot, hlen⟩ := builtTree_spec s.nodeA s.nodeB (nodup_present hc s.freq) hp
  have hle : (present s.cfg.leafOrder s.freq).length ≤ s.cfg.nSym :=
    (length_present_le _ s.freq).trans_eq (Config.length_order hc)
  have hmax : (builtTree s.cfg.leafOrder s.freq s.nodeA s.nodeB).node.length ≤ s.cfg.maxNode := by
    rw [hlen, Config.maxNode]; omega
  rw [hiter] at hpq hlen hmax
  exact ⟨_, _, root, rfl, rfl, hroot, exec_treeBuild_of_present hp hiter hpq, hpq, hlen, hmax⟩

/-! ## One repeated symbol (R124) -/

theorem present_of_only_symbol {s : State} {x : Symbol} (hc : s.cfg.wellFormed = true)
    (hf : s.freq = countSymbols s.cfg.nSym s.trimmedText) (hne : s.trimmedText ≠ []) (hall : ∀ y ∈ s.trimmedText, y = x) :
    present s.cfg.leafOrder s.freq = [x] := by
  have hx : x ∈ s.trimmedText := by
    obtain ⟨y, hy⟩ := List.exists_mem_of_ne_nil _ hne
    exact hall y hy ▸ hy
  have hmem : ∀ y, y ∈ present s.cfg.leafOrder s.freq ↔ y ∈ [x] := fun y => by
    rw [mem_present_leafOrder hc, hf, freqAt_countSymbols_trimmedText, List.one_le_count_iff, List.mem_singleton]
    exact ⟨fun h => hall y h.2, fun h => h ▸ ⟨State.lt_of_mem_trimmedText hx, hx⟩⟩
  exact List.perm_singleton.1 ((List.perm_ext_iff_of_nodup (nodup_present hc _) (List.nodup_singleton x)).2 hmem)

/-- Settles O22: one symbol is present, so one leaf is loaded, counted as often as the text is long, and nothing is merged. -/
theorem oneSymbolTreeIsOneLeaf : Obligations.OneSymbolTreeIsOneLeaf := by
  unfold Obligations.OneSymbolTreeIsOneLeaf
  intro s x hc hf hne hall
  have hp : present s.cfg.leafOrder s.freq = [x] := present_of_only_symbol hc hf hne hall
  have hpne : present s.cfg.leafOrder s.freq ≠ [] := by simp [hp]
  have hx : freqAt s.freq x = s.wlen := by
    rw [hf, freqAt_countSymbols_trimmedText, List.count_eq_length.2 fun y hy => (hall y hy).symm, State.length_trimmedText]
  obtain ⟨-, -, -, -, -, hiter, -⟩ := builtTree_spec s.nodeA s.nodeB (nodup_present hc s.freq) hpne
  have hw : builtTree s.cfg.leafOrder s.freq s.nodeA s.nodeB =
      { node := [.leaf x s.wlen], pq := [0], nodeA := s.nodeA, nodeB := s.nodeB } := by
    rw [hiter, loadedLeaves_eq, hp, ← hx]; rfl
  exact exec_treeBuild_of_present hpne hw rfl

/-! ## The Huffman tree (R126) -/

theorem node_prefix_mergeStep (t : TreeWork) : t.node <+: (mergeStep t).node := by
  unfold mergeStep
  split
  · exact List.prefix_rfl
  · split
    · exact List.prefix_rfl
    · exact List.prefix_append _ _

/-- A node once written stays: later merges write at `NODE_CNT` only. -/
theorem node_prefix_mergeSteps (k : Nat) (t : TreeWork) : t.node <+: (mergeStep^[k] t).node := by
  induction k with
  | zero => exact List.prefix_rfl
  | succ k ih => rw [Function.iterate_succ_apply']; exact ih.trans (node_prefix_mergeStep _)

/-- After `k` merges a forest is left whose queue is shorter by `k`. -/
theorem Forest.mergeSteps {L : List (Symbol × Nat)} {a b : Nat} {t : TreeWork} {tree : Nat → HuffTree} {ix : Nat → List Nat}
    (h : Forest L a b t tree ix) (k : Nat) (hk : k < t.pq.length) :
    ∃ tree' ix', Forest L a b (mergeStep^[k] t) tree' ix' ∧ (mergeStep^[k] t).pq.length + k = t.pq.length := by
  induction k with
  | zero => exact ⟨tree, ix, h, rfl⟩
  | succ k ih =>
    obtain ⟨_, _, hF, hlen⟩ := ih (by omega)
    obtain ⟨tree', ix', hF', hlen'⟩ := hF.merge (by omega)
    rw [Function.iterate_succ_apply']
    exact ⟨tree', ix', hF', by omega⟩

/-- Node `n + k` of the `m` merges joins the two members with the least keys of the queue after `k` of them. -/
theorem merged_node_joins_least {o : List Symbol} {f : List Nat} {a0 b0 k m : Nat} {w : TreeWork} (hk : k < m)
    (hm : m < (present o f).length) (hw : w = mergeStep^[k] (loadedLeaves o f a0 b0)) :
    ∃ a b, a ∈ w.pq ∧ b ∈ w.pq ∧ keyLess w.node a b = true ∧ (∀ j ∈ w.pq, j ≠ a → j ≠ b → keyLess w.node b j = true) ∧
      (mergeStep^[m] (loadedLeaves o f a0 b0)).node[(present o f).length + k]? =
        some (.internal (weightAt w.node a + weightAt w.node b) a b) := by
  have hpq : (loadedLeaves o f a0 b0).pq.length = (present o f).length := by rw [loadedLeaves_eq, List.length_range]
  obtain ⟨_, _, hF, hlen⟩ := (forest_loaded o f a0 b0).mergeSteps k (by omega)
  rw [← hw] at hF hlen
  have hcount : w.node.length = (present o f).length + k := by
    have := hF.count
    rw [leafList, List.length_map] at this
    omega
  obtain ⟨a, b, ha, hb, hab, hleast, hmerge⟩ := mergeStep_joins_least hF.rising hF.lt (by omega)
  have hlater : (mergeStep w).node <+: (mergeStep^[m] (loadedLeaves o f a0 b0)).node := by
    rw [hw, ← Function.iterate_succ_apply' mergeStep, show m = (m - (k + 1)) + (k + 1) by omega, Function.iterate_add_apply]
    exact node_prefix_mergeSteps _ _
  refine ⟨a, b, ha, hb, hab, hleast, ?_⟩
  obtain ⟨more, hmore⟩ := hlater
  rw [← hmore, hmerge, ← hcount]
  simp

theorem HuffTree.weight_of_leaves_perm {o : List Symbol} {f : List Nat} {h : HuffTree} (hl : h.leaves.Perm (leafList o f)) :
    h.weight = ((present o f).map (freqAt f)).sum := by
  rw [h.weight_eq, (hl.map Prod.snd).sum_eq, leafList, List.map_map]
  rfl

/-- After `FREQ` the weights of the leaves add up to `WLEN`. -/
theorem sum_leafList_trimmedText {s : State} (hc : s.cfg.wellFormed = true) (hf : s.freq = countSymbols s.cfg.nSym s.trimmedText) :
    ((leafList s.cfg.leafOrder s.freq).map Prod.snd).sum = s.wlen := by
  have hperm : s.cfg.leafOrder.Perm (List.range s.freq.length) := by rw [hf, length_countSymbols]; exact Config.order_perm hc
  rw [sum_freq hperm, hf, sum_countSymbols_trimmedText]

/-- Settles O21: the tree, its leaves and its weights are those of `builtTree_spec`, and its internal nodes those of the merges. -/
theorem treeBuildMakesHuffmanTree : Obligations.TreeBuildMakesHuffmanTree := by
  unfold Obligations.TreeBuildMakesHuffmanTree
  intro s t hc hp hexec
  obtain ⟨root, h, hpq, hTree, hleaves, hiter, hpos, -, -⟩ := builtTree_spec s.nodeA s.nodeB (nodup_present hc s.freq) hp
  rw [exec_treeBuild_of_present hp rfl hpq] at hexec
  cases hexec
  have hn := List.length_pos_iff.2 hp
  refine ⟨⟨h, hTree, hleaves, HuffTree.weight_of_leaves_perm hleaves, fun hf => ?wlen, ?depth⟩, hpos, congrArg TreeWork.node hiter,
    fun k hk w hw => ?merges⟩
  case wlen => rw [h.weight_eq, (hleaves.map Prod.snd).sum_eq, sum_leafList_trimmedText hc hf]
  case depth =>
    have hd := h.depth_lt
    rw [hleaves.length_eq, leafList, List.length_map] at hd
    omega
  case merges =>
    dsimp only
    rw [hiter]
    exact merged_node_joins_least hk (by omega) hw

end Sys2Proof.Machine
end

section
/-! Stage 4 (43_code_generator.md): the table `CODE_ASSIGN` makes of a tree, by the shape of the tree, and of the tree `TREE_BUILD` left. -/

namespace Sys2Proof.Machine

/-! ## The shape of a tree -/

theorem HuffTree.length_symbols_leaf (x : Symbol) (w : Nat) : (HuffTree.leaf x w).symbols.length = 1 := rfl

/-- Each subtree of an internal node has a leaf of its own. -/
theorem HuffTree.two_le_length_symbols_fork (l r : HuffTree) : 2 ≤ (HuffTree.fork l r).symbols.length := by
  have hl := l.length_leaves_pos
  have hr := r.length_leaves_pos
  simp only [symbols, leaves, List.length_map, List.length_append]
  omega

/-! ## The table of a tree -/

section
variable {cfg : Config} {node : List Node} {root : Nat}

/-- The table is built from the empty one, so the root leaf's entry is its only one (R131, R137). -/
theorem codeTable_of_leaf {x : Symbol} {w : Nat} (h : node[root]? = some (.leaf x w)) :
    codeTable cfg.degenCode node root = [(x, cfg.degenCode)] := by
  simp only [codeTable, codeAssignments, h]
  rfl

/-- The codes of a tree with an internal root are the paths of its leaves (R130). -/
theorem IsTree.codeOf_fork_iff {l r : HuffTree} (h : IsTree node root (.fork l r)) (x : Symbol) (c : Bits) :
    codeOf (codeTable cfg.degenCode node root) x = some c ↔ (x, c) ∈ (HuffTree.fork l r).paths :=
  h.codeOf_iff x c

/-- The reverse table of a tree is the inverse of its table (10_state.md R29, R133). -/
theorem IsTree.rctLookup_iff_codeOf {t : HuffTree} (h : IsTree node root t) (x : Symbol) (c : Bits) :
    rctLookup (codeTable cfg.degenCode node root) c = some x ↔ codeOf (codeTable cfg.degenCode node root) x = some c :=
  (h.rct_iff x c).trans (h.codeOf_iff x c).symm

/-- With an internal root a code word is a way from `ROOT` to a leaf (R136). -/
theorem IsTree.rctLookup_fork_iff_descend {l r : HuffTree} (h : IsTree node root (.fork l r)) (c : Bits) (x : Symbol) :
    rctLookup (codeTable cfg.degenCode node root) c = some x ↔ ∃ i w, descend node root c = some i ∧ node[i]? = some (.leaf x w) := by
  have ⟨hspells, _⟩ := h
  exact (h.rct_iff x c).trans (hspells.descend c x).symm

/-- With a leaf for a root `DEGEN_CODE` is the only code word (R131, R136). -/
theorem rctLookup_of_leaf_iff {x : Symbol} {w : Nat} (h : node[root]? = some (.leaf x w)) (c : Bits) :
    (∃ y, rctLookup (codeTable cfg.degenCode node root) c = some y) ↔ c = cfg.degenCode := by
  rw [codeTable_of_leaf h, ← Option.ne_none_iff_exists', Ne, rctLookup_eq_none_iff]
  simp [eq_comm]

end

/-! ## The table of a count -/

/-- `CODE_ASSIGN` after `TREE_BUILD`: the table is that of a tree of exactly the symbols counted. -/
theorem code_of_counts {s t u : State} (hc : s.cfg.wellFormed = true) (hp : present s.cfg.leafOrder s.freq ≠ [])
    (ht : exec .treeBuild s = .next t) (hu : exec .codeAssign t = .next u) :
    ∃ h : HuffTree, IsTree t.node t.root h ∧ h.symbols.Perm (present s.cfg.leafOrder s.freq) ∧
      u.code = codeTable s.cfg.degenCode t.node t.root := by
  obtain ⟨root, h, hpq, hTree, hleaves, -⟩ := builtTree_spec s.nodeA s.nodeB (nodup_present hc s.freq) hp
  rw [exec_treeBuild_of_present hp rfl hpq] at ht
  cases ht
  rw [exec_codeAssign] at hu
  cases hu
  exact ⟨h, hTree, symbols_perm hleaves, rfl⟩

/-! ## The obligations -/

/-- Settles O23: the table holds the tree's codes (`IsTree.codeOf_iff`), which are its paths where the root is internal. -/
theorem codeAssignRecordsLeafPaths : Obligations.CodeAssignRecordsLeafPaths := by
  unfold Obligations.CodeAssignRecordsLeafPaths
  exact fun s _ _ h => ⟨_, _, exec_codeAssign s, h.codeOf_fork_iff⟩

/-- Settles O24: a leaf root makes the one assignment of `DEGEN_CODE`. -/
theorem leafRootGetsOneBitCode : Obligations.LeafRootGetsOneBitCode := by
  unfold Obligations.LeafRootGetsOneBitCode
  refine ⟨fun s x w h => ⟨[], ?_⟩, fun _ => rfl, rfl⟩
  rw [exec_codeAssign, codeTable_of_leaf h]

/-- Settles O25: the table is that of a tree of the symbols counted, and no leaf lies on the way to another. -/
theorem codesArePrefixFree : Obligations.CodesArePrefixFree := by
  unfold Obligations.CodesArePrefixFree
  intro s t u hc hp ht hu
  obtain ⟨h, hTree, hsymbols, hcode⟩ := code_of_counts hc hp ht hu
  rw [hcode]
  refine ⟨fun x => ?domain, hTree.prefixFree, fun x c hx => (hTree.code_length hx).1, hTree.rctLookup_iff_codeOf⟩
  case domain => rw [hTree.codeOf_ne_none, hsymbols.mem_iff, mem_present_leafOrder hc]

/-- Settles O26: a code is no longer than the tree is deep, and the tree has a leaf for each of the at most `NSYM` symbols. -/
theorem codeLengthBound : Obligations.CodeLengthBound := by
  unfold Obligations.CodeLengthBound
  intro s t u hc hp ht hu x c hx
  obtain ⟨h, hTree, hsymbols, hcode⟩ := code_of_counts hc hp ht hu
  rw [hcode] at hx
  have hlen := hTree.code_length hx
  rw [hsymbols.length_eq] at hlen
  have hlt : ∀ y ∈ h.symbols, y < s.cfg.nSym := fun y hy => ((mem_present_leafOrder hc).1 (hsymbols.mem_iff.1 hy)).1
  exact ⟨by omega, by omega, hTree.code_length_le hc hlt hx⟩

/-- Settles O27: by the shape of the tree, a fork having two symbols or more and a leaf just one. -/
theorem treeAndTableAgree : Obligations.TreeAndTableAgree := by
  unfold Obligations.TreeAndTableAgree
  refine ⟨fun cfg node root h hTree => ?_, rfl⟩
  cases h with
  | leaf x w =>
    obtain ⟨hspells, -⟩ := hTree
    have hlen := HuffTree.length_symbols_leaf x w
    exact ⟨by omega, fun _ => rctLookup_of_leaf_iff hspells⟩
  | fork l r =>
    have hlen := HuffTree.two_le_length_symbols_fork l r
    exact ⟨fun _ => hTree.rctLookup_fork_iff_descend, by omega⟩

end Sys2Proof.Machine
end

section
/-! Stages 5 and 6 (44_bit_packer.md): what `ENCODE` answers by the payload of the trimmed text, the layout `PAD` gives that payload, and
that no run meets a symbol without a code. -/

namespace Sys2Proof.Machine

/-! ## What the stages answer (R140, R141, R146) -/

theorem exec_encode_of_le {s : State} {bits : Bits} (h : payload s.code s.trimmedText = some bits)
    (hl : streamLength bits.length ≤ s.cfg.maxBin) :
    exec .encode s = .next { s with enc := bits, payloadLen := bits.length, idx := s.wlen, seq := 6 } := by
  simp only [exec, execEncode, h, if_neg (not_lt.2 hl)]
  rfl

theorem exec_encode_of_lt {s : State} {bits : Bits} (h : payload s.code s.trimmedText = some bits)
    (hl : s.cfg.maxBin < streamLength bits.length) : exec .encode s = .next (s.raise .capacity .encode) := by
  simp only [exec, execEncode, h, if_pos hl]

theorem exec_encode_of_none {s : State} (h : payload s.code s.trimmedText = none) :
    exec .encode s = .next (s.raise .unknownSymbol .encode) := by
  simp only [exec, execEncode, h]

theorem exec_pad (s : State) :
    exec .pad s = .next { s with
      extra := paddingCount s.payloadLen, pad := padded (paddingCount s.payloadLen) s.enc, seq := 7 } := rfl

/-! ## ENCODE (R140, R146) -/

/-- Settles O28: the payload is the codes in order (`payload_forall₂`), and it fits. -/
theorem encodeConcatenatesCodes : Obligations.EncodeConcatenatesCodes := by
  unfold Obligations.EncodeConcatenatesCodes
  intro s cs hcodes hfits
  exact ⟨s.wlen, by rw [exec_encode_of_le (payload_forall₂ hcodes) hfits, List.length_flatten]⟩

/-- Settles O29: the payload is there, and its stream does not fit. -/
theorem encodeRefusesOversizedStream : Obligations.EncodeRefusesOversizedStream := by
  unfold Obligations.EncodeRefusesOversizedStream
  intro s cs hcodes hlong
  rw [exec_encode_of_lt (payload_forall₂ hcodes) hlong, State.raise_of_compress .capacity s rfl]
  rfl

/-- Settles O30: one symbol without a code leaves the text without a payload (`payload_none`), and the length is never looked at. -/
theorem encodeRefusesUnknownSymbol : Obligations.EncodeRefusesUnknownSymbol := by
  unfold Obligations.EncodeRefusesUnknownSymbol
  intro s x hx hnone
  rw [exec_encode_of_none (payload_none hx hnone), State.raise_of_compress .unknownSymbol s rfl]
  rfl

/-! ## PAD (R142, R144) -/

theorem one_le_paddingCount (l : Nat) : 1 ≤ paddingCount l := by
  simp only [paddingCount]; omega

theorem paddingCount_le_eight (l : Nat) : paddingCount l ≤ 8 := Nat.sub_le _ _

/-- A payload of whole bytes still gets a whole byte of padding. -/
theorem paddingCount_of_aligned {l : Nat} (h : l % 8 = 0) : paddingCount l = 8 := by
  rw [paddingCount, h]

theorem length_padded_eq_add (extra : Nat) (enc : Bits) : (padded extra enc).length = 8 + enc.length + extra := by
  simp only [padded, List.length_append, length_bin8, List.length_replicate]

/-- Settles O31: the padding count is 1 to 8, and it fills the payload up to whole bytes (`length_padded`). -/
theorem padAddsHeaderAndZeros : Obligations.PadAddsHeaderAndZeros := by
  unfold Obligations.PadAddsHeaderAndZeros
  intro s
  refine ⟨_, exec_pad s, rfl, paddingCount_of_aligned, one_le_paddingCount _, paddingCount_le_eight _, fun hlen => ?_⟩
  dsimp only
  rw [hlen]
  refine ⟨length_padded_eq_add _ _, length_padded _, ?_⟩
  rw [length_padded, streamLength]
  omega

/-! ## No symbol without a code (R145) -/

/-- A stage leaves `STATUS`, or completes the command, or raises an error it has cause to raise (47_commands.md R175, 60_exceptions.md
R208). -/
theorem StageEnds.status_cases {s t : State} {i : Instr} (h : StageEnds s i t) :
    t.status = s.status ∨ t.status = statusSuccess ∨ ∃ e, Raises s e i ∧ t.status = statusError e (stageId i) := by
  cases h with
  | trim | freq | treeBuild | codeAssign | encode | pad | deserialize | unpad => exact .inl rfl
  | serialize | decode => exact .inr (.inl rfl)
  | error he => exact .inr (.inr ⟨_, he, rfl⟩)

/-- What a turn can make of `STATUS` (10_state.md R23). -/
theorem Turn.status_cases {s t : State} (h : Turn s t) :
    t.status = s.status ∨ t.status ∈ [0, statusRunning, statusSuccess, statusError .illegalCommand 0] ∨
      ∃ e i, s.seq = stageId i ∧ Raises s e i ∧ t.status = statusError e (stageId i) := by
  cases h with
  | wait | writeTxtLen | writeBinLen | writeTxt | writeBin => exact .inl rfl
  | reset | compress | decompress | clear | reject => exact .inr (.inl (by simp))
  | @stage i _ hseq hi he =>
    rcases he.status_cases with hsame | hdone | ⟨e, hraises, herror⟩
    · exact .inl hsame
    · exact .inr (.inl (by simp [hdone]))
    · exact .inr (.inr ⟨e, i, hseq, hraises, herror⟩)

/-- After `CODE_ASSIGN` every symbol of the trimmed text is a leaf of the tree and has a code, so the text has a payload. -/
theorem Assigned.payload_ne_none {s : State} (h : Assigned s) : payload s.code s.trimmedText ≠ none := by
  obtain ⟨-, -, hcode, t, ht, hsymbols⟩ := h
  obtain ⟨cs, hcs⟩ := payload_some (code := s.code) (xs := s.trimmedText) fun x hx => by
    rw [hcode]
    exact (ht.codeOf_ne_none x).2 ((hsymbols x).2 hx)
  rw [payload_forall₂ hcs]
  exact Option.some_ne_none _

/-- No stage has cause to raise `UnknownSymbolError`: only `ENCODE` could, and before it the codes are assigned. -/
theorem CodecInv.not_raises_unknownSymbol {s : State} {i : Instr} (h : CodecInv s) (hseq : s.seq = stageId i) :
    ¬ Raises s .unknownSymbol i
  | .noCode hnone => ((codecInv_encode hseq).1 h).payload_ne_none hnone

/-- `STATUS` names the error: it shows `UnknownSymbolError` for no other one. -/
theorem statusError_ne_unknownSymbol {e : ErrorKind} (he : e ≠ .unknownSymbol) (k : BitVec 4) : statusError e k ≠ 0x0526 := by
  revert k; cases e with
  | unknownSymbol => exact absurd rfl he
  | emptyInput | corruptStream | capacity | illegalCommand => decide

/-- Settles O43: a turn writes a fixed word without that error or one a stage has cause to raise, and none has cause for that error. -/
theorem unknownSymbolNeverReported : Obligations.UnknownSymbolNeverReported := by
  unfold Obligations.UnknownSymbolNeverReported
  intro s t _ hcodec hs hstep
  obtain ⟨host, r, k, hturn⟩ := step_turn hstep
  rcases hturn.status_cases with hsame | hfixed | ⟨e, i, hseq, hraises, herror⟩
  · exact hsame.trans_ne hs
  · have hwords : 0x0526 ∉ [0, statusRunning, statusSuccess, statusError .illegalCommand 0] := by decide
    exact ne_of_mem_of_not_mem hfixed hwords
  · have he : e ≠ .unknownSymbol := by
      rintro rfl
      exact (hcodec.withHost host r k).not_raises_unknownSymbol hseq hraises
    exact herror.trans_ne (statusError_ne_unknownSymbol he _)

end Sys2Proof.Machine
end

section
/-! Stages 7 and 8 (45_byte_serializer.md): what `SERIALIZE` leaves in `BIN`, what `DESERIALIZE` answers by the length of the stream, and
that the two conversions are inverse. -/

namespace Sys2Proof.Machine

/-! ## What the stages answer (R150, R151) -/

/-- A stream that fits `BIN` has a length that fits `BIN_LEN`. -/
theorem exec_serialize_of_le {s : State} (hl : s.pad.length / 8 ≤ s.cfg.maxBin) :
    exec .serialize s = .next { s with
      bin := s.bin.fill s.cfg.maxBin (serializeBits s.pad), binLen := s.pad.length / 8, idx := s.pad.length / 8, status := 0x0002,
      seq := 0 } := by
  simp only [exec, execSerialize, State.setBinLen, truncate_wBLen hl]
  rfl

theorem exec_deserialize_of_le {s : State} (hl : s.binLen ≤ s.cfg.maxBin) :
    exec .deserialize s = .next { s with pad := deserializeBytes s.stream, idx := s.binLen, seq := 9 } := by
  simp only [exec, execDeserialize, if_neg (not_lt.2 hl)]
  rfl

theorem exec_deserialize_of_lt {s : State} (hl : s.cfg.maxBin < s.binLen) :
    exec .deserialize s = .next (s.raise .capacity .deserialize) := by
  simp only [exec, execDeserialize, if_pos hl]

/-! ## SERIALIZE (R150) -/

/-- Eight bits always fit the byte they are written to, so no chunk is cut. -/
theorem toNat_getElem_serializeBits (bits : Bits) {k : Nat} (hk : k < (serializeBits bits).length) :
    (serializeBits bits)[k].toNat = bitsVal ((bits.drop (8 * k)).take 8) := by
  have hbyte : (serializeBits bits)[k] = BitVec.ofNat 8 (bitsVal ((bits.drop (8 * k)).take 8)) :=
    Option.some_injective _ <| (List.getElem?_eq_getElem hk).symm.trans
      (toBytes_getElem _ bits k (by rwa [length_serializeBits] at hk))
  have hfits : bitsVal ((bits.drop (8 * k)).take 8) < 2 ^ 8 :=
    (bitsVal_lt _).trans_le (Nat.pow_le_pow_right (by decide) (List.length_take_le _ _))
  rw [hbyte, BitVec.toNat_ofNat, Nat.mod_eq_of_lt hfits]

/-- What `BIN` reads as after a result was laid in it. -/
theorem binAt_of_fill {s : State} {m : Memory Byte} {n k : Nat} {vs : List Byte} (hbin : s.bin = m.fill n vs) (hn : vs.length ≤ n)
    (hk : k < vs.length) : s.binAt k = vs[k] := by
  rw [State.binAt, hbin, Memory.read_fill _ hn hk]

/-- Settles O32: `BIN` is filled with the chunks' bytes, each of which is its chunk's value, and with nothing behind them. -/
theorem serializeWritesStream : Obligations.SerializeWritesStream := by
  unfold Obligations.SerializeWritesStream
  intro s _ hfits
  have hlen : (serializeBits s.pad).length = s.pad.length / 8 := length_serializeBits s.pad
  refine ⟨_, _, _, rfl, exec_serialize_of_le hfits, ?chunk, ?behind⟩
  case chunk =>
    intro k hk
    rw [← hlen] at hfits hk
    rw [binAt_of_fill rfl hfits hk, toNat_getElem_serializeBits]
  case behind => exact fun k hk => Memory.lookup_fill_of_le (hlen.trans_le hk)

/-! ## The two conversions (R152) -/

theorem deserializeBytes_serializeBits {p : Bits} (h : p.length % 8 = 0) : deserializeBytes (serializeBits p) = p :=
  deserialize_toBytes _ p (Nat.mul_div_cancel' (Nat.dvd_of_mod_eq_zero h)).symm

theorem serializeBits_deserializeBytes (b : List Byte) : serializeBits (deserializeBytes b) = b := by
  rw [serializeBits, length_deserializeBytes, Nat.mul_div_cancel_left _ (by decide), toBytes_deserialize]

/-- Settles O35: on a string of whole bytes no bit is left over, and the string of a byte list is one. -/
theorem serializeDeserializeInverse : Obligations.SerializeDeserializeInverse := by
  unfold Obligations.SerializeDeserializeInverse
  exact ⟨fun _ => deserializeBytes_serializeBits, serializeBits_deserializeBytes⟩

/-! ## DESERIALIZE (R151) -/

/-- The bits of the loaded stream are those of `BIN`'s elements below `BIN_LEN`, in order. -/
theorem deserializeBytes_stream (s : State) :
    deserializeBytes s.stream = ((List.range s.binLen).map (fun k => bin8 (s.binAt k))).flatten := by
  rw [deserializeBytes, State.stream, List.flatMap_map, List.flatMap_def]

/-- Settles O36: the loaded bytes are expanded in order (`deserializeBytes_stream`) unless their number is above the capacity. -/
theorem deserializeExpandsBytes : Obligations.DeserializeExpandsBytes := by
  unfold Obligations.DeserializeExpandsBytes
  intro s
  constructor
  · intro hfits
    exact ⟨s.binLen, by rw [exec_deserialize_of_le hfits, deserializeBytes_stream]⟩
  · intro hlong
    rw [exec_deserialize_of_lt hlong, State.raise_of_decompress .capacity s rfl]
    rfl

end Sys2Proof.Machine
end

section
/-! Stage 9 (46_decoder.md R160, R164): what `UNPAD` answers by the length of `PAD` and what its header says. -/

namespace Sys2Proof.Machine

/-- Neither of the two checks holds where `PAD` is a header, a payload and as many bits as the header says. -/
theorem exec_unpad_of_append {s : State} {header payload padding : Bits} (hpad : s.pad = header ++ payload ++ padding)
    (hlen : header.length = 8) (hval : bitsVal header = padding.length) :
    exec .unpad s = .next { s with extra := padding.length, payloadLen := payload.length, enc := payload, seq := 10 } := by
  rw [List.append_assoc] at hpad
  have htake : s.pad.take 8 = header := by rw [hpad, List.take_left' hlen]
  have hdrop : s.pad.drop 8 = payload ++ padding := by rw [hpad, List.drop_left' hlen]
  have hheader : ¬ s.pad.length < 8 := by rw [hpad, List.length_append]; omega
  have hrest : (payload ++ padding).length - padding.length = payload.length := by rw [List.length_append, Nat.add_sub_cancel]
  have hroom : ¬ (payload ++ padding).length < padding.length := by rw [List.length_append]; omega
  simp only [exec, execUnpad, if_neg hheader, htake, hval, hdrop, if_neg hroom, hrest, List.take_left]
  rfl

theorem exec_unpad_of_short {s : State} (h : s.pad.length < 8) : exec .unpad s = .next (s.raise .corruptStream .unpad) := by
  simp only [exec, execUnpad, if_pos h]

theorem exec_unpad_of_badHeader {s : State} (h : 8 ≤ s.pad.length) (hlong : s.pad.length - 8 < bitsVal (s.pad.take 8)) :
    exec .unpad s = .next (s.raise .corruptStream .unpad) := by
  rw [← List.length_drop] at hlong
  simp only [exec, execUnpad, if_neg (not_lt.2 h), if_pos hlong]

/-- Settles O37: each check raises the one error, and with neither the payload is what lies between header and padding. -/
theorem unpadStripsHeaderAndPadding : Obligations.UnpadStripsHeaderAndPadding := by
  unfold Obligations.UnpadStripsHeaderAndPadding
  intro s
  have hraise : s.raise .corruptStream .unpad = decompressFailed 0x0936 s := State.raise_of_decompress .corruptStream s rfl
  refine ⟨fun hshort => ?short, fun h8 hlong => ?badHeader, fun _ _ _ => exec_unpad_of_append⟩
  case short => rw [exec_unpad_of_short hshort, hraise]
  case badHeader => rw [exec_unpad_of_badHeader h8 hlong, hraise]

end Sys2Proof.Machine
end

section
/-! Stage 10 (46_decoder.md R161, R165, R166): what `DECODE` answers by how reading the payload ends, and how it ends on code words. -/

namespace Sys2Proof.Machine

/-! ## What the stage answers -/

/-- The symbols read are at most `MAX_TXT`, so their number fits `TXT_LEN`. -/
theorem exec_decode_of_text {s : State} {symbols : List Symbol} (h : decodePayload s.code s.cfg.maxTxt s.enc = .text symbols) :
    exec .decode s = .next { s with
      txt := s.txt.fill s.cfg.maxTxt symbols, txtLen := symbols.length, nOut := symbols.length, idx := s.enc.length, cand := [],
      walker := walkerRest s, status := 0x0002, seq := 0 } := by
  have hfits := truncate_wTLen (decodePayload_text h).1
  simp only [exec, execDecode, h, State.setTxtLen, hfits]
  rfl

theorem exec_decode_of_corrupt {s : State} (h : decodePayload s.code s.cfg.maxTxt s.enc = .corrupt) :
    exec .decode s = .next (decompressFailed 0x0A36 s) := by
  simp only [exec, execDecode, h, State.raise_of_decompress .corruptStream s (i := .decode) rfl]
  rfl

theorem exec_decode_of_overflow {s : State} (h : decodePayload s.code s.cfg.maxTxt s.enc = .overflow) :
    exec .decode s = .next (decompressFailed 0x0A56 s) := by
  simp only [exec, execDecode, h, State.raise_of_decompress .capacity s (i := .decode) rfl]
  rfl

/-- What `TXT` reads as after a result was laid in it, where the symbol has `W_SYM` bits. -/
theorem txtAt_of_fill {s : State} {m : Memory Symbol} {n k : Nat} {vs : List Symbol} (htxt : s.txt = m.fill n vs) (hn : vs.length ≤ n)
    (hk : k < vs.length) (hv : vs[k] < s.cfg.nSym) : s.txtAt k = vs[k] := by
  rw [State.txtAt, htxt, Memory.read_fill _ hn hk, truncate_of_lt hv]

/-! ## How the reading ends -/

section
variable {code : CodeTable} {cs : List Bits} {symbols : List Symbol} {maxTxt : Nat}

/-- The code words at the start of a payload are read off it, and reading goes on behind them unless they are too many. -/
theorem decodePayload_of_recovers (h : Recovers code cs symbols) (hne : ∀ c ∈ cs, c ≠ []) (rest : Bits) :
    decodePayload code maxTxt (cs.flatten ++ rest) =
      if symbols.length ≤ maxTxt then decodeLoop code maxTxt rest [] symbols else .overflow := by
  rw [decodePayload, decodeLoop_recovers code maxTxt h hne rest [] (Nat.zero_le _), List.length_nil, Nat.zero_add, List.nil_append]

theorem decodePayload_flatten (h : Recovers code cs symbols) (hne : ∀ c ∈ cs, c ≠ []) (hlen : symbols.length ≤ maxTxt) :
    decodePayload code maxTxt cs.flatten = .text symbols := by
  have hread := decodePayload_of_recovers (maxTxt := maxTxt) h hne []
  rwa [List.append_nil, if_pos hlen, decodeLoop, if_pos rfl] at hread

/-- No candidate ever matches in the empty table, so each bit stays in it. -/
theorem decodePayload_nil (maxTxt : Nat) (enc : Bits) :
    decodePayload [] maxTxt enc = if enc = [] then .text [] else .corrupt := by
  rcases eq_or_ne enc [] with rfl | henc
  · rfl
  · rw [if_neg henc]
    exact decodeLoop_rest [] maxTxt enc [] [] henc fun p _ _ => rctLookup_nil _

end

/-! ## The obligations -/

/-- Settles O38: the code words are read off first (`decodePayload_of_recovers`); then the payload ends, or a rest stays in the
candidate (`decodeLoop_rest`), or the buffer was too small already. -/
theorem decodeReadsCodeWords : Obligations.DecodeReadsCodeWords := by
  unfold Obligations.DecodeReadsCodeWords
  intro s cs symbols rest hrecovers henc hne
  have hread := decodePayload_of_recovers (maxTxt := s.cfg.maxTxt) hrecovers hne rest
  rw [← henc] at hread
  refine ⟨fun hlen hrest => ?text, fun hlen hrest hnone => ?corrupt, fun hlen => ?overflow⟩
  case text =>
    rw [if_pos hlen, hrest, decodeLoop, if_pos rfl] at hread
    exact ⟨_, _, _, _, rfl, exec_decode_of_text hread, fun k hk hv => txtAt_of_fill rfl hlen hk hv,
      fun k hk => Memory.lookup_fill_of_le hk⟩
  case corrupt =>
    rw [if_pos hlen, decodeLoop_rest s.code _ rest [] symbols hrest hnone] at hread
    exact exec_decode_of_corrupt hread
  case overflow =>
    rw [if_neg (by omega)] at hread
    exact exec_decode_of_overflow hread

/-- Settles O39: in the empty table nothing is read off (`decodePayload_nil`), so the text is empty or the payload stays in the
candidate. -/
theorem emptyTableDecodesNothing : Obligations.EmptyTableDecodesNothing := by
  unfold Obligations.EmptyTableDecodesNothing
  intro s hcode
  have hread := decodePayload_nil s.cfg.maxTxt s.enc
  rw [← hcode] at hread
  constructor
  · intro henc
    rw [if_neg henc] at hread
    exact exec_decode_of_corrupt hread
  · intro henc
    rw [if_pos henc] at hread
    exact ⟨_, _, _, exec_decode_of_text hread, fun k => Memory.lookup_fill_of_le (Nat.zero_le k)⟩

end Sys2Proof.Machine
end

section
/-! The trie walker (46_decoder.md R162): where it stands after a candidate, and that it emits, dies and ends as the table does. -/

namespace Sys2Proof.Machine

/-! ## The one-symbol table -/

/-- A dead walker stays dead. -/
theorem walkLeaf_dead (d : Bit) (x : Symbol) (maxTxt : Nat) (bits : Bits) (out : List Symbol) :
    walkLeaf d x maxTxt bits true out = .corrupt := by
  induction bits with
  | nil => rfl
  | cons b bs ih => exact ih

/-- The walker of one symbol is alive while the candidate is empty; the wrong bit leaves a candidate that no longer matches. -/
theorem walkLeaf_eq_decodeLoop (d : Bit) (x : Symbol) (maxTxt : Nat) (bits : Bits) (out : List Symbol) :
    walkLeaf d x maxTxt bits false out = decodeLoop [(x, [d])] maxTxt bits [] out := by
  induction bits generalizing out with
  | nil => rfl
  | cons b bs ih =>
    rw [walkLeaf, decodeLoop]
    rcases eq_or_ne b d with rfl | hb
    · have hmatch : rctLookup [(x, [b])] ([] ++ [b]) = some x := by simp [rctLookup]
      simp only [hmatch, ih, Bool.not_false, beq_self_eq_true, Bool.and_self, if_true]
    · have hmiss : ∀ p : Bits, rctLookup [(x, [d])] (b :: p) = none := fun p => by
        rw [rctLookup_eq_none_iff]
        simp [hb.symm]
      have hdead : decodeLoop [(x, [d])] maxTxt bs [b] out = .corrupt :=
        decodeLoop_rest _ maxTxt bs [b] out (by simp) fun p _ _ => hmiss p
      simp only [List.nil_append, hmiss, hdead, walkLeaf_dead, beq_false_of_ne hb, Bool.and_false, Bool.false_eq_true, if_false]

/-! ## The nodes on the way to a leaf -/

section
variable {node : List Node} {root : Nat}

/-- Node memory spells at most one tree at an index. -/
theorem Spells.unique {i : Nat} {t u : HuffTree} (ht : Spells node i t) (hu : Spells node i u) : t = u := by
  induction t generalizing i u with
  | leaf x w =>
    cases u with
    | leaf y v =>
      have h := ht.symm.trans hu
      simp only [Option.some.injEq, Node.leaf.injEq] at h
      rw [h.1, h.2]
    | fork l r =>
      obtain ⟨a, b, hi, -⟩ := hu
      exact absurd (ht.symm.trans hi) (by simp)
  | fork l r ihl ihr =>
    obtain ⟨a, b, hi, hl, hr⟩ := ht
    cases u with
    | leaf y v => exact absurd (hi.symm.trans hu) (by simp)
    | fork l' r' =>
      obtain ⟨a', b', hi', hl', hr'⟩ := hu
      have h := hi.symm.trans hi'
      simp only [Option.some.injEq, Node.internal.injEq] at h
      obtain ⟨-, rfl, rfl⟩ := h
      rw [ihl hl hl', ihr hr hr']

/-- Following bits from a spelled tree leads to a spelled tree that is less deep by their number. -/
theorem Spells.of_descend {i p : Nat} {t : HuffTree} {c : Bits} (ht : Spells node i t) (hp : Machine.descend node i c = some p) :
    ∃ q, Spells node p q ∧ c.length + q.depth ≤ t.depth := by
  induction c generalizing i t with
  | nil =>
    cases hp
    exact ⟨t, ht, by simp⟩
  | cons b bs ih =>
    cases t with
    | leaf x w =>
      simp only [Spells] at ht
      simp [Machine.descend, ht] at hp
    | fork l r =>
      obtain ⟨a, a', hi, hl, hr⟩ := ht
      simp only [Machine.descend, hi] at hp
      have hchild : ∃ u, Spells node (if b then a' else a) u ∧ u.depth < (HuffTree.fork l r).depth := by
        cases b with
        | false => exact ⟨l, hl, by simp only [HuffTree.depth]; omega⟩
        | true => exact ⟨r, hr, by simp only [HuffTree.depth]; omega⟩
      obtain ⟨u, hu, hdepth⟩ := hchild
      obtain ⟨q, hq, hle⟩ := ih hu hp
      exact ⟨q, hq, by rw [List.length_cons]; omega⟩

/-- In a tree only the empty path leads back to its root. -/
theorem Spells.descend_eq_self_iff {t : HuffTree} {p : Nat} {c : Bits} (ht : Spells node root t)
    (hp : Machine.descend node root c = some p) : p = root ↔ c = [] := by
  constructor
  · rintro rfl
    obtain ⟨q, hq, hdepth⟩ := ht.of_descend hp
    rw [ht.unique hq] at hdepth
    exact List.length_eq_zero_iff.1 (by omega)
  · rintro rfl
    cases hp
    rfl

/-- One more bit leads from an internal node to its child. -/
theorem descend_append_singleton {i p w l r : Nat} {c : Bits} (hp : descend node i c = some p)
    (hn : node[p]? = some (.internal w l r)) (b : Bit) : descend node i (c ++ [b]) = some (if b then r else l) := by
  induction c generalizing i with
  | nil =>
    cases hp
    simp only [List.nil_append, descend, hn]
  | cons d ds ih =>
    simp only [List.cons_append, descend] at hp ⊢
    split at hp
    · exact ih hp
    · cases hp

/-! ## The tree with an internal root -/

variable {cfg : Config} {l r : HuffTree}

/-- The candidate that leads to a leaf is that leaf's code. -/
theorem IsTree.rctLookup_of_leaf (h : IsTree node root (.fork l r)) {c : Bits} {p w : Nat} {x : Symbol}
    (hp : descend node root c = some p) (hn : node[p]? = some (.leaf x w)) :
    rctLookup (codeTable cfg.degenCode node root) c = some x :=
  (h.rctLookup_fork_iff_descend c x).2 ⟨p, w, hp, hn⟩

/-- The candidate that leads to an internal node is no code. -/
theorem IsTree.rctLookup_of_internal (h : IsTree node root (.fork l r)) {c : Bits} {p w a b : Nat}
    (hp : descend node root c = some p) (hn : node[p]? = some (.internal w a b)) :
    rctLookup (codeTable cfg.degenCode node root) c = none := by
  refine Option.eq_none_iff_forall_ne_some.2 fun x hx => ?_
  obtain ⟨i, v, hi, hleaf⟩ := (h.rctLookup_fork_iff_descend c x).1 hx
  rw [hp, Option.some.injEq] at hi
  subst hi
  exact absurd (hn.symm.trans hleaf) (by simp)

/-- The walker stands on the internal node to which the candidate leads from `ROOT`. -/
theorem IsTree.walkTree_eq_decodeLoop (h : IsTree node root (.fork l r)) (maxTxt : Nat) (bits cand : Bits) {p w a b : Nat}
    (out : List Symbol) (hp : descend node root cand = some p) (hn : node[p]? = some (.internal w a b)) :
    walkTree node root maxTxt bits p out = decodeLoop (codeTable cfg.degenCode node root) maxTxt bits cand out := by
  have ⟨hspells, _⟩ := h
  induction bits generalizing cand p w a b out with
  | nil => simp only [walkTree, decodeLoop, hspells.descend_eq_self_iff hp]
  | cons d ds ih =>
    have hchild := descend_append_singleton hp hn d
    obtain ⟨q, hq, -⟩ := hspells.of_descend hchild
    rw [walkTree, decodeLoop, hn]
    cases q with
    | leaf x v =>
      obtain ⟨_, _, hroot, -⟩ := hspells
      simp only [Spells] at hq
      simp only [hq, h.rctLookup_of_leaf hchild hq, ih [] _ rfl hroot]
    | fork l' r' =>
      obtain ⟨_, _, hq, -, -⟩ := hq
      simp only [hq, h.rctLookup_of_internal hchild hq, ih _ _ hchild hq]

end

/-! ## The whole walk -/

/-- The walk over a kept tree ends as reading with its table, by the shape of the tree. -/
theorem IsTree.walkPayload_eq_decodePayload {cfg : Config} {node : List Node} {root : Nat} {t : HuffTree} (h : IsTree node root t)
    (maxTxt : Nat) (enc : Bits) :
    walkPayload cfg.degenBit node root maxTxt enc = decodePayload (codeTable cfg.degenCode node root) maxTxt enc := by
  have hne : ¬ node.length = 0 := Nat.ne_zero_of_lt h.root_lt
  have ⟨hspells, _⟩ := h
  rw [walkPayload, decodePayload, if_neg hne]
  cases t with
  | leaf x w =>
    simp only [Spells] at hspells
    simp only [hspells, walkLeaf_eq_decodeLoop, codeTable_of_leaf hspells]
    rfl
  | fork l r =>
    obtain ⟨_, _, hroot, -⟩ := hspells
    simp only [hroot]
    exact h.walkTree_eq_decodeLoop maxTxt enc [] [] rfl hroot

/-! ## The obligation -/

/-- Settles O40: the codec state is empty, and nothing is read off, or it is a tree beside its table. -/
theorem trieWalkerRefinesTable : Obligations.TrieWalkerRefinesTable := by
  unfold Obligations.TrieWalkerRefinesTable
  rintro s enc maxTxt (⟨hcode, hnode⟩ | ⟨t, ht, hcode⟩)
  · rw [hcode, hnode, decodePayload_nil]
    rfl
  · rw [hcode]
    exact ht.walkPayload_eq_decodePayload maxTxt enc

end Sys2Proof.Machine
end

section
/-! The inverse law (46_decoder.md R168): a padded payload is unpadded again, and the codes of a text are read off its payload. -/

namespace Sys2Proof.Machine

/-! ## The table of a text -/

/-- A text none of whose symbols is counted gets the empty table. -/
theorem codeTableOf_of_absent {c : Config} {text : List Symbol} (h : present c.leafOrder (countSymbols c.nSym text) = []) :
    codeTableOf c text = [] := by
  simp only [codeTableOf, builtTree, loadedLeaves_eq, h]
  rfl

/-- A text with a symbol that is counted gets the table of a tree of symbol values. -/
theorem codeTableOf_of_present {c : Config} {text : List Symbol} (hc : c.wellFormed = true)
    (h : present c.leafOrder (countSymbols c.nSym text) ≠ []) :
    ∃ node root t, IsTree node root t ∧ codeTableOf c text = codeTable c.degenCode node root ∧ ∀ x ∈ t.symbols, x < c.nSym := by
  obtain ⟨root, t, hpq, ht, hleaves, -⟩ := builtTree_spec 0 0 (nodup_present hc _) h
  refine ⟨_, root, t, ht, ?table, fun x hx => ?symbols⟩
  case table => simp only [codeTableOf, hpq, List.headD_cons]
  case symbols => exact ((mem_present_leafOrder hc).1 ((symbols_perm hleaves).mem_iff.1 hx)).1

/-! ## The payload of a text -/

/-- A text has a payload only where each symbol has a code. -/
theorem codeOf_ne_none_of_payload {code : CodeTable} {text : List Symbol} {bits : Bits} (h : payload code text = some bits) :
    ∀ x ∈ text, codeOf code x ≠ none := by
  intro x hx hnone
  rw [payload_none hx hnone] at h
  cases h

/-- The payload of a text is the codes of its symbols in order. -/
theorem exists_codes_of_payload {code : CodeTable} {text : List Symbol} {bits : Bits} (h : payload code text = some bits) :
    ∃ cs, List.Forall₂ (fun x c => codeOf code x = some c) text cs ∧ bits = cs.flatten := by
  obtain ⟨cs, hcs⟩ := payload_some (codeOf_ne_none_of_payload h)
  rw [payload_forall₂ hcs, Option.some.injEq] at h
  exact ⟨cs, hcs, h.symm⟩

section
variable {cfg : Config} {node : List Node} {root : Nat} {t : HuffTree} {text : List Symbol}

/-- With the table of a tree the codes of a text are read off again, since no code is a prefix of another (R134). -/
theorem IsTree.recovers (ht : IsTree node root t) {cs : List Bits}
    (hcs : List.Forall₂ (fun x c => codeOf (codeTable cfg.degenCode node root) x = some c) text cs) :
    (∀ c ∈ cs, c ≠ []) ∧ Recovers (codeTable cfg.degenCode node root) cs text := by
  have ⟨_, hnodup, _⟩ := ht
  refine (List.forall₂_and_left cs text).1 (List.Forall₂.flip (hcs.imp fun x c hx => ⟨?nonempty, ?inverse, fun p _ hpre hne => ?shorter⟩))
  case nonempty => exact List.length_pos_iff.1 (ht.code_length hx).1
  case inverse => exact (ht.rctLookup_iff_codeOf x c).2 hx
  case shorter =>
    refine Option.eq_none_iff_forall_ne_some.2 fun y hy => hne ?_
    exact (HuffTree.codes_prefix t hnodup ((ht.rct_iff y p).1 hy) ((ht.codeOf_iff x c).1 hx) hpre).2

/-- Reading the payload of a text with the table of a tree gives the text. -/
theorem IsTree.decodePayload_of_payload (ht : IsTree node root t) {bits : Bits} {maxTxt : Nat}
    (h : payload (codeTable cfg.degenCode node root) text = some bits) (hlen : text.length ≤ maxTxt) :
    decodePayload (codeTable cfg.degenCode node root) maxTxt bits = .text text := by
  obtain ⟨cs, hcs, rfl⟩ := exists_codes_of_payload h
  obtain ⟨hne, hrecovers⟩ := ht.recovers hcs
  exact decodePayload_flatten hrecovers hne hlen

end

/-- The table `COMPRESS` builds for a text gives the text back from its payload, and its symbols are symbol values. -/
theorem decodePayload_codeTableOf {c : Config} {text : List Symbol} {bits : Bits} {maxTxt : Nat} (hc : c.wellFormed = true)
    (hne : text ≠ []) (hlen : text.length ≤ maxTxt) (h : payload (codeTableOf c text) text = some bits) :
    decodePayload (codeTableOf c text) maxTxt bits = .text text ∧ ∀ x ∈ text, x < c.nSym := by
  have hcoded := codeOf_ne_none_of_payload h
  have hp : present c.leafOrder (countSymbols c.nSym text) ≠ [] := by
    intro habsent
    obtain ⟨x, hx⟩ := List.exists_mem_of_ne_nil _ hne
    exact hcoded x hx (by rw [codeTableOf_of_absent habsent, codeOf_nil])
  obtain ⟨node, root, t, ht, hcode, hsymbols⟩ := codeTableOf_of_present hc hp
  rw [hcode] at h hcoded ⊢
  exact ⟨ht.decodePayload_of_payload h hlen, fun x hx => hsymbols x ((ht.codeOf_ne_none x).1 (hcoded x hx))⟩

/-! ## The header -/

/-- The header `PAD` writes says how many zeros it appends: at most 8 of them, so the byte holds their number. -/
theorem bitsVal_paddingHeader (l : Nat) : bitsVal (bin8 (BitVec.ofNat 8 (paddingCount l))) = paddingCount l := by
  have hle := paddingCount_le_eight l
  rw [bitsVal_bin8, BitVec.toNat_ofNat, Nat.mod_eq_of_lt (by omega)]

/-! ## The obligation -/

/-- Settles O41: what `PAD` made is a header, the payload and as many bits as the header says (`exec_unpad_of_append`), and the
payload of a text is read back with the text's own table (`decodePayload_codeTableOf`). -/
theorem decodeInvertsEncode : Obligations.DecodeInvertsEncode := by
  unfold Obligations.DecodeInvertsEncode
  refine ⟨fun s t v hlen hpad hv => ?unpad, fun s text hc hne hfits hcode hpayload => ?decode⟩
  case unpad =>
    rw [exec_pad] at hpad
    cases hpad
    have hzeros := (bitsVal_paddingHeader s.payloadLen).trans (List.length_replicate (a := false)).symm
    rw [exec_unpad_of_append hv (length_bin8 _) hzeros, List.length_replicate, hlen, paddingCount]
  case decode =>
    rw [hcode] at hpayload
    obtain ⟨hread, hsymbols⟩ := decodePayload_codeTableOf hc hne hfits hpayload
    rw [← hcode] at hread
    exact ⟨_, exec_decode_of_text hread, text_of_fill rfl rfl hfits hsymbols, rfl⟩

end Sys2Proof.Machine
end

section
/-! What a step runs (30_encoding.md, 47_commands.md section 1): what `fetch` finds by the host's next action and by the sequencer's
value, and what the step makes of it. -/

namespace Sys2Proof.Machine

/-! ## From `fetch` to the step -/

theorem step_of_run {s u : State} {i : Instr} (h : fetch s = .run i u) : step s = exec i u := by rw [step, h]

theorem step_of_done {s u : State} (h : fetch s = .done u) : step s = .next u := by rw [step, h]

theorem step_of_stuck {s : State} {k : BitVec 4} (h : fetch s = .stuck k) : step s = .fault (.illegalStage k) := by rw [step, h]

/-! ## The core's turn -/

theorem coreTurn_of_zero {s : State} (h : s.seq = 0) : coreTurn s = .done s := if_pos h

theorem coreTurn_of_ge {s : State} (h : 11 ≤ s.seq.toNat) : coreTurn s = .stuck s.seq := by
  have hne : s.seq ≠ 0 := fun hzero => by rw [hzero] at h; exact absurd h (by decide)
  rw [coreTurn, if_neg hne, decodeStage_error_of_le _ h]

/-- The ids up to 10 are no stage or one that runs (R73). -/
theorem coreTurn_ne_stuck {s : State} (h : s.seq.toNat ≤ 10) (k : BitVec 4) : coreTurn s ≠ .stuck k := by
  obtain hzero | hzero := eq_or_ne s.seq 0
  · rw [coreTurn_of_zero hzero]; nofun
  · obtain ⟨i, hi⟩ := decodeStage_ok_of_le _ hzero h
    rw [coreTurn_of_decode hi]; nofun

/-! ## Whose turn it is -/

section
variable {s : State} {rest : List HostAction}

theorem fetch_nil (h : s.host = []) : fetch s = coreTurn s := by rw [fetch, h]

theorem fetch_idle (h : s.host = .idle :: rest) : fetch s = coreTurn { s with host := rest } := by rw [fetch, h]; rfl

theorem fetch_poll_waiting (h : s.host = .pollDone :: rest) (hd : s.done = false) : fetch s = coreTurn s := by
  simp only [fetch, h, hd, Bool.false_eq_true, if_false]

theorem fetch_poll_done (h : s.host = .pollDone :: rest) (hd : s.done = true) :
    fetch s = .done { s with host := rest, readData := s.status.toNat } := by
  simp only [fetch, h, hd, if_true]
  rfl

theorem fetch_cmdWrite {v : Nat} (h : s.host = .csrWrite 0 v :: rest) : fetch s = writeCmd v { s with host := rest } := by
  rw [fetch, h]; rfl

theorem fetch_reset (h : s.host = .reset :: rest) : fetch s = .done ({ s with host := rest } : State).applyReset := by
  rw [fetch, h]; rfl

end

theorem writeCmd_of_ok {v : Nat} {i : Instr} (s : State) (h : decodeCmd (BitVec.ofNat 8 v) = .ok i) : writeCmd v s = .run i s := by
  rw [writeCmd, h]

theorem writeCmd_of_error {v : Nat} {e : DecodeError} (s : State) (h : decodeCmd (BitVec.ofNat 8 v) = .error e) :
    writeCmd v s = .done (s.issue State.rejectCommand) := by
  rw [writeCmd, h]

/-- A host action stops nothing, unless it lets the core have its turn. -/
theorem hostTurn_ne_stuck {s : State} (h : s.seq.toNat ≤ 10) (a : HostAction) (rest : List HostAction) (k : BitVec 4) :
    hostTurn a { s with host := rest } ≠ .stuck k := by
  match a with
  | .idle => exact coreTurn_ne_stuck (s := { s with host := rest }) h k
  | .csrWrite 0 v =>
    cases hd : decodeCmd (BitVec.ofNat 8 v) with
    | ok i => exact (writeCmd_of_ok _ hd).trans_ne nofun
    | error e => exact (writeCmd_of_error _ hd).trans_ne nofun
  | .csrWrite (n + 1) v | .csrRead n | .memRead space i | .memWrite space i v | .pollDone | .reset => nofun

theorem fetch_ne_stuck {s : State} (h : s.seq.toNat ≤ 10) (k : BitVec 4) : fetch s ≠ .stuck k := by
  unfold fetch
  split
  · exact coreTurn_ne_stuck h k
  · split
    · exact hostTurn_ne_stuck h .pollDone _ k
    · exact coreTurn_ne_stuck h k
  · exact hostTurn_ne_stuck h _ _ k

/-! ## The obligations -/

/-- Settles O4: a `CMD` write that decodes is fetched as its instruction. -/
theorem stepRunsWrittenCommand : Obligations.StepRunsWrittenCommand := by
  unfold Obligations.StepRunsWrittenCommand
  exact fun s rest v i h hd => step_of_run ((fetch_cmdWrite h).trans (writeCmd_of_ok _ hd))

/-- Settles O5: in each of the three turns `fetch` comes to the core's turn, which runs the stage. -/
theorem stepRunsSequencedStage : Obligations.StepRunsSequencedStage := by
  unfold Obligations.StepRunsSequencedStage
  intro s i hd
  refine ⟨fun h => ?none, fun rest h => ?idle, fun rest h hdone => ?poll⟩
  case none => exact step_of_run ((fetch_nil h).trans (coreTurn_of_decode hd))
  case idle => exact step_of_run ((fetch_idle h).trans (coreTurn_of_decode hd))
  case poll => exact step_of_run ((fetch_poll_waiting h hdone).trans (coreTurn_of_decode hd))

/-- Settles O6: the core's turn with no stage in the sequencer is over at once, and a poll that finds `DONE` is a read. -/
theorem idleCoreWaits : Obligations.IdleCoreWaits := by
  unfold Obligations.IdleCoreWaits
  intro s hs
  refine ⟨fun h => ?none, fun rest h => ?idle, fun rest h hdone => ?waiting, fun rest h hdone => ?done⟩
  case none => exact step_of_done ((fetch_nil h).trans (coreTurn_of_zero hs))
  case idle => exact step_of_done ((fetch_idle h).trans (coreTurn_of_zero hs))
  case waiting => exact step_of_done ((fetch_poll_waiting h hdone).trans (coreTurn_of_zero hs))
  case done => exact step_of_done (fetch_poll_done h hdone)

/-- Settles O7: by what `fetch` finds; an instruction answers a next state (`exec_next`), and the core's turn is the only way to stop. -/
theorem stepStopsOnlyOnStageNeverProduced : Obligations.StepStopsOnlyOnStageNeverProduced := by
  unfold Obligations.StepStopsOnlyOnStageNeverProduced
  refine ⟨fun s hle => ?next, fun s hge h => ?fault, fun s r => ?refused⟩
  case next =>
    cases hf : fetch s with
    | run i u => rw [step_of_run hf]; exact exec_next i u
    | done u => exact ⟨u, step_of_done hf⟩
    | stuck k => exact absurd hf (fetch_ne_stuck hle k)
  case fault => exact step_of_stuck ((fetch_nil h).trans (coreTurn_of_ge hge))
  case refused =>
    cases hf : fetch s with
    | run i u =>
      obtain ⟨t, ht⟩ := exec_next i u
      rw [step_of_run hf, ht]; nofun
    | done u => rw [step_of_done hf]; nofun
    | stuck k => rw [step_of_stuck hf]; nofun

/-- Settles O49: the next state is `State.applyReset`, which empties every register named. -/
theorem resetAbortsCommand : Obligations.ResetAbortsCommand := by
  unfold Obligations.ResetAbortsCommand
  intro s rest h
  exact ⟨_, step_of_done (fetch_reset h), rfl, rfl, rfl, rfl, rctLookup_nil, rfl, rfl, fun _ => rfl, fun _ => rfl, rfl, rfl, rfl, rfl⟩

end Sys2Proof.Machine
end

section
/-! The acceptance of the commands (47_commands.md sections 1 and 2): what a `CMD` write does, by whether the core is idle. -/

namespace Sys2Proof.Machine

/-! ## On an idle core -/

theorem exec_compress_idle {s : State} (h : s.busy = false) : exec .compress s = .next (s.clearForCompress.start .trim) :=
  congrArg Host.Outcome.next (State.issue_idle _ h)

theorem exec_decompress_idle {s : State} (h : s.busy = false) : exec .decompress s = .next (s.start .deserialize) :=
  congrArg Host.Outcome.next (State.issue_idle _ h)

theorem exec_clear_idle {s : State} (h : s.busy = false) : exec .clear s = .next s.clearCodec.succeed :=
  congrArg Host.Outcome.next (State.issue_idle _ h)

/-- A value of 8 bits other than 1, 2 and 3 is no opcode (R72). -/
theorem decodeCmd_ofNat_error {v : Nat} (hv : v < 2 ^ 8) (h1 : v ≠ 1) (h2 : v ≠ 2) (h3 : v ≠ 3) :
    decodeCmd (BitVec.ofNat 8 v) = .error (.illegalOpcode (BitVec.ofNat 8 v)) := by
  refine decodeCmd_error_of_not_wellFormed (Bool.eq_false_iff.2 fun hwf => ?_)
  rcases cmd8_wellFormed_iff.1 hwf with h | h | h <;> bv_omega

/-! ## The obligations -/

/-- Settles O8: a command's action is not taken while busy, and neither is the rejection of an illegal one. -/
theorem busyCommandWriteIgnored : Obligations.BusyCommandWriteIgnored := by
  unfold Obligations.BusyCommandWriteIgnored
  exact fun s hb => ⟨fun _ hi => exec_command_busy hi hb, fun _ _ => step_cmdWrite_busy hb⟩

/-- Settles O9: on an idle core a command is its action, and both actions are a start. -/
theorem commandsAcceptedWhenIdle : Obligations.CommandsAcceptedWhenIdle := by
  unfold Obligations.CommandsAcceptedWhenIdle
  exact fun s hb => ⟨exec_compress_idle hb, exec_decompress_idle hb⟩

/-- Settles O10: on an idle core `CLEAR` is its action, the clearing and the completion. -/
theorem clearEmptiesCodecState : Obligations.ClearEmptiesCodecState := by
  unfold Obligations.ClearEmptiesCodecState
  exact fun s hb => exec_clear_idle hb

/-- Settles O11: the value does not decode, and on an idle core the rejection writes `STATUS` alone. -/
theorem illegalCommandChangesStatusOnly : Obligations.IllegalCommandChangesStatusOnly := by
  unfold Obligations.IllegalCommandChangesStatusOnly
  intro s rest v h hb hv h1 h2 h3
  have hfetch := (fetch_cmdWrite h).trans (writeCmd_of_error _ (decodeCmd_ofNat_error hv h1 h2 h3))
  rw [State.issue_idle (s := { s with host := rest }) _ hb] at hfetch
  exact step_of_done hfetch

end Sys2Proof.Machine
end

section
/-! How a running command ends (60_exceptions.md, 47_commands.md R175, R176, R180): the errors of each stage, what may change `CODE`, and
that the sequencer comes to the last stage. -/

namespace Sys2Proof.Machine

/-! ## Errors (60_exceptions.md R200, R207, R208) -/

/-- Success leaves `BUSY = 0`, `DONE = 1`, `ERR = 0` (47_commands.md R175). -/
theorem State.succeed_flags (s : State) : s.succeed.busy = false ∧ s.succeed.done = true ∧ s.succeed.err = false := by
  obtain ⟨hbusy, hdone, herr, -⟩ := packStatus_fields false true false 0 0
  exact ⟨hbusy, hdone, herr⟩

/-- A stage that sets `ERR` has raised an error it has cause to raise. -/
theorem StageEnds.raised {s t : State} {i : Instr} (h : StageEnds s i t) (hs : s.err = false) (ht : t.err = true) :
    ∃ e, Raises s e i ∧ t = s.raise e i := by
  have off : t.err = false → ∃ e, Raises s e i ∧ t = s.raise e i := fun h => absurd (h.symm.trans ht) (by decide)
  cases h with
  | trim | freq | treeBuild | codeAssign | encode | pad | deserialize | unpad => exact off hs
  | serialize | decode => exact off (State.succeed_flags _).2.2
  | error he => exact ⟨_, he, rfl⟩

/-- An error in a stage of `COMPRESS`: its number, the stage's, and what it leaves. -/
theorem raise_compress_fields {s : State} {i : Instr} (e : ErrorKind) (hi : ofCompress i = true) :
    (s.raise e i).errCode = e.code ∧ (s.raise e i).errStage = stageId i ∧
      s.raise e i = compressFailed (statusError e (stageId i)) s := by
  obtain ⟨-, -, -, hcode, hstage⟩ := statusError_fields e (stageId i) (s.raise e i) rfl
  exact ⟨hcode, hstage, State.raise_of_compress e s hi⟩

/-- An error in a stage of `DECOMPRESS`: its number, the stage's, and what it leaves. -/
theorem raise_decompress_fields {s : State} {i : Instr} (e : ErrorKind) (hi : ofCompress i = false) :
    (s.raise e i).errCode = e.code ∧ (s.raise e i).errStage = stageId i ∧
      s.raise e i = decompressFailed (statusError e (stageId i)) s := by
  obtain ⟨-, -, -, hcode, hstage⟩ := statusError_fields e (stageId i) (s.raise e i) rfl
  exact ⟨hcode, hstage, State.raise_of_decompress e s hi⟩

/-- Settles O42: a stage of a running command that leaves `ERR` set has raised one of its own errors (`Raises`). -/
theorem errorEndsCommand : Obligations.ErrorEndsCommand := by
  unfold Obligations.ErrorEndsCommand
  intro s t hs ht
  have herr : s.err = false := by rw [State.err, hs]; decide
  have raised : ∀ {i}, i.isCommand = false → exec i s = .next t → ∃ e, Raises s e i ∧ t = s.raise e i :=
    fun hi h => (exec_stage_ends hi h).raised herr ht
  refine ⟨fun h => ?trim, fun h => ?treeBuild, fun h => ?encode, fun h => ?deserialize, fun h => ?unpad, fun h => ?decode,
    fun i hi h => ?none⟩
  case trim =>
    obtain ⟨e, ⟨⟩, rfl⟩ := raised rfl h
    exact raise_compress_fields .capacity rfl
  case treeBuild =>
    obtain ⟨e, ⟨⟩, rfl⟩ := raised rfl h
    exact raise_compress_fields .emptyInput rfl
  case encode =>
    obtain ⟨e, hraises, rfl⟩ := raised rfl h
    cases hraises with
    | noCode => exact .inl (raise_compress_fields .unknownSymbol rfl)
    | streamTooLong => exact .inr (raise_compress_fields .capacity rfl)
  case deserialize =>
    obtain ⟨e, ⟨⟩, rfl⟩ := raised rfl h
    exact raise_decompress_fields .capacity rfl
  case unpad =>
    obtain ⟨e, hraises, rfl⟩ := raised rfl h
    cases hraises with
    | noHeader | badHeader => exact raise_decompress_fields .corruptStream rfl
  case decode =>
    obtain ⟨e, hraises, rfl⟩ := raised rfl h
    cases hraises with
    | leftOver => exact .inl (raise_decompress_fields .corruptStream rfl)
    | outOfRoom => exact .inr (raise_decompress_fields .capacity rfl)
  case none =>
    rcases hi with rfl | rfl | rfl | rfl <;> obtain ⟨e, ⟨⟩, -⟩ := raised rfl h

/-! ## What changes `CODE` (47_commands.md R180) -/

/-- The sequencer holds a stage of `COMPRESS` where the core's own turn changes `CODE`. -/
theorem seq_of_stage_changes_code {s t : State} {i : Instr} (hd : decodeStage s.seq = .ok i) (h : exec i s = .next t)
    (hc : t.code ≠ s.code) : 1 ≤ s.seq.toNat ∧ s.seq.toNat ≤ 7 := by
  obtain ⟨hi, hseq⟩ := decodeStage_isCommand hd
  have hcompress : ofCompress i = true := by
    by_contra hne
    obtain ⟨-, -, hsame, -⟩ := (exec_stage_ends hi h).stream_codec_of_decompress (Bool.eq_false_iff.2 hne)
    exact hc hsame
  rw [hseq]
  simpa only [ofCompress, Bool.and_eq_true, decide_eq_true_eq] using hcompress

/-- The opcode is that of `COMPRESS` or `CLEAR`, and the core is idle, where a `CMD` write changes `CODE`. -/
theorem opcode_of_command_changes_code {s t : State} {v : Nat} {i : Instr} (hd : decodeCmd (BitVec.ofNat 8 v) = .ok i)
    (h : exec i s = .next t) (hc : t.code ≠ s.code) : s.busy = false ∧ (v % 256 = 1 ∨ v % 256 = 3) := by
  have hv : ∀ {k : BitVec 8}, encode i = .cmd8 k → v % 256 = k.toNat := fun hk => by
    have henc := encode_of_decode (.cmd8 _) i hd
    rw [hk, CodeWord.cmd8.injEq] at henc
    rw [henc, BitVec.toNat_ofNat]
  have hi := decodeCmd_isCommand hd
  constructor
  · by_contra hb
    rw [exec_command_busy hi (Bool.not_eq_false _ ▸ hb)] at h
    cases h
    exact hc rfl
  · cases i with
    | compress => exact .inl (hv rfl)
    | clear => exact .inr (hv rfl)
    | decompress =>
      obtain ⟨-, -, hsame, -⟩ := decompress_leaves_stream_codec (.inl rfl) h
      exact absurd hsame hc
    | trim | freq | treeBuild | codeAssign | encode | pad | serialize | deserialize | unpad | decode => cases hi

theorem readCsr_code (n : Nat) (s : State) : (readCsr n s).code = s.code := by
  obtain ⟨r, k, h⟩ := readCsr_eq_withHost n s
  rw [h, State.withHost]

theorem readMem_code (space : Space) (i : Nat) (s : State) : (readMem space i s).code = s.code := by
  obtain ⟨r, k, h⟩ := readMem_eq_withHost space i s
  rw [h, State.withHost]

theorem writeCsr_code (n v : Nat) (s : State) : (writeCsr n v s).code = s.code := by
  unfold writeCsr State.setTxtLen State.setBinLen
  repeat' split
  all_goals rfl

theorem writeMem_code (space : Space) (i v : Nat) (s : State) : (writeMem space i v s).code = s.code := by
  unfold writeMem
  repeat' split
  all_goals rfl

theorem issue_rejectCommand_code (s : State) : (s.issue State.rejectCommand).code = s.code :=
  State.issue_cases (p := fun u => u.code = s.code) rfl rfl

/-- Settles O55: by everything a step can be (`step_cases`); host accesses leave `CODE`. -/
theorem onlyCompressClearResetChangeCode : Obligations.OnlyCompressClearResetChangeCode := by
  unfold Obligations.OnlyCompressClearResetChangeCode
  intro s t h hc
  rcases step_cases h with ⟨-, -, rfl⟩ | ⟨i, hh, hd, hx⟩ | ⟨rest, i, hh, hd, hx⟩ | ⟨rest, -, -, rfl⟩ | ⟨rest, -, -, rfl⟩ |
    ⟨rest, -, -, -, rfl⟩ | ⟨rest, i, hh, hdone, hd, hx⟩ | ⟨rest, n, -, rfl⟩ | ⟨rest, v, i, hh, hd, hx⟩ |
    ⟨rest, v, -, -, rfl⟩ | ⟨rest, n, v, -, -, rfl⟩ | ⟨rest, sp, i, -, rfl⟩ | ⟨rest, sp, i, v, -, rfl⟩ | ⟨rest, hh, -⟩
  · exact absurd rfl hc
  · obtain ⟨h1, h7⟩ := seq_of_stage_changes_code hd hx hc
    exact .inr (.inr ⟨h1, h7, .inl hh⟩)
  · obtain ⟨h1, h7⟩ := seq_of_stage_changes_code (s := { s with host := rest }) hd hx hc
    exact .inr (.inr ⟨h1, h7, .inr (.inl ⟨rest, hh⟩)⟩)
  · exact absurd rfl hc
  · exact absurd (readCsr_code 1 _) hc
  · exact absurd rfl hc
  · obtain ⟨h1, h7⟩ := seq_of_stage_changes_code hd hx hc
    exact .inr (.inr ⟨h1, h7, .inr (.inr ⟨hdone, rest, hh⟩)⟩)
  · exact absurd (readCsr_code n _) hc
  · obtain ⟨hb, hv⟩ := opcode_of_command_changes_code (s := { s with host := rest }) hd hx hc
    exact .inr (.inl ⟨hb, v, rest, hh, hv⟩)
  · exact absurd (issue_rejectCommand_code _) hc
  · exact absurd (writeCsr_code n v _) hc
  · exact absurd (readMem_code sp i _) hc
  · exact absurd (writeMem_code sp i v _) hc
  · exact .inl ⟨rest, hh⟩

end Sys2Proof.Machine
end

section
/-! Runs: what holds after a number of steps, the core's turn with a stage, and that a running command comes to its end (47_commands.md
R175, R176). -/

namespace Sys2Proof.Machine

/-! ## After a number of steps -/

/-- `k` steps from `s` lead to a state with `P`. -/
def EndsIn (k : Nat) (s : State) (P : State → Prop) : Prop := ∃ t, steps k s = .next t ∧ P t

section
variable {s t : State} {P : State → Prop}

theorem EndsIn.of_step {k : Nat} (h : step s = .next t) (ht : EndsIn k t P) : EndsIn (k + 1) s P := by
  obtain ⟨u, hu, hP⟩ := ht
  exact ⟨u, (steps_succ h k).trans hu, hP⟩

/-- Steps lead to one state only. -/
theorem EndsIn.of_steps {k : Nat} (h : EndsIn k s P) (ht : steps k s = .next t) : P t := by
  obtain ⟨u, hu, hP⟩ := h
  cases hu.symm.trans ht
  exact hP

/-- Without a command and without a host the core stays as it is. -/
theorem EndsIn.of_idle (hseq : s.seq = 0) (hhost : s.host = []) (hP : P s) (k : Nat) : EndsIn k s P := by
  induction k with
  | zero => exact ⟨s, steps_zero s, hP⟩
  | succ k ih => exact .of_step (step_of_done ((fetch_nil hhost).trans (coreTurn_of_zero hseq))) ih

theorem decodeStage_stageId {i : Instr} (hi : i.isCommand = false) : decodeStage (stageId i) = .ok i := by
  revert hi; cases i <;> decide

theorem step_of_stage {i : Instr} (hturn : fetch s = coreTurn s) (hi : i.isCommand = false) (hseq : s.seq = stageId i)
    (hx : exec i s = .next t) : step s = .next t := by
  have hd : decodeStage s.seq = .ok i := hseq ▸ decodeStage_stageId hi
  exact (step_of_run (hturn.trans (coreTurn_of_decode hd))).trans hx

end

/-! ## The stages left -/

/-- How many stages a command has left, its next one among them, by the value of the sequencer (30_encoding.md R73). -/
def stagesLeft (k : BitVec 4) : Nat := if k.toNat ≤ 7 then 8 - k.toNat else 11 - k.toNat

theorem stagesLeft_pos {k : BitVec 4} (h : k.toNat ≤ 10) : 1 ≤ stagesLeft k := by
  unfold stagesLeft; split <;> omega

theorem stagesLeft_le_seven {k : BitVec 4} (h : k ≠ 0) : stagesLeft k ≤ 7 := by
  revert k; decide

/-- A command has ended, and the host has these actions left. -/
structure Completed (host : List HostAction) (t : State) : Prop where
  seq : t.seq = 0
  host : t.host = host
  idle : t.busy = false
  done : t.done = true

/-- A stage passes the turn to the next one, of which there is one less, or ends the command. -/
theorem StageEnds.passes_or_completes {s t : State} {i : Instr} (h : StageEnds s i t) :
    (t.host = s.host ∧ t.busy = s.busy ∧ stagesLeft t.seq + 1 = stagesLeft (stageId i)) ∨ Completed s.host t := by
  cases h with
  | trim | freq | treeBuild | codeAssign | encode | pad | deserialize | unpad => exact .inl ⟨rfl, rfl, rfl⟩
  | serialize | decode =>
    obtain ⟨hbusy, hdone, -⟩ := State.succeed_flags _
    exact .inr ⟨rfl, rfl, hbusy, hdone⟩
  | @error e i he =>
    obtain ⟨hbusy, hdone, -⟩ := statusError_fields e (stageId i) (s.raise e i) rfl
    exact .inr ⟨rfl, State.raise_host e i s, hbusy, hdone⟩

/-! ## A running command -/

/-- No legal `STATUS` has both `BUSY` and `DONE` (10_state.md R23). -/
theorem done_of_legal_of_busy {w : BitVec 16} (h : statusLegal w = true) (hb : w.getLsbD 0 = true) : w.getLsbD 1 = false := by
  rw [statusLegal, List.contains_iff_mem] at h
  fin_cases h <;> revert hb <;> decide

theorem StructInv.done_of_busy {s : State} (hs : StructInv s) (hb : s.busy = true) : s.done = false :=
  done_of_legal_of_busy hs.status_legal hb

/-- While a command runs, a host that does nothing or polls leaves the turn to the core. -/
theorem StructInv.fetch_of_busy {s : State} (hs : StructInv s) (hb : s.busy = true) (hhost : s.host = [] ∨ s.host = [.pollDone]) :
    fetch s = coreTurn s := by
  rcases hhost with h | h
  · exact fetch_nil h
  · exact fetch_poll_waiting h (hs.done_of_busy hb)

/-- A step of a running command keeps the structure, and there is one stage less or the command has ended. -/
theorem StructInv.step_of_busy {s : State} (hs : StructInv s) (hb : s.busy = true) (hhost : s.host = [] ∨ s.host = [.pollDone]) :
    ∃ t, step s = .next t ∧ StructInv t ∧
      ((t.host = s.host ∧ t.busy = true ∧ stagesLeft t.seq + 1 = stagesLeft s.seq) ∨ Completed s.host t) := by
  obtain ⟨i, hd⟩ := decodeStage_ok_of_le s.seq (hs.busy_iff.1 hb) hs.seq_le
  obtain ⟨hi, hseq⟩ := decodeStage_isCommand hd
  obtain ⟨t, hx⟩ := exec_next i s
  have hstep := step_of_stage (hs.fetch_of_busy hb hhost) hi hseq hx
  have hends := (exec_stage_ends hi hx).passes_or_completes
  rw [← hseq, hb] at hends
  exact ⟨t, hstep, stepKeepsStructure s t hs hstep, hends⟩

/-- What holds from every completed state on, `j` steps or more later, holds after the stages left and `j` steps. -/
theorem StructInv.endsIn_of_busy {host : List HostAction} {j : Nat} {P : State → Prop} (hhost : host = [] ∨ host = [.pollDone])
    (hend : ∀ t m, Completed host t → EndsIn (m + j) t P) {k : Nat} {s : State} (hs : StructInv s) (hb : s.busy = true)
    (hh : s.host = host) (hk : stagesLeft s.seq ≤ k) : EndsIn (k + j) s P := by
  induction k generalizing s with
  | zero =>
    have hpos := stagesLeft_pos hs.seq_le
    omega
  | succ k ih =>
    subst hh
    obtain ⟨t, hstep, ht, ⟨hhost', hb', hleft⟩ | hdone⟩ := hs.step_of_busy hb hhost
    all_goals rw [Nat.add_right_comm]
    · exact .of_step hstep (ih ht hb' hhost' (by omega))
    · exact .of_step hstep (hend t k hdone)

/-- Settles O56: a command has at most seven stages left; the poll then reads the completed `STATUS` in the eighth step. -/
theorem runningCommandEnds : Obligations.RunningCommandEnds := by
  unfold Obligations.RunningCommandEnds
  intro s hs hb
  have hleft : stagesLeft s.seq ≤ 7 := stagesLeft_le_seven (hs.busy_iff.1 hb)
  refine ⟨fun hhost => ?none, fun hhost => ?poll⟩
  case none =>
    refine hs.endsIn_of_busy (j := 0) (.inl rfl) (fun t m ht => ?_) hb hhost hleft
    exact .of_idle ht.seq ht.host ⟨ht.idle, ht.done⟩ m
  case poll =>
    refine hs.endsIn_of_busy (j := 1) (.inr rfl) (fun t m ht => ?_) hb hhost hleft
    refine .of_step (step_of_done (fetch_poll_done ht.host ht.done)) (.of_idle ?_ rfl ?_ m)
    · exact ht.seq
    · exact ⟨rfl, ht.idle, ht.done, rfl⟩

end Sys2Proof.Machine
end

section
/-! A whole `COMPRESS` (47_commands.md R171, R183, R184): what `compress_fn` answers, and the run of the stages that computes it. -/

namespace Sys2Proof.Machine

/-! ## The text after `TRIM` -/

theorem trimText_prefix (ws text : List Symbol) : trimText ws text <+: text := by
  rw [trimText, ← List.reverse_suffix, List.reverse_reverse]
  exact List.dropWhile_suffix _

/-- The elements of `TXT` have `W_SYM` bits, so the trimmed text consists of symbol values. -/
theorem State.lt_of_mem_trimText {s : State} {x : Symbol} (h : x ∈ trimText s.cfg.ws s.text) : x < s.cfg.nSym := by
  obtain ⟨i, -, rfl⟩ := List.mem_map.1 ((trimText_prefix _ _).subset h)
  exact s.txtAt_lt i

/-! ## The table of a text -/

/-- What a merge makes of `NODE` and `PQ` does not depend on what `A` and `B` were. -/
theorem mergeStep_congr {t u : TreeWork} (hnode : t.node = u.node) (hpq : t.pq = u.pq) :
    (mergeStep t).node = (mergeStep u).node ∧ (mergeStep t).pq = (mergeStep u).pq := by
  unfold mergeStep
  rw [hnode, hpq]
  split
  · exact ⟨hnode, hpq⟩
  · split
    · exact ⟨hnode, hpq⟩
    · exact ⟨rfl, rfl⟩

theorem mergeLoop_congr (fuel : Nat) {t u : TreeWork} (hnode : t.node = u.node) (hpq : t.pq = u.pq) :
    (mergeLoop fuel t).node = (mergeLoop fuel u).node ∧ (mergeLoop fuel t).pq = (mergeLoop fuel u).pq := by
  induction fuel generalizing t u with
  | zero => exact ⟨hnode, hpq⟩
  | succ fuel ih =>
    obtain ⟨hnode', hpq'⟩ := mergeStep_congr hnode hpq
    rw [mergeLoop, mergeLoop, hpq]
    split
    · exact ⟨hnode, hpq⟩
    · exact ih hnode' hpq'

/-- The tree of a count does not depend on what `A` and `B` were before, so its table is that of `codeTableOf`. -/
theorem codeTable_builtTree (c : Config) (text : List Symbol) (a b : Nat) :
    codeTable c.degenCode (builtTree c.leafOrder (countSymbols c.nSym text) a b).node
      ((builtTree c.leafOrder (countSymbols c.nSym text) a b).pq.headD 0) = codeTableOf c text := by
  simp only [codeTableOf, builtTree, loadedLeaves_eq]
  obtain ⟨hnode, hpq⟩ := mergeLoop_congr (List.range (present c.leafOrder (countSymbols c.nSym text)).length).length
    (t := { node := _, pq := _, nodeA := a, nodeB := b }) (u := { node := _, pq := _, nodeA := 0, nodeB := 0 }) rfl rfl
  rw [hnode, hpq]

section
variable {c : Config} {text : List Symbol}

theorem mem_present_countSymbols (hc : c.wellFormed = true) (hlt : ∀ x ∈ text, x < c.nSym) {x : Symbol} :
    x ∈ present c.leafOrder (countSymbols c.nSym text) ↔ x ∈ text := by
  rw [mem_present_leafOrder hc, freqAt_countSymbols hlt, List.one_le_count_iff]
  exact and_iff_right_of_imp (hlt x)

/-- Each symbol of a text has a code in the text's own table, so the text has a payload (R145). -/
theorem exists_payload_codeTableOf (hc : c.wellFormed = true) (hlt : ∀ x ∈ text, x < c.nSym) :
    ∃ e, payload (codeTableOf c text) text = some e := by
  have hcoded : ∀ x ∈ text, codeOf (codeTableOf c text) x ≠ none := by
    intro x hx
    have hp := List.ne_nil_of_mem ((mem_present_countSymbols hc hlt).2 hx)
    obtain ⟨root, t, hpq, ht, hleaves, -⟩ := builtTree_spec 0 0 (nodup_present hc _) hp
    rw [codeTableOf, hpq, List.headD_cons, ht.codeOf_ne_none, (symbols_perm hleaves).mem_iff, mem_present_countSymbols hc hlt]
    exact hx
  obtain ⟨cs, hcs⟩ := payload_some hcoded
  exact ⟨cs.flatten, payload_forall₂ hcs⟩

end

/-! ## The function -/

/-- The stream of a payload: padded and cut into bytes (44_bit_packer.md R141, 45_byte_serializer.md R150). -/
def streamOf (enc : Bits) : List Byte := serializeBits (padded (paddingCount enc.length) enc)

theorem length_streamOf (enc : Bits) : (streamOf enc).length = streamLength enc.length := by
  rw [streamOf, length_serializeBits, length_padded, Nat.mul_div_cancel_left _ (by decide)]

/-- What the host finds after `COMPRESS`: `STATUS`, the stream in `BIN`, and `CODE`. -/
structure CompressResult where
  status : BitVec 16
  stream : List Byte
  code : CodeTable

/-- What an error leaves of the destination of `COMPRESS` (60_exceptions.md R208). -/
def CompressResult.failed (status : BitVec 16) : CompressResult := { status := status, stream := [], code := [] }

/-- A stream and its table, if the stream fits `BIN` (44_bit_packer.md R146). -/
def CompressResult.stored (c : Config) (bytes : List Byte) (code : CodeTable) : CompressResult :=
  if bytes.length ≤ c.maxBin then { status := 0x0002, stream := bytes, code := code } else .failed 0x0556

/-- The result of `COMPRESS` on a text: that of `compress_fn` within the two capacities (47_commands.md R184). -/
def compressResult (c : Config) (text : List Symbol) : CompressResult :=
  if c.maxTxt < text.length then .failed 0x0156
  else
    match compressFn c text with
    | .error _ => .failed 0x0316
    | .ok (bytes, code) => .stored c bytes code

section
variable {c : Config} {text : List Symbol}

theorem compressFn_of_blank (h : trimText c.ws text = []) : compressFn c text = .error .emptyInput := if_pos h

theorem compressFn_of_payload {e : Bits} (h : trimText c.ws text ≠ [])
    (he : payload (codeTableOf c (trimText c.ws text)) (trimText c.ws text) = some e) :
    compressFn c text = .ok (streamOf e, codeTableOf c (trimText c.ws text)) := by
  simp only [compressFn, if_neg h, he, streamOf]

theorem compressResult_of_long (h : c.maxTxt < text.length) : compressResult c text = .failed 0x0156 := if_pos h

theorem compressResult_of_blank (hle : text.length ≤ c.maxTxt) (h : trimText c.ws text = []) :
    compressResult c text = .failed 0x0316 := by
  rw [compressResult, if_neg (not_lt.2 hle), compressFn_of_blank h]

theorem compressResult_of_ok {bytes : List Byte} {code : CodeTable} (hle : text.length ≤ c.maxTxt)
    (h : compressFn c text = .ok (bytes, code)) : compressResult c text = .stored c bytes code := by
  rw [compressResult, if_neg (not_lt.2 hle), h]

end

/-! ## The run -/

/-- `COMPRESS` started on `s` has come to `u`, with stage `i` next and no host action pending. -/
structure Compressing (s u : State) (i : Instr) : Prop where
  next : u.seq = stageId i
  host : u.host = []
  cfg : u.cfg = s.cfg
  txt : u.txt = s.txt
  txtLen : u.txtLen = s.txtLen

/-- `COMPRESS` started on `s` has ended in `t` with the result `r`, its source untouched. -/
structure Compressed (s t : State) (r : CompressResult) : Prop where
  idle : t.busy = false
  cfg : t.cfg = s.cfg
  txt : t.txt = s.txt
  txtLen : t.txtLen = s.txtLen
  status : t.status = r.status
  stream : t.stream = r.stream
  code : t.code = r.code

theorem Compressed.binLen {s t : State} {r : CompressResult} (h : Compressed s t r) : t.binLen = r.stream.length := by
  rw [← h.stream, State.length_stream]

theorem idle_of_success {t : State} (h : t.status = 0x0002) : t.busy = false := by
  rw [State.busy, h]; decide

section
variable {s u : State} {k : Nat} {P : State → Prop}

theorem Compressing.step {v : State} {i : Instr} (h : Compressing s u i) (hi : i.isCommand = false) (hx : exec i u = .next v) :
    step u = .next v :=
  step_of_stage (fetch_nil h.host) hi h.next hx

/-- An error of a stage ends the command, whatever steps are to come. -/
theorem Compressing.fails {e : ErrorKind} {i : Instr} (h : Compressing s u i) (hi : ofCompress i = true)
    (hx : exec i u = .next (u.raise e i)) (k : Nat) :
    EndsIn (k + 1) u (Compressed s · (.failed (statusError e (stageId i)))) := by
  rw [State.raise_of_compress e u hi] at hx
  obtain ⟨hbusy, -⟩ := statusError_fields e (stageId i) (compressFailed (statusError e (stageId i)) u) rfl
  refine .of_step (h.step (isCommand_of_ofCompress hi) hx) (.of_idle ?_ ?_ ?_ k)
  · rfl
  · exact h.host
  · exact ⟨hbusy, h.cfg, h.txt, h.txtLen, rfl, rfl, rfl⟩

theorem Compressing.serialize {e : Bits} (h : Compressing s u .serialize) (hpad : u.pad = padded (paddingCount e.length) e)
    (hfits : streamLength e.length ≤ s.cfg.maxBin) :
    EndsIn 1 u (Compressed s · { status := 0x0002, stream := streamOf e, code := u.code }) := by
  have hlen : u.pad.length / 8 = streamLength e.length := by
    rw [hpad, length_padded, Nat.mul_div_cancel_left _ (by decide)]
  have hbytes : serializeBits u.pad = streamOf e := by rw [hpad, streamOf]
  rw [← h.cfg, ← hlen] at hfits
  refine .of_step (h.step rfl (exec_serialize_of_le hfits)) ⟨_, rfl, idle_of_success rfl, h.cfg, h.txt, h.txtLen, rfl, ?_, rfl⟩
  rw [hbytes]
  exact stream_of_fill rfl (hlen.trans (length_streamOf e).symm) ((length_streamOf e).trans_le (hlen.symm.trans_le hfits))

theorem Compressing.pad (h : Compressing s u .pad) (hlen : u.payloadLen = u.enc.length)
    (hfits : streamLength u.enc.length ≤ s.cfg.maxBin) :
    EndsIn 2 u (Compressed s · { status := 0x0002, stream := streamOf u.enc, code := u.code }) := by
  refine .of_step (h.step rfl (exec_pad u)) (Compressing.serialize ⟨rfl, h.host, h.cfg, h.txt, h.txtLen⟩ ?_ hfits)
  rw [hlen]

theorem Compressing.encode {e : Bits} (h : Compressing s u .encode) (he : payload u.code u.trimmedText = some e) :
    EndsIn 3 u (Compressed s · (.stored s.cfg (streamOf e) u.code)) := by
  rw [CompressResult.stored, length_streamOf]
  split
  · have hfits : streamLength e.length ≤ s.cfg.maxBin := ‹_›
    exact .of_step (h.step rfl (exec_encode_of_le he (h.cfg ▸ hfits)))
      (Compressing.pad ⟨rfl, h.host, h.cfg, h.txt, h.txtLen⟩ rfl hfits)
  · have hlong : s.cfg.maxBin < streamLength e.length := not_le.1 ‹_›
    exact h.fails rfl (exec_encode_of_lt he (h.cfg ▸ hlong)) 2

theorem Compressing.codeAssign {e : Bits} {code : CodeTable} (h : Compressing s u .codeAssign)
    (hcode : codeTable u.cfg.degenCode u.node u.root = code) (he : payload code u.trimmedText = some e) :
    EndsIn 4 u (Compressed s · (.stored s.cfg (streamOf e) code)) := by
  subst hcode
  exact .of_step (h.step rfl (exec_codeAssign u)) (Compressing.encode ⟨rfl, h.host, h.cfg, h.txt, h.txtLen⟩ he)

/-- With a symbol left after trimming the tree gives the table of the trimmed text. -/
theorem Compressing.treeBuild {e : Bits} {text : List Symbol} (h : Compressing s u .treeBuild) (hc : s.cfg.wellFormed = true)
    (htext : u.trimmedText = text) (hfreq : u.freq = countSymbols s.cfg.nSym text) (hne : text ≠ [])
    (he : payload (codeTableOf s.cfg text) text = some e) :
    EndsIn 5 u (Compressed s · (.stored s.cfg (streamOf e) (codeTableOf s.cfg text))) := by
  subst htext
  rw [← h.cfg] at hc hfreq
  have hp : present u.cfg.leafOrder u.freq ≠ [] := by
    obtain ⟨x, hx⟩ := List.exists_mem_of_ne_nil _ hne
    rw [hfreq]
    exact List.ne_nil_of_mem ((mem_present_countSymbols hc fun _ => State.lt_of_mem_trimmedText).2 hx)
  obtain ⟨root, -, hpq, -⟩ := builtTree_spec u.nodeA u.nodeB (nodup_present hc u.freq) hp
  have hcode : codeTable u.cfg.degenCode (builtTree u.cfg.leafOrder u.freq u.nodeA u.nodeB).node root =
      codeTableOf s.cfg u.trimmedText := by
    rw [← h.cfg, ← codeTable_builtTree u.cfg u.trimmedText u.nodeA u.nodeB, ← hfreq, hpq, List.headD_cons]
  exact .of_step (h.step rfl (exec_treeBuild_of_present hp rfl hpq))
    (Compressing.codeAssign ⟨rfl, h.host, h.cfg, h.txt, h.txtLen⟩ hcode he)

/-- With no symbol left after trimming there is nothing to count. -/
theorem Compressing.treeBuild_blank (h : Compressing s u .treeBuild) (hfreq : u.freq = countSymbols s.cfg.nSym []) :
    EndsIn 5 u (Compressed s · (.failed 0x0316)) := by
  have hp : present u.cfg.leafOrder u.freq = [] := present_eq_nil.2 fun x _ => by rw [hfreq]; exact freqAt_replicate _ x
  exact h.fails rfl (exec_treeBuild_of_absent hp) 4

/-- A text that fits `TXT` comes trimmed and counted to `TREE_BUILD`. -/
theorem Compressing.trim_freq (h : Compressing s u .trim) (hle : s.txtLen ≤ s.cfg.maxTxt)
    (hend : ∀ v, Compressing s v .treeBuild → v.trimmedText = trimText s.cfg.ws s.text →
      v.freq = countSymbols s.cfg.nSym (trimText s.cfg.ws s.text) → EndsIn k v P) :
    EndsIn (k + 2) u P := by
  have htxtAt : u.txtAt = s.txtAt := funext fun i => by simp only [State.txtAt, h.cfg, h.txt]
  have htext : ({ u with wlen := trimmedLength u.cfg.ws u.txtAt u.txtLen, seq := 2 } : State).trimmedText = trimText s.cfg.ws s.text := by
    refine (map_trim u.cfg.ws u.txtAt u.txtLen).trans ?_
    rw [htxtAt, h.cfg, h.txtLen, State.text]
  rw [← h.txtLen, ← h.cfg] at hle
  refine .of_step (h.step rfl (exec_trim_of_le hle)) ?_
  generalize hv : ({ u with wlen := trimmedLength u.cfg.ws u.txtAt u.txtLen, seq := 2 } : State) = v at htext ⊢
  have hfreq : Compressing s v .freq := hv ▸ ⟨rfl, h.host, h.cfg, h.txt, h.txtLen⟩
  refine .of_step (hfreq.step rfl (exec_freq v)) (hend _ ⟨rfl, hfreq.host, hfreq.cfg, hfreq.txt, hfreq.txtLen⟩ htext ?_)
  rw [htext, hfreq.cfg]

/-- The accepted `CMD` write. -/
theorem EndsIn.of_compress (hb : s.busy = false) (hend : ∀ u, Compressing s u .trim → EndsIn k u P) :
    EndsIn (k + 1) (s.doing [.csrWrite 0 1]) P := by
  have hstep : Machine.step (s.doing [.csrWrite 0 1]) = exec .compress (s.doing []) :=
    stepRunsWrittenCommand (s.doing [.csrWrite 0 1]) [] 1 .compress rfl rfl
  exact .of_step (hstep.trans (exec_compress_idle hb)) (hend _ ⟨rfl, rfl, rfl, rfl, rfl⟩)

end

/-- A whole `COMPRESS` from an idle core ends with its result, by whether the text fits and whether a symbol is left of it. -/
theorem compress_endsIn {s : State} (hc : s.cfg.wellFormed = true) (hb : s.busy = false) :
    EndsIn 8 (s.doing [.csrWrite 0 1]) (Compressed s · (compressResult s.cfg s.text)) := by
  refine .of_compress hb fun u hu => ?_
  rcases Nat.lt_or_ge s.cfg.maxTxt s.txtLen with hlong | hle
  · rw [compressResult_of_long (by rwa [State.length_text])]
    exact hu.fails rfl (exec_trim_of_lt (by rwa [hu.cfg, hu.txtLen])) 6
  · refine hu.trim_freq hle fun v hv htext hfreq => ?_
    rw [← State.length_text] at hle
    by_cases hblank : trimText s.cfg.ws s.text = []
    · rw [compressResult_of_blank hle hblank]
      exact hv.treeBuild_blank (by rw [hfreq, hblank])
    · obtain ⟨e, he⟩ := exists_payload_codeTableOf hc fun _ => State.lt_of_mem_trimText (s := s)
      rw [compressResult_of_ok hle (compressFn_of_payload hblank he)]
      exact hv.treeBuild hc htext hfreq hblank he

/-! ## The obligations -/

/-- Settles O57: the result of the run (`compress_endsIn`), read by the cases of `compressResult`. -/
theorem compressComputesFunction : Obligations.CompressComputesFunction := by
  unfold Obligations.CompressComputesFunction
  intro s hc hb
  obtain ⟨t, hsteps, ht⟩ := compress_endsIn hc hb
  refine ⟨t, hsteps, ht.txt, ht.txtLen, fun hlong => ?long, fun hle hblank => ?blank, fun hle hne => ?function⟩
  case long =>
    rw [← State.length_text] at hlong
    rw [compressResult_of_long hlong] at ht
    exact ⟨ht.status, ht.binLen, ht.code⟩
  case blank =>
    rw [← State.length_text] at hle
    rw [compressResult_of_blank hle hblank] at ht
    exact ⟨compressFn_of_blank hblank, ht.status, ht.binLen, ht.code⟩
  case function =>
    rw [← State.length_text] at hle
    obtain ⟨e, he⟩ := exists_payload_codeTableOf hc fun _ => State.lt_of_mem_trimText (s := s)
    have hfn := compressFn_of_payload hne he
    rw [compressResult_of_ok hle hfn, CompressResult.stored] at ht
    refine ⟨_, _, hfn, fun hfits => ?_, fun hlong => ?_⟩
    · rw [if_pos hfits] at ht
      exact ⟨ht.status, ht.binLen, ht.stream, ht.code⟩
    · rw [if_neg (not_le.2 hlong)] at ht
      exact ⟨ht.status, ht.binLen, ht.code⟩

/-- Settles O60: both runs end with the result of the one text. -/
theorem compressIsDeterministic : Obligations.CompressIsDeterministic := by
  unfold Obligations.CompressIsDeterministic
  intro s s' t t' hc hcfg hb hb' htext hsteps hsteps'
  have ht := (compress_endsIn hc hb).of_steps hsteps
  have ht' := (compress_endsIn (hcfg ▸ hc) hb').of_steps hsteps'
  rw [hcfg, htext] at ht'
  exact ⟨ht.status.trans ht'.status.symm, ht.binLen.trans ht'.binLen.symm, ht.stream.trans ht'.stream.symm, ht.code.trans ht'.code.symm⟩

end Sys2Proof.Machine
end

section
/-! A whole `DECOMPRESS` (47_commands.md R172, R184): what `decompress_fn` answers against `DECODE` with a capacity, the run of the
stages that computes it, and the round trip (R181). -/

namespace Sys2Proof.Machine

/-! ## Reading with and without a capacity (46_decoder.md R161, R166) -/

theorem length_le_of_recoverSymbols {code : CodeTable} {enc cand : Bits} {out symbols : List Symbol}
    (h : recoverSymbols code enc cand out = some symbols) : out.length ≤ symbols.length := by
  induction enc generalizing cand out with
  | nil =>
    rw [recoverSymbols] at h
    split at h <;> cases h
    exact le_rfl
  | cons b bs ih =>
    rw [recoverSymbols] at h
    split at h
    · have hlen := ih h
      rw [List.length_append, List.length_singleton] at hlen
      omega
    · exact ih h

/-- What an end of `DECODE` says of the symbols that would be read without a capacity. -/
def DecodeResult.Agrees (maxTxt : Nat) (recovered : Option (List Symbol)) : DecodeResult → Prop
  | .text symbols => recovered = some symbols
  | .corrupt => recovered = none
  | .overflow => ∀ symbols, recovered = some symbols → maxTxt < symbols.length

theorem decodeLoop_agrees (code : CodeTable) {maxTxt : Nat} (enc cand : Bits) {out : List Symbol} (hout : out.length ≤ maxTxt) :
    (decodeLoop code maxTxt enc cand out).Agrees maxTxt (recoverSymbols code enc cand out) := by
  induction enc generalizing cand out with
  | nil =>
    rw [decodeLoop, recoverSymbols]
    split <;> rfl
  | cons b bs ih =>
    rw [decodeLoop, recoverSymbols]
    cases rctLookup code (cand ++ [b]) with
    | none => exact ih _ hout
    | some x =>
      dsimp only
      split
      · intro symbols h
        have hlen := length_le_of_recoverSymbols h
        rw [List.length_append, List.length_singleton] at hlen
        omega
      · exact ih [] (by rw [List.length_append, List.length_singleton]; omega)

section
variable {code : CodeTable} {maxTxt : Nat} {enc : Bits}

theorem decodePayload_agrees (code : CodeTable) (maxTxt : Nat) (enc : Bits) :
    (decodePayload code maxTxt enc).Agrees maxTxt (recoverSymbols code enc [] []) :=
  decodeLoop_agrees code enc [] (Nat.zero_le maxTxt)

/-- A text that is recovered and fits is what `DECODE` reads. -/
theorem decodePayload_of_recovered_of_le {symbols : List Symbol} (h : recoverSymbols code enc [] [] = some symbols)
    (hle : symbols.length ≤ maxTxt) : decodePayload code maxTxt enc = .text symbols := by
  have hagrees := decodePayload_agrees code maxTxt enc
  rw [h] at hagrees
  cases hread : decodePayload code maxTxt enc with
  | text read => rw [hread] at hagrees; cases hagrees; rfl
  | corrupt => rw [hread] at hagrees; cases hagrees
  | overflow => rw [hread] at hagrees; exact absurd (hagrees _ rfl) (not_lt.2 hle)

/-- On a text that is recovered and does not fit `DECODE` runs out of room. -/
theorem decodePayload_of_recovered_of_lt {symbols : List Symbol} (h : recoverSymbols code enc [] [] = some symbols)
    (hlt : maxTxt < symbols.length) : decodePayload code maxTxt enc = .overflow := by
  have hagrees := decodePayload_agrees code maxTxt enc
  rw [h] at hagrees
  cases hread : decodePayload code maxTxt enc with
  | text read =>
    rw [hread] at hagrees
    cases hagrees
    exact absurd (decodePayload_text hread).1 (not_le.2 hlt)
  | corrupt => rw [hread] at hagrees; cases hagrees
  | overflow => rfl

/-- Where no text is recovered `DECODE` finds the damage, unless it runs out of room before. -/
theorem decodePayload_of_unrecovered (h : recoverSymbols code enc [] [] = none) (hfew : ¬ TooManySymbols code maxTxt enc) :
    decodePayload code maxTxt enc = .corrupt := by
  have hagrees := decodePayload_agrees code maxTxt enc
  rw [h] at hagrees
  cases hread : decodePayload code maxTxt enc with
  | text read => rw [hread] at hagrees; cases hagrees
  | corrupt => rfl
  | overflow => exact absurd (decodePayload_overflow.1 hread) hfew

end

/-! ## The header -/

/-- One of the two checks of `UNPAD` fails (46_decoder.md R160). -/
abbrev BadHeader (p : Bits) : Prop := p.length < 8 ∨ p.length - 8 < bitsVal (p.take 8)

/-- What `UNPAD` takes out of the bits of a stream. -/
def unpadded (p : Bits) : Bits := (p.drop 8).take (p.length - 8 - bitsVal (p.take 8))

theorem exec_unpad_of_failed_check {s : State} (h : BadHeader s.pad) : exec .unpad s = .next (decompressFailed 0x0936 s) := by
  obtain ⟨hshort, hlong, -⟩ := unpadStripsHeaderAndPadding s
  rcases Nat.lt_or_ge s.pad.length 8 with hlen | hlen
  · exact hshort hlen
  · exact hlong hlen (h.resolve_left (not_lt.2 hlen))

theorem exec_unpad_of_header {s : State} (h : ¬ BadHeader s.pad) :
    ∃ n l, exec .unpad s = .next { s with extra := n, payloadLen := l, enc := unpadded s.pad, seq := 10 } := by
  obtain ⟨hlen, hval⟩ := not_or.1 h
  refine ⟨_, _, exec_unpad_of_append (header := s.pad.take 8)
    (padding := (s.pad.drop 8).drop (s.pad.length - 8 - bitsVal (s.pad.take 8))) ?split ?header ?padding⟩
  case split => rw [List.append_assoc, unpadded, List.take_append_drop, List.take_append_drop]
  case header => rw [List.length_take]; omega
  case padding => rw [List.length_drop, List.length_drop]; omega

/-- A padded payload passes both checks and is taken out again (R168). -/
theorem unpadded_padded (e : Bits) :
    ¬ BadHeader (padded (paddingCount e.length) e) ∧ unpadded (padded (paddingCount e.length) e) = e := by
  have hsplit : padded (paddingCount e.length) e =
      bin8 (BitVec.ofNat 8 (paddingCount e.length)) ++ (e ++ List.replicate (paddingCount e.length) false) := by
    rw [padded, List.append_assoc]
  have htake : bitsVal ((padded (paddingCount e.length) e).take 8) = paddingCount e.length := by
    rw [hsplit, List.take_left' (length_bin8 _), bitsVal_paddingHeader]
  have hdrop : (padded (paddingCount e.length) e).drop 8 = e ++ List.replicate (paddingCount e.length) false := by
    rw [hsplit, List.drop_left' (length_bin8 _)]
  have hlen := length_padded_eq_add (paddingCount e.length) e
  constructor
  · rw [BadHeader, htake]; omega
  · rw [unpadded, htake, hdrop, List.take_left' (by omega)]

/-! ## The function -/

section
variable {bytes : List Byte} {code : CodeTable}

theorem decompressFn_of_badHeader (h : BadHeader (deserializeBytes bytes)) : decompressFn bytes code = .error .corruptStream := by
  rw [BadHeader, ← List.length_drop] at h
  rw [decompressFn]
  split
  · rfl
  · exact if_pos (h.resolve_left ‹_›)

theorem decompressFn_of_recovered {symbols : List Symbol} (h : ¬ BadHeader (deserializeBytes bytes))
    (hs : recoverSymbols code (unpadded (deserializeBytes bytes)) [] [] = some symbols) : decompressFn bytes code = .ok symbols := by
  obtain ⟨hlen, hval⟩ := not_or.1 h
  rw [unpadded] at hs
  simp only [decompressFn, if_neg hlen, List.length_drop, if_neg hval, hs]

theorem decompressFn_of_unrecovered (h : ¬ BadHeader (deserializeBytes bytes))
    (hs : recoverSymbols code (unpadded (deserializeBytes bytes)) [] [] = none) :
    decompressFn bytes code = .error .corruptStream := by
  obtain ⟨hlen, hval⟩ := not_or.1 h
  rw [unpadded] at hs
  simp only [decompressFn, if_neg hlen, List.length_drop, if_neg hval, hs]

/-- `decompress_fn` gives a text where the header is good and the payload is read to its end. -/
theorem recovered_of_ok {symbols : List Symbol} (h : decompressFn bytes code = .ok symbols) :
    ¬ BadHeader (deserializeBytes bytes) ∧ recoverSymbols code (unpadded (deserializeBytes bytes)) [] [] = some symbols := by
  by_cases hheader : BadHeader (deserializeBytes bytes)
  · rw [decompressFn_of_badHeader hheader] at h; cases h
  · cases hs : recoverSymbols code (unpadded (deserializeBytes bytes)) [] [] with
    | none => rw [decompressFn_of_unrecovered hheader hs] at h; cases h
    | some symbols' => rw [decompressFn_of_recovered hheader hs] at h; cases h; exact ⟨hheader, rfl⟩

/-- `decompress_fn` fails with one error only, on the header or on the payload. -/
theorem unrecovered_of_error {e : ErrorKind} (h : decompressFn bytes code = .error e) :
    e = .corruptStream ∧ (¬ BadHeader (deserializeBytes bytes) →
      recoverSymbols code (unpadded (deserializeBytes bytes)) [] [] = none) := by
  by_cases hheader : BadHeader (deserializeBytes bytes)
  · rw [decompressFn_of_badHeader hheader] at h; cases h; exact ⟨rfl, absurd hheader⟩
  · cases hs : recoverSymbols code (unpadded (deserializeBytes bytes)) [] [] with
    | none => rw [decompressFn_of_unrecovered hheader hs] at h; cases h; exact ⟨rfl, fun _ => rfl⟩
    | some symbols => rw [decompressFn_of_recovered hheader hs] at h; cases h

end

/-- What the host finds after `DECOMPRESS`: `STATUS` and the text in `TXT`. -/
structure DecompressResult where
  status : BitVec 16
  text : List Symbol

/-- What an error leaves of the destination of `DECOMPRESS` (60_exceptions.md R208). -/
def DecompressResult.failed (status : BitVec 16) : DecompressResult := { status := status, text := [] }

/-- The result by the end of `DECODE` (46_decoder.md R161, R166). -/
def DecompressResult.ofDecode : DecodeResult → DecompressResult
  | .text symbols => { status := 0x0002, text := symbols }
  | .corrupt => .failed 0x0A36
  | .overflow => .failed 0x0A56

/-- The result of `DECOMPRESS` on the bits of a stream. -/
def DecompressResult.ofBits (c : Config) (code : CodeTable) (p : Bits) : DecompressResult :=
  if BadHeader p then .failed 0x0936 else .ofDecode (decodePayload code c.maxTxt (unpadded p))

/-- The result of `DECOMPRESS` on a stream (47_commands.md R172). -/
def decompressResult (c : Config) (code : CodeTable) (bytes : List Byte) : DecompressResult :=
  if c.maxBin < bytes.length then .failed 0x0856 else .ofBits c code (deserializeBytes bytes)

section
variable {c : Config} {code : CodeTable} {bytes : List Byte}

theorem decompressResult_of_long (h : c.maxBin < bytes.length) : decompressResult c code bytes = .failed 0x0856 := if_pos h

theorem decompressResult_of_badHeader (hle : bytes.length ≤ c.maxBin) (h : BadHeader (deserializeBytes bytes)) :
    decompressResult c code bytes = .failed 0x0936 := by
  rw [decompressResult, if_neg (not_lt.2 hle), DecompressResult.ofBits, if_pos h]

theorem decompressResult_of_header (hle : bytes.length ≤ c.maxBin) (h : ¬ BadHeader (deserializeBytes bytes)) :
    decompressResult c code bytes = .ofDecode (decodePayload code c.maxTxt (unpadded (deserializeBytes bytes))) := by
  rw [decompressResult, if_neg (not_lt.2 hle), DecompressResult.ofBits, if_neg h]

end

/-! ## The run -/

/-- `DECOMPRESS` started on `s` has come to `u`, with stage `i` next and no host action pending. -/
structure Decompressing (s u : State) (i : Instr) : Prop where
  next : u.seq = stageId i
  host : u.host = []
  cfg : u.cfg = s.cfg
  bin : u.bin = s.bin
  binLen : u.binLen = s.binLen
  code : u.code = s.code

/-- `DECOMPRESS` started on `s` has ended in `t` with the result `r`, its source and the table untouched; the text can be read back where
its symbols have `W_SYM` bits. -/
structure Decompressed (s t : State) (r : DecompressResult) : Prop where
  bin : t.bin = s.bin
  binLen : t.binLen = s.binLen
  code : t.code = s.code
  status : t.status = r.status
  txtLen : t.txtLen = r.text.length
  text : (∀ x ∈ r.text, x < s.cfg.nSym) → t.text = r.text

section
variable {s u : State} {k : Nat} {P : State → Prop}

theorem Decompressing.step {v : State} {i : Instr} (h : Decompressing s u i) (hi : i.isCommand = false) (hx : exec i u = .next v) :
    step u = .next v :=
  step_of_stage (fetch_nil h.host) hi h.next hx

/-- An error of a stage ends the command, whatever steps are to come. -/
theorem Decompressing.fails {w : BitVec 16} {i : Instr} (h : Decompressing s u i) (hi : i.isCommand = false)
    (hx : exec i u = .next (decompressFailed w u)) (k : Nat) : EndsIn (k + 1) u (Decompressed s · (.failed w)) := by
  refine .of_step (h.step hi hx) (.of_idle ?_ ?_ ?_ k)
  · rfl
  · exact h.host
  · exact ⟨h.bin, h.binLen, h.code, rfl, rfl, fun _ => rfl⟩

theorem Decompressing.decode (h : Decompressing s u .decode) :
    EndsIn 1 u (Decompressed s · (.ofDecode (decodePayload s.code s.cfg.maxTxt u.enc))) := by
  rw [← h.code, ← h.cfg]
  cases hread : decodePayload u.code u.cfg.maxTxt u.enc with
  | text symbols =>
    obtain ⟨hfits, -⟩ := decodePayload_text hread
    refine .of_step (h.step rfl (exec_decode_of_text hread)) ⟨_, rfl, h.bin, h.binLen, h.code, rfl, rfl, fun hsymbols => ?_⟩
    exact text_of_fill rfl rfl hfits fun x hx => h.cfg ▸ hsymbols x hx
  | corrupt => exact h.fails rfl (exec_decode_of_corrupt hread) 0
  | overflow => exact h.fails rfl (exec_decode_of_overflow hread) 0

theorem Decompressing.unpad (h : Decompressing s u .unpad) : EndsIn 2 u (Decompressed s · (.ofBits s.cfg s.code u.pad)) := by
  rw [DecompressResult.ofBits]
  split
  · exact h.fails rfl (exec_unpad_of_failed_check ‹_›) 1
  · obtain ⟨n, l, hx⟩ := exec_unpad_of_header ‹_›
    exact .of_step (h.step rfl hx) (Decompressing.decode ⟨rfl, h.host, h.cfg, h.bin, h.binLen, h.code⟩)

theorem Decompressing.deserialize (h : Decompressing s u .deserialize) :
    EndsIn 3 u (Decompressed s · (decompressResult s.cfg s.code s.stream)) := by
  have hstream : u.stream = s.stream := by
    have hbinAt : u.binAt = s.binAt := funext fun i => by simp only [State.binAt, h.bin]
    rw [State.stream, State.stream, hbinAt, h.binLen]
  rw [decompressResult, State.length_stream, ← hstream, ← h.binLen]
  split
  · have hlong : u.cfg.maxBin < u.binLen := h.cfg ▸ ‹_›
    exact h.fails rfl ((deserializeExpandsBytes u).2 hlong) 2
  · have hle : u.binLen ≤ u.cfg.maxBin := h.cfg ▸ not_lt.1 ‹_›
    exact .of_step (h.step rfl (exec_deserialize_of_le hle)) (Decompressing.unpad ⟨rfl, h.host, h.cfg, h.bin, h.binLen, h.code⟩)

end

/-- A whole `DECOMPRESS` from an idle core ends with its result. -/
theorem decompress_endsIn {s : State} (hb : s.busy = false) :
    EndsIn 4 (s.doing [.csrWrite 0 2]) (Decompressed s · (decompressResult s.cfg s.code s.stream)) := by
  have hstep : step (s.doing [.csrWrite 0 2]) = exec .decompress (s.doing []) :=
    stepRunsWrittenCommand (s.doing [.csrWrite 0 2]) [] 2 .decompress rfl rfl
  exact .of_step (hstep.trans (exec_decompress_idle hb)) (Decompressing.deserialize ⟨rfl, rfl, rfl, rfl, rfl, rfl⟩)

/-! ## The obligations -/

/-- Settles O58: the result of the run (`decompress_endsIn`), read by what `decompress_fn` answers. -/
theorem decompressComputesFunction : Obligations.DecompressComputesFunction := by
  unfold Obligations.DecompressComputesFunction
  intro s hb
  obtain ⟨t, hsteps, ht⟩ := decompress_endsIn hb
  refine ⟨t, _, rfl, hsteps, ht.bin, ht.binLen, ht.code, fun hlong => ?long, fun hle symbols hfn => ?ok, fun hle e hfn => ?error⟩
  case long =>
    rw [← State.length_stream] at hlong
    rw [decompressResult_of_long hlong] at ht
    exact ⟨ht.status, ht.txtLen⟩
  case ok =>
    rw [← State.length_stream] at hle
    obtain ⟨hheader, hs⟩ := recovered_of_ok hfn
    rw [decompressResult_of_header hle hheader] at ht
    refine ⟨fun hfits => ?_, fun hlong => ?_⟩
    · have hread := decodePayload_of_recovered_of_le hs hfits
      rw [hread] at ht
      refine ⟨ht.status, ht.txtLen, fun hcode => ht.text fun x hx => ?_⟩
      obtain ⟨w, hw⟩ := (decodePayload_text hread).2 x hx
      exact hcode _ hw
    · rw [decodePayload_of_recovered_of_lt hs hlong] at ht
      exact ⟨ht.status, ht.txtLen⟩
  case error =>
    rw [← State.length_stream] at hle
    obtain ⟨rfl, hs⟩ := unrecovered_of_error hfn
    by_cases hheader : BadHeader (deserializeBytes s.stream)
    · rw [decompressResult_of_badHeader hle hheader] at ht
      exact ⟨rfl, ht.txtLen, fun _ => ht.status, fun h8 hval => absurd hheader (not_or.2 ⟨not_lt.2 h8, not_lt.2 hval⟩)⟩
    rw [decompressResult_of_header hle hheader] at ht
    by_cases hmany : TooManySymbols s.code s.cfg.maxTxt (unpadded (deserializeBytes s.stream))
    · rw [decodePayload_overflow.2 hmany] at ht
      exact ⟨rfl, ht.txtLen, (absurd · hheader), fun _ _ => ⟨fun _ => ht.status, absurd hmany⟩⟩
    · rw [decodePayload_of_unrecovered (hs hheader) hmany] at ht
      exact ⟨rfl, ht.txtLen, (absurd · hheader), fun _ _ => ⟨(absurd · hmany), fun _ => ht.status⟩⟩

/-- The stream of a text is read back with the text's own table (R168). -/
theorem decompressResult_streamOf {c : Config} {text : List Symbol} {e : Bits} (hc : c.wellFormed = true) (hne : text ≠ [])
    (hlen : text.length ≤ c.maxTxt) (he : payload (codeTableOf c text) text = some e) (hfits : streamLength e.length ≤ c.maxBin) :
    decompressResult c (codeTableOf c text) (streamOf e) = { status := 0x0002, text := text } := by
  have hbits : deserializeBytes (streamOf e) = padded (paddingCount e.length) e :=
    deserializeBytes_serializeBits (by rw [length_padded, Nat.mul_mod_right])
  obtain ⟨hheader, hpayload⟩ := unpadded_padded e
  obtain ⟨hread, -⟩ := decodePayload_codeTableOf hc hne hlen he
  rw [← hbits] at hheader hpayload
  rw [decompressResult_of_header ((length_streamOf e).trans_le hfits) hheader, hpayload, hread]
  rfl

/-- Settles O59: `COMPRESS` ends with the stream of the payload and the table of the trimmed text, and those give it back
(`decompressResult_streamOf`). -/
theorem roundTripReturnsTrimmedText : Obligations.RoundTripReturnsTrimmedText := by
  unfold Obligations.RoundTripReturnsTrimmedText
  intro s e hc hb hle hne he hfits
  rw [← State.length_text] at hle
  obtain ⟨t, hsteps, ht⟩ := compress_endsIn hc hb
  rw [compressResult_of_ok hle (compressFn_of_payload hne he), CompressResult.stored,
    if_pos ((length_streamOf e).trans_le hfits)] at ht
  obtain ⟨u, hsteps', hu⟩ := decompress_endsIn ht.idle
  rw [ht.cfg, ht.code, ht.stream,
    decompressResult_streamOf hc hne ((trimText_prefix _ _).length_le.trans hle) he hfits] at hu
  exact ⟨t, u, hsteps, ht.status, hsteps', hu.status, hu.text fun x hx => ht.cfg ▸ State.lt_of_mem_trimText hx⟩

end Sys2Proof.Machine
end
